-- ==== Sys2Proof/Word.lean ====
section
/-! DEFINITION. The word types of the ssiRadio CORE block (00_scope.md R9). -/

namespace Sys2Proof

/-- A byte of the command stream or of the frame buffer. -/
abbrev Byte := BitVec 8

end Sys2Proof
end

