-- ==== Sys2Proof/Config.lean ====
section
/-! DEFINITION. What is fixed when the block is built: its parameters with their legal ranges (00_scope.md R6, R8), its
constants, the values the spec leaves free, and the configurations the spec writes out. -/

namespace Sys2Proof

/-- The pre-emphasis map on Mark samples, a configuration (R6, R200; 93_implementation_defined.md U6): the default
reading, the mid-scale reading, or any map given as the list of its values at 0, 1, 2, ... (log 12). -/
inductive Preemph where
  | ratio (num den : Nat)
  | midScale (num den : Nat)
  | codes (values : List Nat)
deriving DecidableEq, Repr

/-- The parameters of R6, under their names there. Every one is read-only to every command. `keyDelay`, `fs`,
`bitRate`, `fMark` and `fSpace` are read by no rule of the block (R7, R302). -/
structure Config where
  maxFrameBytes : Nat
  flagCount : Nat
  q : Nat
  r : Nat
  qtable : List Nat
  f : Nat
  spb : Nat
  incMark : Nat
  incSpace : Nat
  preemph : Preemph
  keyDelay : Nat
  fs : Nat
  bitRate : Nat
  fMark : Nat
  fSpace : Nat
deriving DecidableEq, Repr

/-- CRC_SEED (R6). -/
def crcSeed : BitVec 16 := 0xFFFF#16

/-- CRC_POLY (R6). -/
def crcPoly : BitVec 16 := 0x8408#16

/-- STUFF_THRESHOLD (R6). -/
def stuffThreshold : BitVec 3 := 5#3

namespace Config

/-- CAP_BITS = 8 × MAX_FRAME_BYTES (R6). -/
def capBits (c : Config) : Nat := 8 * c.maxFrameBytes

/-- P = 4 × Q (R6). -/
def p (c : Config) : Nat := 4 * c.q

/-- MAXV = 2^R − 1 (R6). -/
def maxv (c : Config) : Nat := 2 ^ c.r - 1

/-- PHASE_MOD = P × 2^F (R6). -/
def phaseMod (c : Config) : Nat := c.p * 2 ^ c.f

/-- The legal pre-emphasis maps (R6): a ratio below one, or a total map 0 .. MAXV → 0 .. MAXV. -/
def preemphLegal (maxv : Nat) : Preemph → Bool
  | .ratio num den => decide (num < den ∧ den ≤ 65535)
  | .midScale num den => decide (num < den ∧ den ≤ 65535)
  | .codes values => decide (values.length = maxv + 1 ∧ ∀ v ∈ values, v ≤ maxv)

/-- Every parameter in its legal range (R6, R8). -/
def legal (c : Config) : Bool :=
  decide (1 ≤ c.maxFrameBytes ∧ c.maxFrameBytes ≤ 65536) &&
  decide (1 ≤ c.flagCount ∧ c.flagCount ≤ 255) &&
  decide (1 ≤ c.q ∧ c.q ≤ 65536) &&
  decide (1 ≤ c.r ∧ c.r ≤ 16) &&
  decide (c.qtable.length = c.q ∧ ∀ v ∈ c.qtable, v ≤ c.maxv) &&
  decide (c.f ≤ 16 ∧ c.phaseMod ≤ 2 ^ 32) &&
  decide (1 ≤ c.spb ∧ c.spb ≤ 65535) &&
  decide (c.incMark < c.phaseMod ∧ c.incSpace < c.phaseMod) &&
  preemphLegal c.maxv c.preemph &&
  decide (c.fs = c.spb * c.bitRate)

/-- The default increment of a tone, `floor(f × P × 2^F / FS)` (41_tone_table.md R177). A legal configuration may hold
any other. -/
def defaultIncrement (freq p f fs : Nat) : Nat := freq * p * 2 ^ f / fs

/-- The byte drawn by a `READ_BUF` outside the frame's extent, a free value at each draw (R234, D27; log 5). -/
opaque freeByte : Nat → Byte

/-- The adapter's answer `SettleOk` where none stands ready, a free value at each draw (R262, D22; log 4). -/
opaque freeSettle : Nat → Bool

/-- The default quarter-wave table for Q = 4, R = 8 (R174). -/
def qtable4 : List Nat := [152, 198, 234, 253]

/-- The default quarter-wave table for Q = 128, R = 8 (R174): the integers the spec evaluates its formula to. -/
def qtable128 : List Nat :=
  [128, 130, 131, 133, 135, 136, 138, 139, 141, 142, 144, 145, 147, 149, 150, 152] ++
  [153, 155, 156, 158, 159, 161, 162, 164, 165, 167, 168, 170, 171, 173, 174, 176] ++
  [177, 178, 180, 181, 183, 184, 186, 187, 188, 190, 191, 192, 194, 195, 196, 198] ++
  [199, 200, 202, 203, 204, 205, 207, 208, 209, 210, 211, 213, 214, 215, 216, 217] ++
  [218, 219, 220, 221, 222, 224, 225, 226, 227, 228, 228, 229, 230, 231, 232, 233] ++
  [234, 235, 236, 236, 237, 238, 239, 240, 240, 241, 242, 242, 243, 244, 244, 245] ++
  [246, 246, 247, 247, 248, 248, 249, 249, 250, 250, 251, 251, 251, 252, 252, 252] ++
  [253, 253, 253, 254, 254, 254, 254, 254, 254, 255, 255, 255, 255, 255, 255, 255]

/-- The test configuration T of 95_test_vectors.md section 0, but for KEY_DELAY: T leaves it at "any (not read)" and R6
leaves it OPEN. DESIGN CHOICE (log 1): 0, which no rule reads (R302). -/
def t : Config where
  maxFrameBytes := 330
  flagCount := 2
  q := 4
  r := 8
  qtable := qtable4
  f := 8
  spb := 8
  incMark := 512
  incSpace := 938
  preemph := .ratio 3 4
  keyDelay := 0
  fs := 9600
  bitRate := 1200
  fMark := 1200
  fSpace := 2200

/-- The configuration the block has at power-on in this model. DESIGN CHOICE (log 1): the spec leaves every parameter
open, and T is the one configuration it writes out. -/
def atReset : Config := t

end Config
end Sys2Proof
end

