-- ==== Sys2Proof/Syntax.lean ====
section
/-! DEFINITION. The abstract commands (30_encoding.md R99): one constructor for each row of opcode_table.json. -/

namespace Sys2Proof

/-- The registers `READ_REG` reads, in the order of their numbers 0 .. 8 (10_state.md R41). -/
inductive Reg where
  | status | bitlen | crc | outb | phase | inc | budget | cursor | txlen
deriving DecidableEq, Repr

/-- One address of a chain (R89, R90, R99): the callsign at its given length, the SSID, the last-in-chain flag. -/
structure Address where
  callsign : List Byte
  ssid : BitVec 4
  last : Bool
deriving DecidableEq, Repr

/-- The commands of R83 and the event TICK. -/
inductive Instr where
  | reset
  | readReg (reg : Reg)
  | readBuf (idx : BitVec 16)
  | beginFrame
  | writeFlags (n : Byte)
  | writeAddressChain (chain : List Address)
  | writeControlAndPid
  | writePayload (bytes : List Byte)
  | writeFcsAndTrailer
  | startTx
  | stopTimer
  | tableLookup (k : BitVec 32)
  | tick
deriving DecidableEq, Repr

end Sys2Proof
end

