-- ==== Sys2Proof/WellFormed.lean ====
section
/-! DEFINITION. Which abstract commands are legal (30_encoding.md R85 to R92, R97, R99). MAX_FRAME_BYTES, on which the
legal indices of `READ_BUF` depend, is the argument `maxFrameBytes`. -/

namespace Sys2Proof

/-- A callsign byte is printable ASCII, 0x20 .. 0x7E (R89). -/
abbrev printable (ch : Byte) : Bool := 0x20#8 ≤ ch && ch ≤ 0x7E#8

/-- A legal address: the callsign's length is a byte (R89) and each of its characters is printable, those past the sixth
included (R97 item 5). The type of `ssid` admits 0 .. 15 and nothing else (R90). -/
def Address.wellFormed (a : Address) : Bool :=
  decide (a.callsign.length ≤ 255) && a.callsign.all printable

/-- A legal command (R99). The register of `READ_REG` is one of the nine by its type. -/
def Instr.wellFormed (maxFrameBytes : Nat) : Instr → Bool
  | .readBuf idx => decide (idx.toNat < maxFrameBytes)
  | .writeFlags n => n != 0#8
  | .writeAddressChain chain => decide (chain.length ≤ 255) && chain.all Address.wellFormed
  | .writePayload bytes => decide (bytes.length ≤ 65535)
  | .reset => true
  | .readReg _ => true
  | .beginFrame => true
  | .writeControlAndPid => true
  | .writeFcsAndTrailer => true
  | .startTx => true
  | .stopTimer => true
  | .tableLookup _ => true
  | .tick => true

end Sys2Proof
end

