-- ==== Sys2Proof/Decode.lean ====
section
/-! DEFINITION. The command decoder, total on bytes and refusing by name (30_encoding.md R80 to R97), the encoder (R100),
and the words of opcode_table.json. -/

namespace Sys2Proof

/-! ## The opcode map (R83) -/

/-- The twelve opcodes. -/
inductive Opcode where
  | reset | readReg | readBuf | beginFrame | writeFlags | writeAddressChain | writeControlAndPid | writePayload
  | writeFcsAndTrailer | startTx | stopTimer | tableLookup
deriving DecidableEq, Repr

/-- The opcode byte of each row of R83. -/
def Opcode.byte : Opcode → Byte
  | .reset => 0x01#8
  | .readReg => 0x02#8
  | .readBuf => 0x03#8
  | .beginFrame => 0x10#8
  | .writeFlags => 0x11#8
  | .writeAddressChain => 0x12#8
  | .writeControlAndPid => 0x13#8
  | .writePayload => 0x14#8
  | .writeFcsAndTrailer => 0x15#8
  | .startTx => 0x20#8
  | .stopTimer => 0x21#8
  | .tableLookup => 0x30#8

/-- Every opcode, in the order of R83. -/
def Opcode.all : List Opcode :=
  [.reset, .readReg, .readBuf, .beginFrame, .writeFlags, .writeAddressChain, .writeControlAndPid, .writePayload,
    .writeFcsAndTrailer, .startTx, .stopTimer, .tableLookup]

/-- The opcode of a byte; any byte outside the map has none (R97 item 1). -/
def Opcode.ofByte? (b : Byte) : Option Opcode := Opcode.all.find? (fun o => o.byte == b)

/-- The register numbers of R41. -/
def Reg.num : Reg → Byte
  | .status => 0#8
  | .bitlen => 1#8
  | .crc => 2#8
  | .outb => 3#8
  | .phase => 4#8
  | .inc => 5#8
  | .budget => 6#8
  | .cursor => 7#8
  | .txlen => 8#8

/-- Every register, in the order of R41. -/
def Reg.all : List Reg := [.status, .bitlen, .crc, .outb, .phase, .inc, .budget, .cursor, .txlen]

/-- The register of a number; 9 .. 255 are reserved (R41, R97 item 2). -/
def Reg.ofByte? (b : Byte) : Option Reg := Reg.all.find? (fun g => g.num == b)

/-! ## Decoding -/

/-- Why a complete byte sequence is refused: the six items of R97. -/
inductive RefuseReason where
  | opcode
  | register
  | index
  | zeroFlags
  | callsignByte
  | ssidBits
deriving DecidableEq, Repr

/-- The stages R96 names. -/
inductive Stage where
  | opcode | operand | record
deriving DecidableEq, Repr

/-- The stage that finds each reason (R96, R97). -/
def RefuseReason.stage : RefuseReason → Stage
  | .opcode => .opcode
  | .register => .operand
  | .index => .operand
  | .zeroFlags => .operand
  | .callsignByte => .record
  | .ssidBits => .record

/-- What the decoder makes of a stream: a command and the bytes after it, a refusal and the bytes after the refused
command (R96), or an incomplete command, which waits for more bytes (R95). -/
inductive Decoded where
  | cmd (i : Instr) (rest : List Byte)
  | refused (why : RefuseReason) (rest : List Byte)
  | incomplete
deriving DecidableEq, Repr

/-- The first `n` bytes of a stream and the rest of it, if it has so many. -/
def takeBytes : Nat → List Byte → Option (List Byte × List Byte)
  | 0, bs => some ([], bs)
  | _ + 1, [] => none
  | n + 1, b :: bs =>
    match takeBytes n bs with
    | some (xs, rest) => some (b :: xs, rest)
    | none => none

/-- An address record as its bytes give it (R81): the callsign bytes and the byte `sl`, not yet checked. -/
abbrev RawRecord := List Byte × Byte

/-- Reads `k` records, each as long as its own first byte says (R94). -/
def takeRecords : Nat → List Byte → Option (List RawRecord × List Byte)
  | 0, bs => some ([], bs)
  | _ + 1, [] => none
  | k + 1, clen :: bs =>
    match takeBytes clen.toNat bs with
    | some (cs, sl :: rest) =>
      match takeRecords k rest with
      | some (recs, rest') => some ((cs, sl) :: recs, rest')
      | none => none
    | some (_, []) => none
    | none => none

/-- `sl[6:4]`, reserved, must be 0 (R90). -/
def slReserved (sl : Byte) : BitVec 3 := sl.extractLsb' 4 3

/-- An address from its record (R89, R90): `SSID` = `sl[3:0]`, `LAST` = `sl[7]`. -/
def addressOfRecord (rec : RawRecord) : Except RefuseReason Address :=
  if rec.1.all printable = false then .error .callsignByte
  else if slReserved rec.2 ≠ 0#3 then .error .ssidBits
  else .ok { callsign := rec.1, ssid := rec.2.extractLsb' 0 4, last := rec.2.getLsbD 7 }

/-- The chain of a command's records; one illegal record refuses the whole command (R97). The first illegal record, and
in it the callsign before `sl`, names the reason (log 16). -/
def addressesOfRecords : List RawRecord → Except RefuseReason (List Address)
  | [] => .ok []
  | rec :: recs =>
    match addressOfRecord rec with
    | .error why => .error why
    | .ok a =>
      match addressesOfRecords recs with
      | .error why => .error why
      | .ok chain => .ok (a :: chain)

/-- Decodes the operands of a command after its opcode byte (R81, R82, R85 to R93). A refusal needs the complete command
(R96), so a stream that ends before is incomplete whatever its bytes (R95; log 16). -/
def decodeOperands (maxFrameBytes : Nat) : Opcode → List Byte → Decoded
  | .reset, bs => .cmd .reset bs
  | .readReg, [] => .incomplete
  | .readReg, b :: bs =>
    match Reg.ofByte? b with
    | some g => .cmd (.readReg g) bs
    | none => .refused .register bs
  | .readBuf, hi :: lo :: bs =>
    if (hi ++ lo : BitVec 16).toNat < maxFrameBytes then .cmd (.readBuf (hi ++ lo)) bs else .refused .index bs
  | .readBuf, _ => .incomplete
  | .beginFrame, bs => .cmd .beginFrame bs
  | .writeFlags, [] => .incomplete
  | .writeFlags, n :: bs => if n = 0#8 then .refused .zeroFlags bs else .cmd (.writeFlags n) bs
  | .writeAddressChain, [] => .incomplete
  | .writeAddressChain, k :: bs =>
    match takeRecords k.toNat bs with
    | none => .incomplete
    | some (recs, rest) =>
      match addressesOfRecords recs with
      | .error why => .refused why rest
      | .ok chain => .cmd (.writeAddressChain chain) rest
  | .writeControlAndPid, bs => .cmd .writeControlAndPid bs
  | .writePayload, hi :: lo :: bs =>
    match takeBytes (hi ++ lo : BitVec 16).toNat bs with
    | none => .incomplete
    | some (bytes, rest) => .cmd (.writePayload bytes) rest
  | .writePayload, _ => .incomplete
  | .writeFcsAndTrailer, bs => .cmd .writeFcsAndTrailer bs
  | .startTx, bs => .cmd .startTx bs
  | .stopTimer, bs => .cmd .stopTimer bs
  | .tableLookup, b3 :: b2 :: b1 :: b0 :: bs => .cmd (.tableLookup (b3 ++ b2 ++ b1 ++ b0)) bs
  | .tableLookup, _ => .incomplete

/-- Decodes the first command of a stream (R80, R96). An illegal opcode is refused alone: decoding resumes at the byte
after it. -/
def decode (maxFrameBytes : Nat) : List Byte → Decoded
  | [] => .incomplete
  | op :: bs =>
    match Opcode.ofByte? op with
    | none => .refused .opcode bs
    | some o => decodeOperands maxFrameBytes o bs

/-! ## Encoding -/

/-- The bytes of a 16-bit operand, most significant first (R82). -/
def bytesOf16 (v : BitVec 16) : List Byte := [v.extractLsb' 8 8, v.extractLsb' 0 8]

/-- The bytes of a 32-bit value, most significant first (R82, R104). -/
def bytesOf32 (v : BitVec 32) : List Byte :=
  [v.extractLsb' 24 8, v.extractLsb' 16 8, v.extractLsb' 8 8, v.extractLsb' 0 8]

/-- The byte `sl` of an address (R90): `LAST`, three zero bits, `SSID`. -/
def slByte (a : Address) : Byte := BitVec.ofBool a.last ++ 0#3 ++ a.ssid

/-- The record of an address (R81): `clen`, the callsign bytes, `sl`. -/
def encodeAddress (a : Address) : List Byte :=
  BitVec.ofNat 8 a.callsign.length :: (a.callsign ++ [slByte a])

/-- The bytes of a command (R81 to R93, R100). A TICK has none (R80). -/
def encode : Instr → List Byte
  | .reset => [Opcode.reset.byte]
  | .readReg g => [Opcode.readReg.byte, g.num]
  | .readBuf idx => Opcode.readBuf.byte :: bytesOf16 idx
  | .beginFrame => [Opcode.beginFrame.byte]
  | .writeFlags n => [Opcode.writeFlags.byte, n]
  | .writeAddressChain chain =>
    Opcode.writeAddressChain.byte :: BitVec.ofNat 8 chain.length :: chain.flatMap encodeAddress
  | .writeControlAndPid => [Opcode.writeControlAndPid.byte]
  | .writePayload bytes => Opcode.writePayload.byte :: (bytesOf16 (BitVec.ofNat 16 bytes.length) ++ bytes)
  | .writeFcsAndTrailer => [Opcode.writeFcsAndTrailer.byte]
  | .startTx => [Opcode.startTx.byte]
  | .stopTimer => [Opcode.stopTimer.byte]
  | .tableLookup k => Opcode.tableLookup.byte :: bytesOf32 k
  | .tick => []

/-! ## The words of opcode_table.json -/

/-- The first `n` bytes of a number, least significant first: byte 0 is the command's first byte. -/
def bytesOfNat : Nat → Nat → List Byte
  | 0, _ => []
  | n + 1, w => BitVec.ofNat 8 w :: bytesOfNat n (w / 256)

/-- The length of `k` records that begin with the given bytes and go on with zeros (R94). -/
def recordsLength : Nat → List Byte → Nat
  | 0, _ => 0
  | k + 1, [] => 2 + recordsLength k []
  | k + 1, clen :: bs => 2 + clen.toNat + recordsLength k (bs.drop (clen.toNat + 1))

/-- The length of the command that begins with the given bytes and goes on with zeros (R94). An illegal opcode is one
byte. -/
def commandLength : List Byte → Nat
  | [] => 1
  | op :: bs =>
    match Opcode.ofByte? op with
    | some .readReg => 2
    | some .readBuf => 3
    | some .writeFlags => 2
    | some .writeAddressChain => 2 + recordsLength (bs.headD 0#8).toNat bs.tail
    | some .writePayload => 3 + (bs.headD 0#8 ++ bs.tail.headD 0#8 : BitVec 16).toNat
    | some .tableLookup => 5
    | some .reset => 1
    | some .beginFrame => 1
    | some .writeControlAndPid => 1
    | some .writeFcsAndTrailer => 1
    | some .startTx => 1
    | some .stopTimer => 1
    | none => 1

/-- The bytes of the command whose bits are `w`, bit 0 the least significant bit of the first byte, every bit from
`nbits` up zero: exactly as many bytes as the command has. -/
def tableBytes (nbits w : Nat) : List Byte :=
  let given := bytesOfNat (nbits / 8) w
  (given ++ List.replicate (commandLength given - given.length) 0#8).take (commandLength given)

/-- The instruction of a word of opcode_table.json, read by `decode` with the MAX_FRAME_BYTES of `Config.atReset`. The
one row without bits is the event TICK (R80, R83), which no bytes stand for (log 3). -/
def decodeTableWord (nbits w : Nat) : Option Instr :=
  if nbits = 0 then some .tick
  else
    match decode Config.atReset.maxFrameBytes (tableBytes nbits w) with
    | .cmd i _ => some i
    | .refused _ _ => none
    | .incomplete => none

end Sys2Proof
end

