-- ==== Sys2Proof/Machine/State.lean ====
section
/-! DEFINITION. The state of the block (10_state.md), the reasons a step stops, and the state after power-on reset
(R49, 70_reset_and_hazards.md R290). -/

namespace Sys2Proof.Machine

/-- FSTATE, the frame's construction state (R22): NOFRAME, OPEN, FINALIZED. -/
inductive FState where
  | noFrame | opened | finalized
deriving DecidableEq, Repr

/-- FERR, the frame's construction error (R23): NONE, OVERFLOW, INVALID_CHAIN. -/
inductive FErr where
  | none | overflow | invalidChain
deriving DecidableEq, Repr

/-- SSTATE, the synthesizer's state (R29): IDLE, TRANSMITTING, DRAINING. -/
inductive SState where
  | idle | transmitting | draining
deriving DecidableEq, Repr

/-- TONE, the current tone (R31). -/
inductive Tone where
  | mark | space
deriving DecidableEq, Repr

/-- The reasons of a ModelFault (60_exceptions.md R255). -/
inductive ModelFault where
  | bufferRace
  | sequenceViolation
deriving DecidableEq, Repr

/-- The response codes, by name (60_exceptions.md R250). -/
inductive RespCode where
  | ok | frameOverflow | invalidAddressChain | sessionBusy | configurationTimeout | frameNotReady | illegal
deriving DecidableEq, Repr

/-- What the block puts out (00_scope.md R12, 30_encoding.md R104): one sample, a change of transmit-enable, the keying
wait, a response to the host. -/
inductive Output where
  | sampleOut (v : Nat)
  | txEnable (on : Bool)
  | keyDelay
  | resp (code : RespCode) (value : BitVec 32)
deriving DecidableEq, Repr

/-- The two agents that make the block take a step (20_memory.md R74). -/
inductive Agent where
  | host | timer
deriving DecidableEq, Repr

/-- BUF as the listed bytes, addresses strictly rising, no entry equal to what an unlisted address reads as. -/
abbrev Memory := List Host.Cell

/-- Why the machine stops. -/
inductive Fault where
  /-- Raised by `step` in every state whose FAULT mark is set: "no command and no TICK is taken after it" (R255). Safe:
  the machine stops where the spec gives it no further step. -/
  | stopped (reason : ModelFault)
  /-- Raised by `READ_BUF`, `WRITE_FCS_AND_TRAILER` and `TICK` for an index of BUF outside 0 .. MAX_FRAME_BYTES − 1
  (R60), which only an undecodable operand or a state no run reaches gives (R64, R97). Safe: the machine stops. -/
  | noSuchByte (index : Nat)
deriving DecidableEq, Repr

/-- Why a step has no meaning. -/
inductive Refusal where
  /-- Raised by an arm of `exec` for an instruction without a meaning. Safe: the machine stops. -/
  | notModelled (mnemonic : String)
  /-- Raised by `step` in a state whose configuration is outside the legal ranges: "a model refuses to build such a
  configuration" (R8). Safe: the machine stops. -/
  | illegalConfig
deriving DecidableEq, Repr

/-- The state of the block. The fields `trace`, `stream`, `turns`, `settle` and `draws` are the model's own (INVENTORY.md,
State); `cfg` is what the build fixed, which no step writes. -/
structure State where
  /-- The parameters (00_scope.md R6). -/
  cfg : Config
  /-- FSTATE (R22). -/
  fstate : FState
  /-- FERR (R23). -/
  ferr : FErr
  /-- CRC (R24). -/
  crc : BitVec 16
  /-- ONES (R25). -/
  ones : BitVec 3
  /-- BITLEN (R26). -/
  bitlen : BitVec 20
  /-- OUTB (R27). -/
  outb : BitVec 8
  /-- BUF (R28). -/
  buf : Memory
  /-- SSTATE (R29). -/
  sstate : SState
  /-- ACTIVE (R30). -/
  active : Bool
  /-- TONE (R31). -/
  tone : Tone
  /-- PHASE (R32). -/
  phase : BitVec 32
  /-- INC (R33). -/
  inc : BitVec 32
  /-- BUDGET (R34). -/
  budget : BitVec 16
  /-- CURSOR (R35). -/
  cursor : BitVec 20
  /-- TXLEN (R36). -/
  txlen : BitVec 20
  /-- TX_EN (R37). -/
  txEn : Bool
  /-- TIMER_EN (R38). -/
  timerEn : Bool
  /-- FAULT (R39). -/
  fault : Option ModelFault
  /-- The outputs so far, oldest first (R12; log 11). -/
  trace : List Output
  /-- The bytes the host has sent that no command has consumed (R80; log 2). -/
  stream : List Byte
  /-- Who moves at the next steps, the host once the list is at its end (R74; log 2). -/
  turns : List Agent
  /-- The adapter's answers that stand ready (R262; log 4). -/
  settle : List Bool
  /-- How many free values have been drawn (log 5). -/
  draws : Nat
deriving DecidableEq, Repr

/-- The block right after power-on reset (R49, R290); the configuration and the model's own fields as logs 1, 2, 4, 5, 6
and 11 say. -/
def State.reset : State where
  cfg := Config.atReset
  fstate := .noFrame
  ferr := .none
  crc := crcSeed
  ones := 0#3
  bitlen := 0#20
  outb := 0#8
  buf := []
  sstate := .idle
  active := false
  tone := .mark
  phase := 0#32
  inc := 0#32
  budget := 0#16
  cursor := 0#20
  txlen := 0#20
  txEn := false
  timerEn := false
  fault := none
  trace := []
  stream := []
  turns := []
  settle := []
  draws := 0

end Sys2Proof.Machine
end

