-- ==== Sys2Proof/Machine/Ops.lean ====
section
/-! DEFINITION. The named operations of the block: BUF's bytes, outputs and responses, the draws, and the one operation
that raises a ModelFault. There is no return from a fault and no trap (60_exceptions.md R256). -/

namespace Sys2Proof.Machine

/-! ## The frame buffer as a list of bytes (20_memory.md R60) -/

namespace Memory

/-- What an unlisted byte of BUF reads as. DESIGN CHOICE (log 6): the spec leaves BUF at power-on unspecified; no read
the spec defines sees this byte. -/
def unlisted : Byte := 0#8

/-- The canonical form: addresses strictly rising, no entry equal to what an unlisted address reads as. -/
abbrev wf (m : Memory) : Prop := m.Pairwise (fun x y => x.1 < y.1) ∧ ∀ c ∈ m, c.2 ≠ unlisted

/-- `BUF[a]`. -/
def read : Memory → Nat → Byte
  | [], _ => unlisted
  | c :: m, a => if c.1 = a then c.2 else read m a

/-- `BUF[a] <- v`, keeping the canonical form. -/
def write : Memory → Nat → Byte → Memory
  | [], a, v => if v = unlisted then [] else [(a, v)]
  | c :: m, a, v =>
    if a < c.1 then (if v = unlisted then c :: m else (a, v) :: c :: m)
    else if a = c.1 then (if v = unlisted then m else (a, v) :: m)
    else c :: write m a v

end Memory

namespace State

/-- MemRead(i, 1) (00_scope.md R10): no byte exists outside 0 .. MAX_FRAME_BYTES − 1 (R60). -/
def memRead? (s : State) (i : Nat) : Option Byte :=
  if i < s.cfg.maxFrameBytes then some (s.buf.read i) else none

/-- MemWrite(i, 1, v) (R10). Both its callers keep `i` inside BUF: `pack` by the capacity check of R120, `finalFlush?`
by a check of its own. -/
def memWrite (s : State) (i : Nat) (v : Byte) : State := { s with buf := s.buf.write i v }

/-! ## Outputs (00_scope.md R12, 30_encoding.md R104) -/

/-- `emit e`. -/
def emit (s : State) (e : Output) : State := { s with trace := s.trace ++ [e] }

/-- `return Resp(code, value)`: the response stands after the events of its command (log 11). -/
def respond (s : State) (code : RespCode) (value : BitVec 32) : State := s.emit (.resp code value)

/-! ## Model faults (60_exceptions.md R255) -/

/-- `raise ModelFault(reason)`: FAULT takes the reason unless it already holds one; no response, no output event, no
other change. That no step follows is `arrival`'s part (log 7). -/
def raiseFault (s : State) (reason : ModelFault) : State :=
  match s.fault with
  | none => { s with fault := some reason }
  | some _ => s

/-! ## The two draws (92_eei_decisions.md, Named parameters left open) -/

/-- `draw d : 8 bits` (43_system.md R234): a free value at each draw (log 5). -/
def drawByte (s : State) : Byte × State := (Config.freeByte s.draws, { s with draws := s.draws + 1 })

/-- `draw SettleOk` (60_exceptions.md R262): the adapter's next answer if one stands ready, else a free value (log 4). -/
def drawSettle (s : State) : Bool × State :=
  match s.settle with
  | ok :: rest => (ok, { s with settle := rest })
  | [] => (Config.freeSettle s.draws, { s with draws := s.draws + 1 })

end State

/-! ## Response bytes (30_encoding.md R104) -/

/-- The numbers of the response codes (R250). -/
def RespCode.byte : RespCode → Byte
  | .ok => 0x00#8
  | .frameOverflow => 0x01#8
  | .invalidAddressChain => 0x02#8
  | .sessionBusy => 0x03#8
  | .configurationTimeout => 0x04#8
  | .frameNotReady => 0x05#8
  | .illegal => 0xFF#8

/-- The five bytes of a response: the code, then the value most significant byte first (R104). -/
def responseBytes (code : RespCode) (value : BitVec 32) : List Byte := code.byte :: bytesOf32 value

/-- The bytes the host receives for an output: those of a response, none for an event. -/
def Output.hostBytes : Output → List Byte
  | .resp code value => responseBytes code value
  | .sampleOut _ => []
  | .txEnable _ => []
  | .keyDelay => []

end Sys2Proof.Machine
end

