-- ==== Sys2Proof/Machine/Flags.lean ====
section
/-! DEFINITION. The flags and what is computed from them: the status word and the register reads (10_state.md R41, R42),
the response code of FERR (40_frame_builder.md R126) and the guards of the Frame Builder commands (R127). -/

namespace Sys2Proof.Machine

/-- The numbers of FSTATE (R22). -/
def FState.num : FState → BitVec 32
  | .noFrame => 0#32
  | .opened => 1#32
  | .finalized => 2#32

/-- The numbers of FERR (R23). -/
def FErr.num : FErr → BitVec 32
  | .none => 0#32
  | .overflow => 1#32
  | .invalidChain => 2#32

/-- The numbers of SSTATE (R29). -/
def SState.num : SState → BitVec 32
  | .idle => 0#32
  | .transmitting => 1#32
  | .draining => 2#32

/-- The numbers of TONE (R31). -/
def Tone.num : Tone → BitVec 32
  | .mark => 0#32
  | .space => 1#32

/-- The other tone. -/
def Tone.toggle : Tone → Tone
  | .mark => .space
  | .space => .mark

/-- A one-bit flag as a number. -/
def flagNum (b : Bool) : BitVec 32 := if b then 1#32 else 0#32

/-- The status word (R42). -/
def State.statusWord (s : State) : BitVec 32 :=
  s.ones.setWidth 32 <<< 10 ||| s.tone.num <<< 9 ||| flagNum s.timerEn <<< 8 ||| flagNum s.txEn <<< 7 |||
    flagNum s.active <<< 6 ||| s.sstate.num <<< 4 ||| s.ferr.num <<< 2 ||| s.fstate.num

/-- `zext_32(register r)` (R41, 43_system.md R233). -/
def State.regValue (s : State) : Reg → BitVec 32
  | .status => s.statusWord
  | .bitlen => s.bitlen.setWidth 32
  | .crc => s.crc.setWidth 32
  | .outb => s.outb.setWidth 32
  | .phase => s.phase
  | .inc => s.inc
  | .budget => s.budget.setWidth 32
  | .cursor => s.cursor.setWidth 32
  | .txlen => s.txlen.setWidth 32

/-- `code(FERR)` (R126). -/
def FErr.code : FErr → RespCode
  | .none => .ok
  | .overflow => .frameOverflow
  | .invalidChain => .invalidAddressChain

/-- Guard 1 of R127, for every Frame Builder command. -/
def State.raceGuard (s : State) : Option ModelFault :=
  if s.sstate = .transmitting then some .bufferRace else none

/-- Both guards of R127, in their order, for the five write commands. -/
def State.writeGuard (s : State) : Option ModelFault :=
  if s.sstate = .transmitting then some .bufferRace
  else if s.fstate ≠ .opened then some .sequenceViolation
  else none

end Sys2Proof.Machine
end

