-- ==== Sys2Proof/Machine/Operands.lean ====
section
/-! DEFINITION. The operand forms: the bits of a byte (20_memory.md R67), the bytes of an address (40_frame_builder.md
R142, R143), and the frame's extent (20_memory.md R62, R63). -/

namespace Sys2Proof.Machine

/-- The bits of a byte in emission order, least significant first (R67, R123). -/
def byteBits (b : Byte) : List Bool :=
  [b.getLsbD 0, b.getLsbD 1, b.getLsbD 2, b.getLsbD 3, b.getLsbD 4, b.getLsbD 5, b.getLsbD 6, b.getLsbD 7]

/-- HDLC flag octet, 0x7E (R125). -/
def flagByte : Byte := 0x7E#8

/-- The space that pads a callsign (R142). -/
def spaceChar : Byte := 0x20#8

/-- `callsign_byte(ch)` (R143). -/
def callsignByte (ch : Byte) : Byte := ch <<< 1

/-- `ssid_byte(s, final)` (R143). -/
def ssidByte (ssid : BitVec 4) (final : Bool) : Byte :=
  ((0x30#8 + ssid.setWidth 8) <<< 1) ||| (BitVec.ofBool final).setWidth 8

/-- The first six characters of a callsign, padded with spaces to six (R142). -/
def callsignChars (cs : List Byte) : List Byte := (cs ++ List.replicate 6 spaceChar).take 6

/-- The seven bytes of an address; `final` is its position in the chain, not its own flag (R142). -/
def addressBytes (a : Address) (final : Bool) : List Byte :=
  (callsignChars a.callsign).map callsignByte ++ [ssidByte a.ssid final]

/-- The bytes of a chain, the final address marked (R142). -/
def chainBytes : List Address → List Byte
  | [] => []
  | [a] => addressBytes a true
  | a :: b :: rest => addressBytes a false ++ chainBytes (b :: rest)

/-- Whether a non-empty chain's `last` flags mark exactly its final address (R142, D10). -/
def lastFlagsOk : List Address → Bool
  | [] => true
  | [a] => a.last
  | a :: b :: rest => !a.last && lastFlagsOk (b :: rest)

/-- How many bytes of BUF lie within the frame's extent (R62, R63, R234). -/
def State.extent (s : State) : Nat :=
  match s.fstate with
  | .noFrame => 0
  | .opened => s.bitlen.toNat / 8
  | .finalized => (s.bitlen.toNat + 7) / 8

end Sys2Proof.Machine
end

