-- ==== Sys2Proof/Machine/Emit.lean ====
section
/-! DEFINITION. The Frame Builder's primitives (40_frame_builder.md R120 to R126, R147). -/

namespace Sys2Proof.Machine

/-- `crc_step(c, b)` (R122). -/
def crcStep (c : BitVec 16) (b : Bool) : BitVec 16 :=
  if (c.getLsbD 0 ^^ b) = true then (c >>> 1) ^^^ crcPoly else c >>> 1

/-- Bit `i` of a byte, counted from the most significant, set to `v` (R61, R120 step 2). -/
def setMsb (b : Byte) (i : Nat) (v : Bool) : Byte :=
  if v then b ||| (0x80#8 >>> i) else b &&& ~~~(0x80#8 >>> i)

namespace State

/-- Whether the buffer has no room for one more bit (R120). The spec writes `BITLEN = CAP_BITS`; BITLEN never exceeds
CAP_BITS (R26), and the model reads a BITLEN beyond it as full too (log 8). -/
def full (s : State) : Bool := decide (s.cfg.capBits ≤ s.bitlen.toNat)

/-- Step 2 of `emit_bit` (R120): pack one bit, advance BITLEN, flush a completed byte. -/
def pack (s : State) (v : Bool) : State :=
  let outb := setMsb s.outb (s.bitlen.toNat % 8) v
  let bitlen := s.bitlen + 1#20
  if bitlen.toNat % 8 = 0 then
    { s.memWrite (bitlen.toNat / 8 - 1) outb with bitlen := bitlen, outb := 0#8 }
  else
    { s with bitlen := bitlen, outb := outb }

/-- `emit_bit(v, false)`: a flag bit or a stuffed bit (R120, R124). -/
def emitPlain (s : State) (v : Bool) : State :=
  if s.ferr ≠ .none then s
  else if s.full then { s with ferr := .overflow }
  else
    let s := s.pack v
    if v then s else { s with ones := 0#3 }

/-- `emit_bit(v, true)`: a content bit (R120). The fifth content one in a row emits the stuffed bit, which is plain, so
the recursion is flattened to its one level (R121). -/
def emitContent (s : State) (v : Bool) : State :=
  if s.ferr ≠ .none then s
  else if s.full then { s with ferr := .overflow }
  else
    let s := { s with crc := crcStep s.crc v }
    let s := s.pack v
    if v then
      let ones := s.ones + 1#3
      if ones = stuffThreshold then { emitPlain { s with ones := ones } false with ones := 0#3 }
      else { s with ones := ones }
    else { s with ones := 0#3 }

/-- `emit_bit(v, subject)` (R120). -/
def emitBit (s : State) (v : Bool) (subject : Bool) : State :=
  if subject then s.emitContent v else s.emitPlain v

/-- `emit_bit` over a list of bits, in order. -/
def emitBits (s : State) (bits : List Bool) (subject : Bool) : State :=
  bits.foldl (fun s v => s.emitBit v subject) s

/-- `emit_byte(b, subject)` over a list of bytes, in order (R123). -/
def emitBytes (s : State) (bytes : List Byte) (subject : Bool) : State :=
  bytes.foldl (fun s b => s.emitBits (byteBits b) subject) s

/-- `emit_flag()`, `n` times (R125). -/
def emitFlags (s : State) (n : Nat) : State := s.emitBytes (List.replicate n flagByte) false

/-- `final_flush()` (R147): the partial byte, its low bits zero; none if that byte lies outside BUF, which no run
reaches (log 9). -/
def finalFlush? (s : State) : Option State :=
  if s.bitlen.toNat % 8 = 0 then some s
  else if s.bitlen.toNat / 8 < s.cfg.maxFrameBytes then
    some { s.memWrite (s.bitlen.toNat / 8) s.outb with outb := 0#8 }
  else none

/-- The response of a Frame Builder command (R126). -/
def respondFerr (s : State) : State := s.respond s.ferr.code 0#32

end State
end Sys2Proof.Machine
end

