-- ==== Sys2Proof/Machine/FrameBuilder.lean ====
section
/-! DEFINITION. The Frame Builder commands (40_frame_builder.md R140 to R147). -/

namespace Sys2Proof.Machine

/-- `BEGIN_FRAME` (R140): guard 1 only (R127); BUF is not cleared. -/
def execBeginFrame (s : State) : Host.Outcome State Fault Refusal :=
  match s.raceGuard with
  | some reason => .next (s.raiseFault reason)
  | none =>
    let t := { s with crc := crcSeed, ones := 0#3, bitlen := 0#20, outb := 0#8, ferr := .none, fstate := .opened }
    .next (t.respond .ok 0#32)

/-- `WRITE_FLAGS n` (R141). -/
def execWriteFlags (n : Byte) (s : State) : Host.Outcome State Fault Refusal :=
  match s.writeGuard with
  | some reason => .next (s.raiseFault reason)
  | none => .next (s.emitFlags n.toNat).respondFerr

/-- `WRITE_ADDRESS_CHAIN chain` (R142): an earlier error, the empty chain and a wrong `last` flag are found before any
byte is emitted. -/
def execWriteAddressChain (chain : List Address) (s : State) : Host.Outcome State Fault Refusal :=
  match s.writeGuard with
  | some reason => .next (s.raiseFault reason)
  | none =>
    if s.ferr ≠ .none then .next s.respondFerr
    else if chain = [] then .next ({ s with ferr := .invalidChain }.respond .invalidAddressChain 0#32)
    else if lastFlagsOk chain = false then .next ({ s with ferr := .invalidChain }.respond .invalidAddressChain 0#32)
    else .next (s.emitBytes (chainBytes chain) true).respondFerr

/-- `WRITE_CONTROL_AND_PID` (R144). -/
def execWriteControlAndPid (s : State) : Host.Outcome State Fault Refusal :=
  match s.writeGuard with
  | some reason => .next (s.raiseFault reason)
  | none => .next (s.emitBytes [0x03#8, 0xF0#8] true).respondFerr

/-- `WRITE_PAYLOAD bytes` (R145). -/
def execWritePayload (bytes : List Byte) (s : State) : Host.Outcome State Fault Refusal :=
  match s.writeGuard with
  | some reason => .next (s.raiseFault reason)
  | none => .next (s.emitBytes bytes true).respondFerr

/-- The bytes of the FCS, taken once from CRC: its ones-complement, low byte first (R146, R68). -/
def fcsBytes (crc : BitVec 16) : List Byte := [(~~~crc).extractLsb' 0 8, (~~~crc).extractLsb' 8 8]

/-- `WRITE_FCS_AND_TRAILER` (R146). -/
def execWriteFcsAndTrailer (s : State) : Host.Outcome State Fault Refusal :=
  match s.writeGuard with
  | some reason => .next (s.raiseFault reason)
  | none =>
    let t := (s.emitBytes (fcsBytes s.crc) true).emitFlags s.cfg.flagCount
    match t.finalFlush? with
    | some u => .next { u with fstate := .finalized }.respondFerr
    | none => .fault (.noSuchByte (t.bitlen.toNat / 8))

end Sys2Proof.Machine
end

