-- ==== Sys2Proof/Machine/ToneTable.lean ====
section
/-! DEFINITION. The Tone Table and the phase engine (41_tone_table.md R170 to R176), the pre-emphasis map
(42_synthesizer.md R200) and `TABLE_LOOKUP` (R172). -/

namespace Sys2Proof.Machine

/-- `QTABLE[i]`. -/
def quarter (c : Config) (i : Nat) : Nat := c.qtable.getD i 0

/-- `lookup(k)` (R171): the four quarters of the period. -/
def lookup (c : Config) (k : Nat) : Nat :=
  let j := k % c.p
  if j < c.q then quarter c j
  else if j < 2 * c.q then quarter c (2 * c.q - 1 - j)
  else if j < 3 * c.q then c.maxv - quarter c (j - 2 * c.q)
  else c.maxv - quarter c (4 * c.q - 1 - j)

/-- `PREEMPH(v)` (R200, 93_implementation_defined.md U6): the default `floor(v × num / den)`, the mid-scale reading
`floor(MID + (v − MID) × num / den)` with MID = MAXV / 2 over a common denominator, or the map's own list (log 12). -/
def preemphasise (c : Config) (v : Nat) : Nat :=
  match c.preemph with
  | .ratio num den => v * num / den
  | .midScale num den => (c.maxv * (den - num) + 2 * v * num) / (2 * den)
  | .codes values => values.getD v 0

/-- `phase_advance()` (R176): the sum keeps its carry before the wrap. -/
def State.phaseAdvance (s : State) : State :=
  { s with phase := BitVec.ofNat 32 ((s.phase.toNat + s.inc.toNat) % s.cfg.phaseMod) }

/-- `index(PHASE)` (R175). -/
def State.phaseIndex (s : State) : Nat := s.phase.toNat / 2 ^ s.cfg.f

/-- `TABLE_LOOKUP k` (R172): allowed in every state. -/
def execTableLookup (k : BitVec 32) (s : State) : Host.Outcome State Fault Refusal :=
  .next (s.respond .ok (BitVec.ofNat 32 (lookup s.cfg k.toNat)))

end Sys2Proof.Machine
end

