-- ==== Sys2Proof/Machine/Synthesizer.lean ====
section
/-! DEFINITION. The Tone Synthesizer: `START_TX`, `STOP_TIMER` and the event `TICK` (42_synthesizer.md R190 to R199). -/

namespace Sys2Proof.Machine

namespace State

/-- The end of `START_TX` once the adapter has settled (R190, R191): the session fields, SSTATE and ACTIVE, and TIMER_EN
last. -/
def openSession (s : State) : State :=
  { s with
    tone := .mark
    phase := 0#32
    inc := BitVec.ofNat 32 s.cfg.incMark
    budget := 0#16
    cursor := 0#20
    txlen := s.bitlen
    sstate := .transmitting
    active := true
    timerEn := true }

/-- The increment of a tone (R177, R194). -/
def toneIncrement (s : State) (tone : Tone) : BitVec 32 :=
  match tone with
  | .mark => BitVec.ofNat 32 s.cfg.incMark
  | .space => BitVec.ofNat 32 s.cfg.incSpace

/-- `fetch_bit()` (R194): frame bit CURSOR, read from BUF as it is now (20_memory.md R61, R79); none if its byte lies
outside BUF, which no run reaches (log 9). -/
def fetchBit? (s : State) : Option State :=
  match s.memRead? (s.cursor.toNat / 8) with
  | none => none
  | some byte =>
    let tone := if byte.getMsbD (s.cursor.toNat % 8) then s.tone else s.tone.toggle
    some { s with
      cursor := s.cursor + 1#20
      tone := tone
      inc := s.toneIncrement tone
      budget := BitVec.ofNat 16 s.cfg.spb }

/-- Steps 2 to 4 of the TICK (R192, R195): advance the phase, look the sample up, pre-emphasise it on Mark, put it out,
count it off the budget. -/
def sample (s : State) : State :=
  let s := s.phaseAdvance
  let v := lookup s.cfg s.phaseIndex
  let v := if s.tone = .mark then preemphasise s.cfg v else v
  let s := s.emit (.sampleOut v)
  { s with budget := s.budget - 1#16 }

/-- `end_session()` (R196), in its order: DRAINING while transmit-enable falls and the session is cleared, then IDLE,
ACTIVE last. -/
def endSession (s : State) : State :=
  let s := { s with sstate := .draining }
  let s := { s with txEn := false }.emit (.txEnable false)
  let s := { s with timerEn := false }
  let s := { s with tone := .mark, phase := 0#32, inc := 0#32, budget := 0#16, cursor := 0#20, txlen := 0#20 }
  { s with sstate := .idle, active := false }

end State

/-- `START_TX` (R190): busy, then frame error, then completeness, then the adapter. -/
def execStartTx (s : State) : Host.Outcome State Fault Refusal :=
  if s.sstate ≠ .idle then .next (s.respond .sessionBusy 0#32)
  else if s.ferr ≠ .none then .next (s.respond s.ferr.code 0#32)
  else if s.fstate ≠ .finalized then .next (s.respond .frameNotReady 0#32)
  else
    let drawn := ({ s with txEn := true }.emit (.txEnable true)).drawSettle
    if drawn.1 then .next ((drawn.2.emit .keyDelay).openSession.respond .ok 0#32)
    else .next (({ drawn.2 with txEn := false }.emit (.txEnable false)).respond .configurationTimeout 0#32)

/-- `STOP_TIMER` (R199): TIMER_EN only. -/
def execStopTimer (s : State) : Host.Outcome State Fault Refusal :=
  .next ({ s with timerEn := false }.respond .ok 0#32)

/-- `TICK` (R192, R193): no response (R104). -/
def execTick (s : State) : Host.Outcome State Fault Refusal :=
  if s.sstate ≠ .transmitting then .next s
  else if s.budget = 0#16 then
    if s.cursor = s.txlen then .next s.endSession
    else
      match s.fetchBit? with
      | some t => .next t.sample
      | none => .fault (.noSuchByte (s.cursor.toNat / 8))
  else .next s.sample

end Sys2Proof.Machine
end

