-- ==== Sys2Proof/Machine/System.lean ====
section
/-! DEFINITION. The system commands `RESET`, `READ_REG` and `READ_BUF` (43_system.md R230 to R234). -/

namespace Sys2Proof.Machine

/-- The reset values of 10_state.md R49 in every register except BUF and FAULT (R231, R292). -/
def State.resetRegisters (s : State) : State :=
  { s with
    fstate := .noFrame
    ferr := .none
    crc := crcSeed
    ones := 0#3
    bitlen := 0#20
    outb := 0#8
    sstate := .idle
    active := false
    tone := .mark
    phase := 0#32
    inc := 0#32
    budget := 0#16
    cursor := 0#20
    txlen := 0#20
    txEn := false
    timerEn := false }

/-- `RESET` (R231): `TxEnable(0)` if transmit-enable was up. -/
def execReset (s : State) : Host.Outcome State Fault Refusal :=
  let t := s.resetRegisters
  let t := if s.txEn then t.emit (.txEnable false) else t
  .next (t.respond .ok 0#32)

/-- `READ_REG r` (R233). -/
def execReadReg (reg : Reg) (s : State) : Host.Outcome State Fault Refusal :=
  .next (s.respond .ok (s.regValue reg))

/-- `READ_BUF idx` (R234): a byte of the frame, or a free byte outside the frame's extent. An index outside BUF, which
the decoder refuses (R97), names no byte (R60; log 9). -/
def execReadBuf (idx : BitVec 16) (s : State) : Host.Outcome State Fault Refusal :=
  match s.memRead? idx.toNat with
  | none => .fault (.noSuchByte idx.toNat)
  | some byte =>
    if idx.toNat < s.extent then .next (s.respond .ok (byte.setWidth 32))
    else
      let drawn := s.drawByte
      .next (drawn.2.respond .ok (drawn.1.setWidth 32))

end Sys2Proof.Machine
end

