-- ==== Sys2Proof/Machine/Dispatch.lean ====
section
/-! DEFINITION. One arm for each constructor of Instr: the meaning of a command or event once it is taken. Whether one is
taken at all is `arrival`'s part (Machine/Fetch.lean). -/

namespace Sys2Proof.Machine

def exec (i : Instr) (s : State) : Host.Outcome State Fault Refusal :=
  match i with
  | .reset => Sys2Proof.Machine.execReset s
  | .readReg reg => Sys2Proof.Machine.execReadReg reg s
  | .readBuf idx => Sys2Proof.Machine.execReadBuf idx s
  | .beginFrame => Sys2Proof.Machine.execBeginFrame s
  | .writeFlags n => Sys2Proof.Machine.execWriteFlags n s
  | .writeAddressChain chain => Sys2Proof.Machine.execWriteAddressChain chain s
  | .writeControlAndPid => Sys2Proof.Machine.execWriteControlAndPid s
  | .writePayload bytes => Sys2Proof.Machine.execWritePayload bytes s
  | .writeFcsAndTrailer => Sys2Proof.Machine.execWriteFcsAndTrailer s
  | .startTx => Sys2Proof.Machine.execStartTx s
  | .stopTimer => Sys2Proof.Machine.execStopTimer s
  | .tableLookup k => Sys2Proof.Machine.execTableLookup k s
  | .tick => Sys2Proof.Machine.execTick s

end Sys2Proof.Machine
end

