-- ==== Sys2Proof/Machine/Fetch.lean ====
section
/-! DEFINITION. What the block takes next: a command of the host's stream (30_encoding.md R80), a TICK (60_exceptions.md
R258), or nothing. -/

namespace Sys2Proof.Machine

/-- What arrives at the block: a command or a TICK to run in the state after it was taken, a step that runs none, a
fault or a refusal. -/
inductive Arrival where
  | run (i : Instr) (s : State)
  | pass (s : State)
  | stop (why : Fault)
  | refuse (why : Refusal)
deriving DecidableEq, Repr

namespace State

/-- The host's turn: the first command of its stream is decoded and taken (R80). A refused command is answered
`Resp(ILLEGAL, 0)` and has no effect (R96); an incomplete one waits (R95; log 2). -/
def hostTurn (s : State) : Arrival :=
  match decode s.cfg.maxFrameBytes s.stream with
  | .cmd i rest => .run i { s with stream := rest }
  | .refused _ rest => .pass ({ s with stream := rest }.respond .illegal 0#32)
  | .incomplete => .pass s

/-- The timer's turn: a TICK while TIMER_EN = 1, none while it is 0 (R258). -/
def timerTurn (s : State) : Arrival := if s.timerEn then .run .tick s else .pass s

/-- The block's next move. A set FAULT ends the run (R255); an illegal configuration has no meaning (00_scope.md R8);
else the agent whose turn it is moves, the host when `turns` says nothing (20_memory.md R74; log 2). -/
def arrival (s : State) : Arrival :=
  match s.fault with
  | some reason => .stop (.stopped reason)
  | none =>
    if s.cfg.legal then
      match s.turns with
      | [] => s.hostTurn
      | .host :: rest => { s with turns := rest }.hostTurn
      | .timer :: rest => { s with turns := rest }.timerTurn
    else .refuse .illegalConfig

/-- The state whose next arrival is the command of a table word: its bytes stand first in the stream and the host moves
next. The row without bits is the TICK: the timer moves next, with TIMER_EN = 1, without which none is delivered
(log 3). -/
def placeWord (s : State) (nbits w : Nat) : State :=
  if nbits = 0 then { s with turns := .timer :: s.turns, timerEn := true }
  else { s with turns := .host :: s.turns, stream := tableBytes nbits w ++ s.stream }

end State
end Sys2Proof.Machine
end

