-- ==== Sys2Proof/Machine/Step.lean ====
section
/-! DEFINITION. One step of the block: one command or one TICK, whole (00_scope.md R14, 20_memory.md R74). -/

namespace Sys2Proof.Machine

/-- One step. -/
def step (s : State) : Host.Outcome State Fault Refusal :=
  match s.arrival with
  | .run i t => exec i t
  | .pass t => .next t
  | .stop why => .fault why
  | .refuse why => .refused why

/-- `s` with a table word placed where the next step takes its command. -/
def State.withFetchWord (s : State) (nbits w : Nat) : State := s.placeWord nbits w

end Sys2Proof.Machine
end

