-- ==== Sys2Proof/Safety.lean ====
section
/-! DEFINITION. The terms claims are stated in: the invariant between steps (10_state.md R46), the reset values (R49), the
frame as its bits (20_memory.md R61 to R63), stuffing on lists of bits (40_frame_builder.md R121, R151), and runs of
commands and TICKs. -/

namespace Sys2Proof

/-! ## Kinds of commands -/

/-- The five write commands (R127). -/
def Instr.isFrameWrite : Instr → Bool
  | .writeFlags _ => true
  | .writeAddressChain _ => true
  | .writeControlAndPid => true
  | .writePayload _ => true
  | .writeFcsAndTrailer => true
  | .reset => false
  | .readReg _ => false
  | .readBuf _ => false
  | .beginFrame => false
  | .startTx => false
  | .stopTimer => false
  | .tableLookup _ => false
  | .tick => false

/-- The six Frame Builder commands (R75). -/
def Instr.isFrameCommand (i : Instr) : Bool := i == .beginFrame || i.isFrameWrite

/-- The commands that return a value (R104). -/
def Instr.returnsValue : Instr → Bool
  | .readReg _ => true
  | .readBuf _ => true
  | .tableLookup _ => true
  | .reset => false
  | .beginFrame => false
  | .writeFlags _ => false
  | .writeAddressChain _ => false
  | .writeControlAndPid => false
  | .writePayload _ => false
  | .writeFcsAndTrailer => false
  | .startTx => false
  | .stopTimer => false
  | .tick => false

end Sys2Proof

namespace Sys2Proof.Machine

/-! ## Reset values and the invariant -/

/-- The values of the table of R49, but for BUF and FAULT. -/
structure ResetValues (t : State) : Prop where
  fstate : t.fstate = .noFrame
  ferr : t.ferr = .none
  crc : t.crc = 0xFFFF#16
  ones : t.ones = 0#3
  bitlen : t.bitlen = 0#20
  outb : t.outb = 0#8
  sstate : t.sstate = .idle
  active : t.active = false
  tone : t.tone = .mark
  phase : t.phase = 0#32
  inc : t.inc = 0#32
  budget : t.budget = 0#16
  cursor : t.cursor = 0#20
  txlen : t.txlen = 0#20
  txEn : t.txEn = false
  timerEn : t.timerEn = false

/-- BUF is in its canonical form and lists no byte outside it (R60, R64). -/
structure MemoryInv (s : State) : Prop where
  wf : s.buf.wf
  inside : ∀ c ∈ s.buf, c.1 < s.cfg.maxFrameBytes

/-- R46 items 1 and 2. The low 8 − (BITLEN mod 8) bits of OUTB are zero, all eight when BITLEN mod 8 = 0. -/
structure FrameInv (s : State) : Prop where
  ones : s.ones.toNat ≤ 4
  bitlen : s.bitlen.toNat ≤ s.cfg.capBits
  pad : s.outb.toNat % 2 ^ (8 - s.bitlen.toNat % 8) = 0
  noFrame : s.fstate = .noFrame → s.bitlen = 0#20 ∧ s.ferr = .none ∧ s.crc = 0xFFFF#16 ∧ s.ones = 0#3

/-- R46 item 4: the session fields of an idle block. -/
structure IdleValues (s : State) : Prop where
  tone : s.tone = .mark
  phase : s.phase = 0#32
  inc : s.inc = 0#32
  budget : s.budget = 0#16
  cursor : s.cursor = 0#20
  txlen : s.txlen = 0#20
  timerEn : s.timerEn = false
  txEn : s.txEn = false

/-- The configured increment of a tone (R177). -/
def incOf (c : Config) : Tone → Nat
  | .mark => c.incMark
  | .space => c.incSpace

/-- R46 item 5: a session in flight. -/
structure SessionValues (s : State) : Prop where
  txEn : s.txEn = true
  fstate : s.fstate = .finalized
  ferr : s.ferr = .none
  txlen : s.txlen = s.bitlen
  cursor : s.cursor.toNat ≤ s.txlen.toNat
  budget : s.budget.toNat ≤ s.cfg.spb
  phase : s.phase.toNat < s.cfg.phaseMod
  inc : s.inc.toNat = incOf s.cfg s.tone

/-- R46 items 3 to 5. -/
structure SessionInv (s : State) : Prop where
  sstate : s.sstate = .idle ∨ s.sstate = .transmitting
  active : s.active = true ↔ s.sstate = .transmitting
  idle : s.sstate = .idle → IdleValues s
  transmitting : s.sstate = .transmitting → SessionValues s

/-- What holds between any two steps: a legal configuration (00_scope.md R8) and R46. -/
structure State.Inv (s : State) : Prop where
  legal : s.cfg.legal = true
  mem : MemoryInv s
  frame : FrameInv s
  session : SessionInv s

/-! ## The frame as its bits -/

/-- Frame bit `k` (R61): in BUF within the frame's extent, else still in OUTB (R27, R63). -/
def State.frameBit (s : State) (k : Nat) : Bool :=
  if k / 8 < s.extent then (s.buf.read (k / 8)).getMsbD (k % 8) else s.outb.getMsbD (k % 8)

/-- The frame's bits in emission order (R61, R66). -/
def State.frameBits (s : State) : List Bool := (List.range s.bitlen.toNat).map s.frameBit

/-- The bits of a list of bytes in emission order (R67). -/
def bytesBits (bytes : List Byte) : List Bool := bytes.flatMap byteBits

/-- The bits of `n` flag octets (R125). -/
def flagsBits (n : Nat) : List Bool :=
  (List.replicate n [false, true, true, true, true, true, true, false]).flatten

/-- The bits of each write command that are subject to stuffing (R124); the FCS is that of the state it starts in. -/
def State.contentOf (s : State) : Instr → List Bool
  | .writeAddressChain chain => bytesBits (chainBytes chain)
  | .writeControlAndPid => bytesBits [0x03#8, 0xF0#8]
  | .writePayload bytes => bytesBits bytes
  | .writeFcsAndTrailer => bytesBits (fcsBytes s.crc)
  | .writeFlags _ => []
  | .reset => []
  | .readReg _ => []
  | .readBuf _ => []
  | .beginFrame => []
  | .startTx => []
  | .stopTimer => []
  | .tableLookup _ => []
  | .tick => []

/-- The flag bits of each write command, which follow its content and are not subject to stuffing (R124). -/
def State.flagsOf (s : State) : Instr → List Bool
  | .writeFlags n => flagsBits n.toNat
  | .writeFcsAndTrailer => flagsBits s.cfg.flagCount
  | .writeAddressChain _ => []
  | .writeControlAndPid => []
  | .writePayload _ => []
  | .reset => []
  | .readReg _ => []
  | .readBuf _ => []
  | .beginFrame => []
  | .startTx => []
  | .stopTimer => []
  | .tableLookup _ => []
  | .tick => []

/-! ## Stuffing on lists of bits -/

/-- Content bits with a 0 after each fifth 1 in a row, `n` ones already counted (R121). -/
def stuffFrom : Nat → List Bool → List Bool
  | _, [] => []
  | _, false :: bits => false :: stuffFrom 0 bits
  | n, true :: bits => if n = 4 then true :: false :: stuffFrom 0 bits else true :: stuffFrom (n + 1) bits

/-- The count of ones after content bits, `n` ones already counted (R25). -/
def onesAfter : Nat → List Bool → Nat
  | n, [] => n
  | _, false :: bits => onesAfter 0 bits
  | n, true :: bits => if n = 4 then onesAfter 0 bits else onesAfter (n + 1) bits

/-- The content bits that are packed before the buffer is full, `room` bits being free and `n` ones counted: a bit takes
one place, the fifth one in a row a second one for its stuffed bit, and a bit that finds no place enters neither CRC nor
ONES (R120). -/
def fitting : Nat → Nat → List Bool → List Bool
  | _, _, [] => []
  | 0, _, _ :: _ => []
  | room + 1, _, false :: bits => false :: fitting room 0 bits
  | room + 1, n, true :: bits => if n = 4 then true :: fitting (room - 1) 0 bits else true :: fitting room (n + 1) bits

/-- Removes the bit after each run of five ones (R151), `n` ones already counted; at 5 the next bit is the stuffed one. -/
def destuffFrom : Nat → List Bool → List Bool
  | _, [] => []
  | n, b :: bits =>
    if n = 5 then destuffFrom 0 bits else b :: destuffFrom (if b then n + 1 else 0) bits

/-- A Frame Builder command has appended `bits` to the frame of `s`, as far as the capacity goes (R120): FERR says
whether all of them fit. -/
structure AppendsBits (s t : State) (bits : List Bool) : Prop where
  frame : t.frameBits = (s.frameBits ++ bits).take s.cfg.capBits
  ferr : t.ferr = if s.bitlen.toNat + bits.length ≤ s.cfg.capBits then .none else .overflow

/-- Of the content bits a command would append to the frame of `s`, those that fit (R120). -/
def State.fitting (s : State) (content : List Bool) : List Bool :=
  Machine.fitting (s.cfg.capBits - s.bitlen.toNat) s.ones.toNat content

/-- A Frame Builder command has appended content bits to the frame of `s`, stuffed, as far as the capacity goes, and has
folded those that fit into CRC and counted them in ONES, also when it overflowed; without an overflow they all fit (R120,
R121, R124). -/
structure AppendsContent (s t : State) (content : List Bool) : Prop where
  appends : AppendsBits s t (stuffFrom s.ones.toNat content)
  crc : t.crc = (s.fitting content).foldl crcStep s.crc
  ones : t.ones.toNat = onesAfter s.ones.toNat (s.fitting content)
  whole : t.ferr = .none → s.fitting content = content

/-- A Frame Builder write may run: no session, an open frame, no error so far (R127, R120). -/
structure State.Writable (s : State) : Prop where
  sstate : s.sstate ≠ .transmitting
  fstate : s.fstate = .opened
  ferr : s.ferr = .none

/-- The state with the Frame Builder's registers, BUF and the trace of another: what a Frame Builder command that
completes may change (R153). -/
def State.withFrameOf (s t : State) : State :=
  { s with
    fstate := t.fstate, ferr := t.ferr, crc := t.crc, ones := t.ones, bitlen := t.bitlen, outb := t.outb, buf := t.buf
    trace := t.trace }

/-! ## Runs -/

/-- The commands of a list, one after another, to the first stop. -/
def execAll : List Instr → State → Host.Outcome State Fault Refusal
  | [], s => .next s
  | i :: is, s =>
    match exec i s with
    | .next t => execAll is t
    | .fault why => .fault why
    | .refused why => .refused why

/-- `n` TICKs with no command between them (30_encoding.md R102). -/
def ticks (n : Nat) (s : State) : Host.Outcome State Fault Refusal := execAll (List.replicate n .tick) s

/-- The bytes of address record lists as the stream holds them (30_encoding.md R81). -/
def recordBytes (rec : RawRecord) : List Byte := BitVec.ofNat 8 rec.1.length :: (rec.1 ++ [rec.2])

end Sys2Proof.Machine
end

