-- ==== Sys2Proof/Certificates/Slice0/Obligations.lean ====
section
/-! DEFINITION. The statements for the provers, each with the rule of spec/ it formalises. -/

open Sys2Proof Sys2Proof.Machine Host.Outcome

/-! ## Reset, the step, the invariant -/

/-- R49: power-on reset and the RESET command install the values of the table; FAULT is none at power-on and not changed
by RESET. BUF's row gives no value. -/
def Obligations.PowerOnAndResetInstallTheTable : Prop :=
  ResetValues State.reset ∧ State.reset.fault = none ∧
  ∀ s : State, ∃ t, exec .reset s = next t ∧ ResetValues t ∧ t.fault = s.fault

/-- The power-on state meets the invariant of R46 (an inference the spec marks as its own); its configuration is the
model's choice (log 1). -/
def Obligations.ResetStateMeetsInvariant : Prop := State.reset.Inv

/-- The invariant of R46 (an inference the spec marks as its own), with the canonical form of BUF, is kept by every step
from every state that meets it. -/
def Obligations.StepKeepsInvariant : Prop := ∀ s t : State, s.Inv → step s = next t → t.Inv

/-- R80: on the host's turn, when the stream begins with a command, the step is that command's meaning, the turn and the
command's bytes taken. The form of turns and stream is the model's (log 2). -/
def Obligations.StepRunsTheDecodedCommand : Prop :=
  ∀ (s : State) (i : Instr) (rest : List Byte) (later : List Agent),
    s.fault = none → s.cfg.legal = true → decode s.cfg.maxFrameBytes s.stream = .cmd i rest →
    (s.turns = .host :: later → step s = exec i { s with turns := later, stream := rest }) ∧
    (s.turns = [] → step s = exec i { s with stream := rest })

/-- R258: on the timer's turn a TICK runs while TIMER_EN = 1, and nothing happens while it is 0. The form of turns is the
model's (log 2). -/
def Obligations.TimerTurnTicksWhileEnabled : Prop :=
  ∀ (s : State) (later : List Agent),
    s.fault = none → s.cfg.legal = true → s.turns = .timer :: later →
    (s.timerEn = true → step s = exec .tick { s with turns := later }) ∧
    (s.timerEn = false → step s = next { s with turns := later })

/-- R96, R95: on the host's turn refused bytes are answered Resp(ILLEGAL, 0) and change nothing else, and an incomplete
command waits. The form of turns and stream, an empty turn list meaning the host, is the model's (log 2). -/
def Obligations.RefusedAndIncompleteBytesChangeNothing : Prop :=
  ∀ s : State, s.fault = none → s.cfg.legal = true →
    (∀ why rest, decode s.cfg.maxFrameBytes s.stream = .refused why rest →
      (∀ later, s.turns = .host :: later →
        step s = next { s with turns := later, stream := rest, trace := s.trace ++ [.resp .illegal 0#32] }) ∧
      (s.turns = [] → step s = next { s with stream := rest, trace := s.trace ++ [.resp .illegal 0#32] })) ∧
    (decode s.cfg.maxFrameBytes s.stream = .incomplete →
      (∀ later, s.turns = .host :: later → step s = next { s with turns := later }) ∧
      (s.turns = [] → step s = next s))

/-- R255: the two reasons, when each is raised and what it changes; FAULT keeps its first reason; no step follows. -/
def Obligations.ModelFaultsComeFromTheGuards : Prop :=
  (∀ (i : Instr) (s : State), i.isFrameCommand = true → s.sstate = .transmitting → s.fault = none →
    exec i s = next { s with fault := some .bufferRace }) ∧
  (∀ (i : Instr) (s : State), i.isFrameWrite = true → s.sstate ≠ .transmitting → s.fstate ≠ .opened → s.fault = none →
    exec i s = next { s with fault := some .sequenceViolation }) ∧
  (∀ (i : Instr) (s t : State), exec i s = next t → t.fault ≠ s.fault →
    s.fault = none ∧
    ((t.fault = some .bufferRace ∧ i.isFrameCommand = true ∧ s.sstate = .transmitting) ∨
     (t.fault = some .sequenceViolation ∧ i.isFrameWrite = true ∧ s.sstate ≠ .transmitting ∧ s.fstate ≠ .opened))) ∧
  (∀ (s : State) (reason : ModelFault), s.fault = some reason → step s = fault (.stopped reason))

/-- R127, R126: the guards of a Frame Builder command are checked in their order and before anything changes, `BEGIN_FRAME`
having the first only; a command whose guards pass completes and answers code(FERR), FERR read at its end. -/
def Obligations.GuardsThenCodeOfFerr : Prop :=
  ∀ (i : Instr) (s : State), s.Inv → s.fault = none → i.isFrameCommand = true →
    (s.sstate = .transmitting → exec i s = next { s with fault := some .bufferRace }) ∧
    (s.sstate ≠ .transmitting → i.isFrameWrite = true → s.fstate ≠ .opened →
      exec i s = next { s with fault := some .sequenceViolation }) ∧
    (s.sstate ≠ .transmitting → (i.isFrameWrite = true → s.fstate = .opened) →
      ∃ t, exec i s = next t ∧ t.fault = none ∧ t.trace = s.trace ++
        [.resp (match t.ferr with | .none => .ok | .overflow => .frameOverflow | .invalidChain => .invalidAddressChain)
          0#32])

/-- R8, R6: a step is refused exactly when the configuration is outside the ranges of R6, here written out. That the
refusal stands at the step is the model's (log 10), and so are the three forms of PREEMPH (log 12). -/
def Obligations.IllegalConfigurationIsRefused : Prop :=
  ∀ s : State, s.fault = none →
    let c := s.cfg
    let maxv := 2 ^ c.r - 1
    let phaseMod := 4 * c.q * 2 ^ c.f
    (step s = refused .illegalConfig ↔ ¬(
      (1 ≤ c.maxFrameBytes ∧ c.maxFrameBytes ≤ 65536) ∧ (1 ≤ c.flagCount ∧ c.flagCount ≤ 255) ∧
      (1 ≤ c.q ∧ c.q ≤ 65536) ∧ (1 ≤ c.r ∧ c.r ≤ 16) ∧ (c.qtable.length = c.q ∧ ∀ v ∈ c.qtable, v ≤ maxv) ∧
      (c.f ≤ 16 ∧ phaseMod ≤ 2 ^ 32) ∧ (1 ≤ c.spb ∧ c.spb ≤ 65535) ∧
      (c.incMark < phaseMod ∧ c.incSpace < phaseMod) ∧
      (match c.preemph with
        | .ratio num den => num < den ∧ den ≤ 65535
        | .midScale num den => num < den ∧ den ≤ 65535
        | .codes values => values.length = maxv + 1 ∧ ∀ v ∈ values, v ≤ maxv) ∧
      c.fs = c.spb * c.bitRate))

/-! ## Encoding -/

/-- R100: decode and encode are inverse, in both directions, for every command but TICK. -/
def Obligations.DecodeAndEncodeAreInverse : Prop :=
  (∀ (m : Nat) (i : Instr) (rest : List Byte), i.wellFormed m = true → i ≠ .tick →
    decode m (encode i ++ rest) = .cmd i rest) ∧
  (∀ (m : Nat) (bytes rest : List Byte) (i : Instr), decode m bytes = .cmd i rest →
    bytes = encode i ++ rest ∧ i.wellFormed m = true ∧ i ≠ .tick)

/-- R94, R95, R96: a stream shorter than its first command's length is incomplete; any other is a command or a refusal
that takes exactly that length. -/
def Obligations.DecoderTakesExactlyTheCommandLength : Prop :=
  ∀ (m : Nat) (bytes : List Byte),
    (bytes.length < commandLength bytes ∧ decode m bytes = .incomplete) ∨
    (commandLength bytes ≤ bytes.length ∧
      ((∃ i, decode m bytes = .cmd i (bytes.drop (commandLength bytes))) ∨
       (∃ why, decode m bytes = .refused why (bytes.drop (commandLength bytes)))))

/-- R97: each of the six illegal encodings is refused, under the name of its stage (R96), and no other encoding is. -/
def Obligations.IllegalEncodingsAreExactlyTheRefused : Prop :=
  (∀ (m : Nat) (op : Byte) (bytes : List Byte),
    op ∉ ([0x01, 0x02, 0x03, 0x10, 0x11, 0x12, 0x13, 0x14, 0x15, 0x20, 0x21, 0x30] : List Byte) →
    decode m (op :: bytes) = .refused .opcode bytes) ∧
  (∀ (m : Nat) (r : Byte) (bytes : List Byte), 9 ≤ r.toNat → decode m (0x02 :: r :: bytes) = .refused .register bytes) ∧
  (∀ (m : Nat) (hi lo : Byte) (bytes : List Byte), m ≤ 256 * hi.toNat + lo.toNat →
    decode m (0x03 :: hi :: lo :: bytes) = .refused .index bytes) ∧
  (∀ (m : Nat) (bytes : List Byte), decode m (0x11 :: 0x00 :: bytes) = .refused .zeroFlags bytes) ∧
  (∀ (m : Nat) (recs : List RawRecord) (bytes : List Byte),
    recs.length ≤ 255 → (∀ rec ∈ recs, rec.1.length ≤ 255) →
    (∃ rec ∈ recs, (∃ ch ∈ rec.1, ch.toNat < 0x20 ∨ 0x7E < ch.toNat) ∨ rec.2.toNat / 16 % 8 ≠ 0) →
    ∃ why, why.stage = .record ∧
      decode m (0x12 :: BitVec.ofNat 8 recs.length :: (recs.flatMap recordBytes ++ bytes)) = .refused why bytes) ∧
  (∀ (m : Nat) (bytes rest : List Byte) (why : RefuseReason), decode m bytes = .refused why rest →
    match why with
    | .opcode => ∃ op, bytes = op :: rest ∧
        op ∉ ([0x01, 0x02, 0x03, 0x10, 0x11, 0x12, 0x13, 0x14, 0x15, 0x20, 0x21, 0x30] : List Byte)
    | .register => ∃ r : Byte, bytes = 0x02 :: r :: rest ∧ 9 ≤ r.toNat
    | .index => ∃ hi lo : Byte, bytes = 0x03 :: hi :: lo :: rest ∧ m ≤ 256 * hi.toNat + lo.toNat
    | .zeroFlags => bytes = 0x11 :: 0x00 :: rest
    | .callsignByte => ∃ recs : List RawRecord, recs.length ≤ 255 ∧
        bytes = 0x12 :: BitVec.ofNat 8 recs.length :: (recs.flatMap recordBytes ++ rest) ∧
        ∃ rec ∈ recs, ∃ ch ∈ rec.1, ch.toNat < 0x20 ∨ 0x7E < ch.toNat
    | .ssidBits => ∃ recs : List RawRecord, recs.length ≤ 255 ∧
        bytes = 0x12 :: BitVec.ofNat 8 recs.length :: (recs.flatMap recordBytes ++ rest) ∧
        ∃ rec ∈ recs, rec.2.toNat / 16 % 8 ≠ 0)

/-- The worked encodings of R103 (an inference the spec marks as its own) and a word of every other opcode, written out
from the formats of R81 and the opcodes of R83. -/
def Obligations.WrittenOutWordsDecode : Prop :=
  decode 330 [0x11, 0x02] = .cmd (.writeFlags 2) [] ∧
  decode 330 [0x12, 0x02, 0x05, 0x43, 0x41, 0x4C, 0x4C, 0x31, 0x00, 0x05, 0x43, 0x41, 0x4C, 0x4C, 0x32, 0x87] =
    .cmd (.writeAddressChain
      [{ callsign := [0x43, 0x41, 0x4C, 0x4C, 0x31], ssid := 0, last := false },
       { callsign := [0x43, 0x41, 0x4C, 0x4C, 0x32], ssid := 7, last := true }]) [] ∧
  decode 330 [0x14, 0x00, 0x04, 0x54, 0x45, 0x53, 0x54] = .cmd (.writePayload [0x54, 0x45, 0x53, 0x54]) [] ∧
  decode 330 [0x03, 0x01, 0x2C] = .cmd (.readBuf 300) [] ∧
  decode 330 [0x30, 0x00, 0x00, 0x00, 0x05] = .cmd (.tableLookup 5) [] ∧
  decode 330 [0x11, 0x00] = .refused .zeroFlags [] ∧
  decode 330 [0x02, 0x04, 0x20, 0x21] = .cmd (.readReg .phase) [0x20, 0x21] ∧
  decode 330 [0x20, 0x21] = .cmd .startTx [0x21] ∧
  decode 330 [0x21] = .cmd .stopTimer [] ∧
  decode 330 [0x01] = .cmd .reset [] ∧
  decode 330 [0x10] = .cmd .beginFrame [] ∧
  decode 330 [0x13] = .cmd .writeControlAndPid [] ∧
  decode 330 [0x15] = .cmd .writeFcsAndTrailer []

/-! ## System commands -/

/-- R231: RESET, with what it keeps and the event it emits. That the response stands after the event is log 11. -/
def Obligations.ResetCommandTakesFrameAndSessionBack : Prop :=
  ∀ s : State, exec .reset s = next
    { s with
      fstate := .noFrame, ferr := .none, crc := 0xFFFF#16, ones := 0#3, bitlen := 0#20, outb := 0#8
      sstate := .idle, active := false, tone := .mark, phase := 0#32, inc := 0#32, budget := 0#16, cursor := 0#20
      txlen := 0#20, txEn := false, timerEn := false
      trace := s.trace ++ ((if s.txEn then [.txEnable false] else []) ++ [.resp .ok 0#32]) }

/-- R233: READ_REG returns the register under its number of R41, zero-extended, and changes nothing; 9 .. 255 are refused;
between steps SSTATE never reads DRAINING and ONES never reads 5. -/
def Obligations.ReadRegReturnsTheRegister : Prop :=
  (∀ (s : State) (m : Nat) (bytes : List Byte),
    (∀ g v,
      (g, v) ∈ ([(.status, s.statusWord), (.bitlen, s.bitlen.setWidth 32), (.crc, s.crc.setWidth 32),
        (.outb, s.outb.setWidth 32), (.phase, s.phase), (.inc, s.inc), (.budget, s.budget.setWidth 32),
        (.cursor, s.cursor.setWidth 32), (.txlen, s.txlen.setWidth 32)] : List (Reg × BitVec 32)) →
      exec (.readReg g) s = next { s with trace := s.trace ++ [.resp .ok v] }) ∧
    (∀ (n : Nat) (g : Reg),
      ([.status, .bitlen, .crc, .outb, .phase, .inc, .budget, .cursor, .txlen] : List Reg)[n]? = some g →
      decode m (0x02 :: BitVec.ofNat 8 n :: bytes) = .cmd (.readReg g) bytes) ∧
    (∀ r : Byte, 9 ≤ r.toNat → decode m (0x02 :: r :: bytes) = .refused .register bytes)) ∧
  (∀ s : State, s.Inv → s.statusWord.extractLsb' 4 2 ≠ 2#2 ∧ s.statusWord.extractLsb' 10 3 ≤ 4#3)

/-- R42: the status word, field by field, bits 31:13 zero; SSTATE reads 0 or 1 and ONES 0 .. 4 where R46 holds. -/
def Obligations.StatusWordHasItsLayout : Prop :=
  ∀ s : State, s.Inv → ∃ w : BitVec 32,
    exec (.readReg .status) s = next { s with trace := s.trace ++ [.resp .ok w] } ∧
    w.extractLsb' 0 2 = (match s.fstate with | .noFrame => 0#2 | .opened => 1#2 | .finalized => 2#2) ∧
    w.extractLsb' 2 2 = (match s.ferr with | .none => 0#2 | .overflow => 1#2 | .invalidChain => 2#2) ∧
    w.extractLsb' 4 2 = (if s.sstate = .idle then 0#2 else 1#2) ∧
    w.getLsbD 6 = s.active ∧ w.getLsbD 7 = s.txEn ∧ w.getLsbD 8 = s.timerEn ∧
    w.getLsbD 9 = (s.tone == .space) ∧
    w.extractLsb' 10 3 = s.ones ∧ s.ones.toNat ≤ 4 ∧
    w.extractLsb' 13 19 = 0#19

/-- R234: READ_BUF returns the byte of BUF inside the frame's extent and a drawn byte outside it; an index outside BUF is
refused by the decoder. The counter of draws is the model's own (log 5). -/
def Obligations.ReadBufReadsTheFrameOrDraws : Prop :=
  ∀ (s : State) (idx : BitVec 16),
    (idx.toNat < s.cfg.maxFrameBytes →
      (s.fstate = .opened ∧ idx.toNat < s.bitlen.toNat / 8 ∨
        s.fstate = .finalized ∧ idx.toNat < (s.bitlen.toNat + 7) / 8 →
        exec (.readBuf idx) s =
          next { s with trace := s.trace ++ [.resp .ok ((s.buf.read idx.toNat).setWidth 32)] }) ∧
      (s.fstate = .noFrame ∨ s.fstate = .opened ∧ s.bitlen.toNat / 8 ≤ idx.toNat ∨
        s.fstate = .finalized ∧ (s.bitlen.toNat + 7) / 8 ≤ idx.toNat →
        ∃ d : Byte, exec (.readBuf idx) s =
          next { s with draws := s.draws + 1, trace := s.trace ++ [.resp .ok (d.setWidth 32)] })) ∧
    (s.cfg.maxFrameBytes ≤ idx.toNat → ∀ bytes,
      decode s.cfg.maxFrameBytes (encode (.readBuf idx) ++ bytes) = .refused .index bytes)

/-! ## Frame Builder -/

/-- R140: BEGIN_FRAME in every state without a session, whatever FSTATE and FERR are; BUF is unchanged. During a session
it is the fault BufferRace. -/
def Obligations.BeginFrameStartsANewFrame : Prop :=
  ∀ s : State,
    (s.sstate ≠ .transmitting → exec .beginFrame s = next
      { s with
        crc := 0xFFFF#16, ones := 0#3, bitlen := 0#20, outb := 0#8, ferr := .none, fstate := .opened
        trace := s.trace ++ [.resp .ok 0#32] }) ∧
    (s.sstate = .transmitting → s.fault = none → exec .beginFrame s = next { s with fault := some .bufferRace })

/-- R122: crc_step, on numbers. -/
def Obligations.CrcStepFollowsItsRule : Prop :=
  ∀ (c : BitVec 16) (b : Bool),
    (crcStep c b).toNat = if c.toNat % 2 = b.toNat then c.toNat / 2 else (c.toNat / 2) ^^^ 0x8408

/-- R120: emit_bit is the recursive procedure of the rule's pseudocode, in every state whose BITLEN is legal (R26); the
model's flattened definition (R121) agrees with it. -/
def Obligations.EmitBitFollowsThePseudocode : Prop :=
  ∀ (s : State) (v subject : Bool), s.bitlen.toNat ≤ s.cfg.capBits →
    s.emitBit v subject =
      if s.ferr ≠ .none then s
      else if s.bitlen.toNat = s.cfg.capBits then { s with ferr := .overflow }
      else
        let a := if subject then { s with crc := crcStep s.crc v } else s
        let b := { a with
          outb := BitVec.ofNat 8 (a.outb.toNat &&& (255 - 2 ^ (7 - a.bitlen.toNat % 8)) |||
            v.toNat * 2 ^ (7 - a.bitlen.toNat % 8)) }
        let c := { b with bitlen := b.bitlen + 1#20 }
        let d :=
          if c.bitlen.toNat % 8 = 0 then
            { c with buf := c.buf.write (c.bitlen.toNat / 8 - 1) c.outb, outb := 0#8 }
          else c
        if v then
          if subject then
            let e := { d with ones := d.ones + 1#3 }
            if e.ones = 5#3 then { e.emitBit false false with ones := 0#3 } else e
          else d
        else { d with ones := 0#3 }

/-- R141, R125: WRITE_FLAGS appends n flag octets, unstuffed, as far as the capacity goes; CRC is unchanged, and ONES is 0
unless the buffer had no room for a single flag bit. -/
def Obligations.WriteFlagsAppendsFlagOctets : Prop :=
  ∀ (s : State) (n : Byte), s.Inv → s.Writable → n ≠ 0#8 →
    ∃ t, exec (.writeFlags n) s = next t ∧ AppendsBits s t (flagsBits n.toNat) ∧
      t.crc = s.crc ∧ t.ones = (if s.bitlen.toNat < s.cfg.capBits then 0#3 else s.ones) ∧
      (t.ferr = .none → t.ones = 0#3) ∧
      t = { s.withFrameOf t with fstate := .opened, trace := s.trace ++ [.resp t.ferr.code 0#32] }

/-- R142, R143: a chain whose `last` flags mark exactly its final address appends, for each address, its first six
characters, padded with spaces and shifted left by one, then `('0' + ssid) << 1` with bit 0 set on the final address
only: stuffed content, as far as the capacity goes, CRC and ONES taking the content bits that fit. -/
def Obligations.WriteAddressChainAppendsTheAddresses : Prop :=
  ∀ (s : State) (chain : List Address), s.Inv → s.Writable → chain ≠ [] →
    (∀ (i : Nat) (a : Address), chain[i]? = some a → (a.last = true ↔ i + 1 = chain.length)) →
    ∃ t, exec (.writeAddressChain chain) s = next t ∧
      AppendsContent s t (bytesBits ((List.range chain.length).flatMap fun i =>
        let a := chain.getD i ⟨[], 0#4, false⟩
        ((List.range 6).map fun j => BitVec.ofNat 8 (2 * (a.callsign.getD j 0x20#8).toNat)) ++
          [BitVec.ofNat 8 (2 * (0x30 + a.ssid.toNat) + if i + 1 = chain.length then 1 else 0)])) ∧
      t = { s.withFrameOf t with fstate := .opened, trace := s.trace ++ [.resp t.ferr.code 0#32] }

/-- R142: the empty chain, and a chain whose `last` flags do not mark exactly its final address, are answered
InvalidAddressChain before any byte is emitted. -/
def Obligations.BadAddressChainEmitsNothing : Prop :=
  ∀ (s : State) (chain : List Address), s.Writable →
    (chain = [] ∨ ∃ (i : Nat) (a : Address), chain[i]? = some a ∧ ¬(a.last = true ↔ i + 1 = chain.length)) →
    exec (.writeAddressChain chain) s =
      next { s with ferr := .invalidChain, trace := s.trace ++ [.resp .invalidAddressChain 0#32] }

/-- R144: WRITE_CONTROL_AND_PID appends 0x03 and 0xF0, stuffed content, as far as the capacity goes, CRC and ONES taking
the content bits that fit; without an overflow ONES is 4 after it. -/
def Obligations.WriteControlAndPidAppendsTheTwoBytes : Prop :=
  ∀ s : State, s.Inv → s.Writable →
    ∃ t, exec .writeControlAndPid s = next t ∧ AppendsContent s t (bytesBits [0x03#8, 0xF0#8]) ∧
      (t.ferr = .none → t.ones = 4#3) ∧
      t = { s.withFrameOf t with fstate := .opened, trace := s.trace ++ [.resp t.ferr.code 0#32] }

/-- R145: WRITE_PAYLOAD appends the payload verbatim, stuffed content, as far as the capacity goes, CRC and ONES taking the
content bits that fit. -/
def Obligations.WritePayloadAppendsTheBytes : Prop :=
  ∀ (s : State) (bytes : List Byte), s.Inv → s.Writable →
    ∃ t, exec (.writePayload bytes) s = next t ∧ AppendsContent s t (bytesBits bytes) ∧
      t = { s.withFrameOf t with fstate := .opened, trace := s.trace ++ [.resp t.ferr.code 0#32] }

/-- R146, R147, R68, R62: WRITE_FCS_AND_TRAILER appends the ones-complement of the CRC it starts with, low byte first and
stuffed, then FLAG_COUNT flags, as far as the capacity goes; CRC takes the FCS bits that fit, and ONES counts them but is
0 once a flag bit stands after them; a partial last byte stands in BUF with zeros in its low bits, and the frame is
final. -/
def Obligations.WriteFcsAndTrailerCompletesTheFrame : Prop :=
  ∀ s : State, s.Inv → s.Writable →
    let fcs := bytesBits [BitVec.ofNat 8 (65535 - s.crc.toNat), BitVec.ofNat 8 ((65535 - s.crc.toNat) / 256)]
    ∃ t, exec .writeFcsAndTrailer s = next t ∧
      AppendsBits s t (stuffFrom s.ones.toNat fcs ++ flagsBits s.cfg.flagCount) ∧
      t.crc = (s.fitting fcs).foldl crcStep s.crc ∧
      t.ones.toNat =
        (if s.bitlen.toNat + (stuffFrom s.ones.toNat fcs).length < s.cfg.capBits then 0
        else onesAfter s.ones.toNat (s.fitting fcs)) ∧
      (t.ferr = .none → s.fitting fcs = fcs ∧ t.ones = 0#3) ∧
      t.outb = 0#8 ∧
      (t.bitlen.toNat % 8 ≠ 0 → (t.buf.read (t.bitlen.toNat / 8)).toNat % 2 ^ (8 - t.bitlen.toNat % 8) = 0) ∧
      t = { s.withFrameOf t with fstate := .finalized, trace := s.trace ++ [.resp t.ferr.code 0#32] }

/-- R146, corner case: with an error in the frame WRITE_FCS_AND_TRAILER emits nothing, but the partial byte is flushed
and the frame is final. -/
def Obligations.FailedFrameIsFinalizedWithoutEmission : Prop :=
  ∀ s : State, s.Inv → s.sstate ≠ .transmitting → s.fstate = .opened → s.ferr ≠ .none →
    exec .writeFcsAndTrailer s = next
      { s with
        fstate := .finalized, outb := 0#8
        buf := if s.bitlen.toNat % 8 = 0 then s.buf else s.buf.write (s.bitlen.toNat / 8) s.outb
        trace := s.trace ++ [.resp s.ferr.code 0#32] }

/-- R126, R120: after an error, a write command other than WRITE_FCS_AND_TRAILER emits nothing and returns that error
again. -/
def Obligations.WriteAfterAnErrorReturnsItAgain : Prop :=
  ∀ (i : Instr) (s : State), i.isFrameWrite = true → i ≠ .writeFcsAndTrailer → s.sstate ≠ .transmitting →
    s.fstate = .opened → s.ferr ≠ .none →
    exec i s = next { s with trace := s.trace ++
      [.resp (match s.ferr with | .none => .ok | .overflow => .frameOverflow | .invalidChain => .invalidAddressChain)
        0#32] }

/-- R23: FERR is sticky: only BEGIN_FRAME and RESET leave an error, and they leave it to NONE; no other command or TICK
emits a bit while it stands. -/
def Obligations.FrameErrorIsSticky : Prop :=
  ∀ (i : Instr) (s t : State), exec i s = next t → s.ferr ≠ .none →
    (t.ferr = s.ferr ∧ t.bitlen = s.bitlen ∧ t.crc = s.crc ∧ t.ones = s.ones) ∨
    ((i = .beginFrame ∨ i = .reset) ∧ t.ferr = .none)

/-- The frame of the Frame Builder commands (R153): each of the six, when it completes, writes its own registers, one
response, and of BUF only bytes from the one BITLEN pointed into up to the one it points past; a raised fault writes
FAULT alone. -/
def Obligations.FrameBuilderCommandsKeepTheRest : Prop :=
  ∀ (i : Instr) (s t : State), s.Inv → i.isFrameCommand = true → exec i s = next t →
    (t = s.raiseFault .bufferRace ∨ t = s.raiseFault .sequenceViolation) ∨
    (t = s.withFrameOf t ∧ (∃ code, t.trace = s.trace ++ [.resp code 0#32]) ∧
      (i = .beginFrame → t.buf = s.buf) ∧
      ∀ idx : Nat,
        idx < s.bitlen.toNat / 8 ∨ (t.bitlen.toNat + (if i = .writeFcsAndTrailer then 7 else 0)) / 8 ≤ idx →
        t.buf.read idx = s.buf.read idx)

/-- The residue law of R150 (an inference the spec marks as its own): after WRITE_FCS_AND_TRAILER without an overflow CRC
is 0xF0B8, whatever the frame. -/
def Obligations.CrcAfterTheFcsIsTheResidue : Prop :=
  ∀ s t : State, s.Inv → s.Writable → exec .writeFcsAndTrailer s = next t → t.ferr = .none → t.crc = 0xF0B8#16

/-- The stuffing law of R151 (an inference the spec marks as its own), for every write command that fits: it adds to the
frame its content, stuffed, and then its flags; removing the bit after each run of five ones from the stuffed content
gives back every bit subject to stuffing (address chain, control and PID, payload, FCS), and no six ones stand in a row
there, the ones before it counted. -/
def Obligations.StuffingIsUndoneAndBreaksRuns : Prop :=
  ∀ (i : Instr) (s t : State), s.Inv → s.Writable → i.isFrameWrite = true → exec i s = next t → t.ferr = .none →
    ∃ stuffed : List Bool, t.frameBits = s.frameBits ++ stuffed ++ s.flagsOf i ∧
      destuffFrom s.ones.toNat stuffed = s.contentOf i ∧
      ¬ List.replicate 6 true <:+: (List.replicate s.ones.toNat true ++ stuffed)

/-- The frame `BUILD_UI_FRAME` builds (R102; R152 and R150 are inferences the spec marks as its own): from any state
without a session, whatever it holds, the six commands give lead-in flags, the stuffed content with its FCS, trailer
flags, if it all fits; then FERR is NONE and the frame is final. -/
def Obligations.UiFrameIsFlagsStuffedContentFlags : Prop :=
  ∀ (s : State) (n : Byte) (chain : List Address) (payload : List Byte),
    s.Inv → s.sstate ≠ .transmitting → n ≠ 0#8 → chain ≠ [] → lastFlagsOk chain = true →
    let content := bytesBits (chainBytes chain ++ [0x03#8, 0xF0#8] ++ payload)
    let fcs := bytesBits (fcsBytes (content.foldl crcStep 0xFFFF#16))
    let bits := flagsBits n.toNat ++ stuffFrom 0 (content ++ fcs) ++ flagsBits s.cfg.flagCount
    bits.length ≤ s.cfg.capBits →
    ∃ t, execAll
        [.beginFrame, .writeFlags n, .writeAddressChain chain, .writeControlAndPid, .writePayload payload,
          .writeFcsAndTrailer] s = next t ∧
      t.frameBits = bits ∧ t.ferr = .none ∧ t.fstate = .finalized ∧ t.crc = 0xF0B8#16 ∧
      t.trace = s.trace ++ List.replicate 6 (.resp .ok 0#32)

/-! ## Tone Table -/

/-- R171, R172: TABLE_LOOKUP returns the entry of the rebuilt period, in every state, and changes nothing. -/
def Obligations.TableLookupReturnsTheRebuiltPeriod : Prop :=
  ∀ (s : State) (k : BitVec 32), s.cfg.legal = true →
    ∃ v : Nat, exec (.tableLookup k) s = next { s with trace := s.trace ++ [.resp .ok (BitVec.ofNat 32 v)] } ∧
      v ≤ s.cfg.maxv ∧
      (let j := k.toNat % (4 * s.cfg.q)
       (j < s.cfg.q → s.cfg.qtable[j]? = some v) ∧
       (s.cfg.q ≤ j → j < 2 * s.cfg.q → s.cfg.qtable[2 * s.cfg.q - 1 - j]? = some v) ∧
       (2 * s.cfg.q ≤ j → j < 3 * s.cfg.q → ∃ u, s.cfg.qtable[j - 2 * s.cfg.q]? = some u ∧ v = s.cfg.maxv - u) ∧
       (3 * s.cfg.q ≤ j → ∃ u, s.cfg.qtable[4 * s.cfg.q - 1 - j]? = some u ∧ v = s.cfg.maxv - u))

/-- The symmetry laws of R173 (an inference the spec marks as its own), for every legal table. -/
def Obligations.LookupIsSymmetric : Prop :=
  ∀ c : Config, c.legal = true →
    (∀ j, j < 2 * c.q → lookup c j + lookup c (j + 2 * c.q) = c.maxv) ∧
    (∀ j, j < c.q → lookup c (2 * c.q - 1 - j) = lookup c j) ∧
    (∀ k, lookup c (k + c.p) = lookup c k)

/-- R200: the default pre-emphasis is the code times the ratio, rounded down, a sample code and at most the code; the
mid-scale reading is the floor of MID + (v − MID) × num / den with MID = MAXV / 2; a map given as a list of its values
(the model's form, log 12) gives its entry v; every legal map gives sample codes. -/
def Obligations.PreemphasisMapsCodesToCodes : Prop :=
  ∀ (c : Config) (v : Nat), c.legal = true → v ≤ c.maxv →
    preemphasise c v ≤ c.maxv ∧
    (∀ num den, c.preemph = .ratio num den → preemphasise c v = v * num / den ∧ preemphasise c v ≤ v) ∧
    (∀ num den, c.preemph = .midScale num den → (preemphasise c v : Int) =
      ⌊(c.maxv : ℚ) / 2 + ((v : ℚ) - (c.maxv : ℚ) / 2) * num / den⌋) ∧
    (∀ values, c.preemph = .codes values → values[v]? = some (preemphasise c v))

/-! ## Tone Synthesizer -/

/-- R253, R190: the errors of START_TX in the order of its pseudocode, each leaving the block as it was. -/
def Obligations.StartTxReportsTheFirstError : Prop :=
  ∀ s : State,
    (s.sstate ≠ .idle → exec .startTx s = next { s with trace := s.trace ++ [.resp .sessionBusy 0#32] }) ∧
    (s.sstate = .idle → s.ferr = .overflow →
      exec .startTx s = next { s with trace := s.trace ++ [.resp .frameOverflow 0#32] }) ∧
    (s.sstate = .idle → s.ferr = .invalidChain →
      exec .startTx s = next { s with trace := s.trace ++ [.resp .invalidAddressChain 0#32] }) ∧
    (s.sstate = .idle → s.ferr = .none → s.fstate ≠ .finalized →
      exec .startTx s = next { s with trace := s.trace ++ [.resp .frameNotReady 0#32] })

/-- R190, R262: START_TX on a finished frame without an error, by the adapter's answer, which is any: the session fields
and the events, or ConfigurationTimeout with the frame and the session registers as they were. How the answer reaches
the block (`settle`, `draws`) is the model's (log 4); that the response stands after the events is log 11. -/
def Obligations.StartTxOpensASessionIfTheAdapterSettles : Prop :=
  ∀ s : State, s.sstate = .idle → s.ferr = .none → s.fstate = .finalized →
    ∃ (ok : Bool) (left : List Bool) (drawn : Nat),
      (∀ answer later, s.settle = answer :: later → ok = answer ∧ left = later ∧ drawn = s.draws) ∧
      (s.settle = [] → left = [] ∧ drawn = s.draws + 1) ∧
      (ok = true → exec .startTx s = next
        { s with
          txEn := true, tone := .mark, phase := 0#32, inc := BitVec.ofNat 32 s.cfg.incMark, budget := 0#16
          cursor := 0#20, txlen := s.bitlen, sstate := .transmitting, active := true, timerEn := true
          settle := left, draws := drawn
          trace := s.trace ++ [.txEnable true, .keyDelay, .resp .ok 0#32] }) ∧
      (ok = false → exec .startTx s = next
        { s with
          txEn := false, settle := left, draws := drawn
          trace := s.trace ++ [.txEnable true, .txEnable false, .resp .configurationTimeout 0#32] })

/-- R199: STOP_TIMER clears TIMER_EN and nothing else, in every state. -/
def Obligations.StopTimerClearsTimerEnOnly : Prop :=
  ∀ s : State, exec .stopTimer s = next { s with timerEn := false, trace := s.trace ++ [.resp .ok 0#32] }

/-- R193: a TICK without a session is a no-op. -/
def Obligations.TickWhileIdleDoesNothing : Prop :=
  ∀ s : State, s.sstate = .idle → exec .tick s = next s

/-- R192 steps 2 to 4, R195, R176: a TICK inside a bit puts out one sample: the phase advances by the increment modulo the
period, the table is read at the new phase, the sample is pre-emphasised on Mark only, and the budget falls by one. -/
def Obligations.TickInsideABitEmitsOneSample : Prop :=
  ∀ s : State, s.Inv → s.sstate = .transmitting → s.budget ≠ 0#16 →
    ∃ p v : Nat, p = (s.phase.toNat + s.inc.toNat) % s.cfg.phaseMod ∧ v = lookup s.cfg (p / 2 ^ s.cfg.f) ∧
      exec .tick s = next
        { s with
          phase := BitVec.ofNat 32 p, budget := BitVec.ofNat 16 (s.budget.toNat - 1)
          trace := s.trace ++ [.sampleOut (if s.tone = .mark then preemphasise s.cfg v else v)] }

/-- R194: a TICK at a bit boundary with bits left fetches the next frame bit, keeps the tone on a 1 and toggles it on a 0,
takes that tone's increment and a full budget, and then puts out the bit's first sample as R192 says; PHASE is not
reset. -/
def Obligations.TickAtABitBoundaryFetchesTheNextBit : Prop :=
  ∀ s : State, s.Inv → s.sstate = .transmitting → s.budget = 0#16 → s.cursor ≠ s.txlen →
    ∃ (b : Bool) (tone : Tone) (inc p v : Nat),
      s.frameBits[s.cursor.toNat]? = some b ∧
      tone = (if b then s.tone else match s.tone with | .mark => .space | .space => .mark) ∧
      inc = incOf s.cfg tone ∧
      p = (s.phase.toNat + inc) % s.cfg.phaseMod ∧ v = lookup s.cfg (p / 2 ^ s.cfg.f) ∧
      exec .tick s = next
        { s with
          cursor := BitVec.ofNat 20 (s.cursor.toNat + 1), tone := tone, inc := BitVec.ofNat 32 inc
          budget := BitVec.ofNat 16 (s.cfg.spb - 1), phase := BitVec.ofNat 32 p
          trace := s.trace ++ [.sampleOut (if tone = .mark then preemphasise s.cfg v else v)] }

/-- R196: the TICK that finds no bit left ends the session: transmit-enable falls, the timer stops, the session fields are
cleared, and the frame stays as it was. -/
def Obligations.TickAfterTheLastBitEndsTheSession : Prop :=
  ∀ s : State, s.sstate = .transmitting → s.budget = 0#16 → s.cursor = s.txlen →
    exec .tick s = next
      { s with
        txEn := false, timerEn := false, tone := .mark, phase := 0#32, inc := 0#32, budget := 0#16, cursor := 0#20
        txlen := 0#20, sstate := .idle, active := false
        trace := s.trace ++ [.txEnable false] }

/-- The session laws of R198 (an inference the spec marks as its own): a session of L bits just started puts out exactly
one sample a TICK for L × SPB TICKs, keyed and active throughout, and the next TICK ends it. -/
def Obligations.SessionEmitsSpbSamplesPerBitAndEnds : Prop :=
  ∀ s : State, s.Inv → s.sstate = .transmitting → s.budget = 0#16 → s.cursor = 0#20 →
    (∀ n, n ≤ s.txlen.toNat * s.cfg.spb → ∃ (t : State) (samples : List Nat),
      ticks n s = next t ∧ samples.length = n ∧ t.trace = s.trace ++ samples.map .sampleOut ∧
      t.txEn = true ∧ t.active = true ∧ t.frameBits = s.frameBits) ∧
    ∃ (u : State) (samples : List Nat),
      ticks (s.txlen.toNat * s.cfg.spb + 1) s = next u ∧ samples.length = s.txlen.toNat * s.cfg.spb ∧
      u.trace = s.trace ++ samples.map .sampleOut ++ [.txEnable false] ∧
      u.txEn = false ∧ u.active = false ∧ u.timerEn = false ∧ u.sstate = .idle

/-- The tone law of R197 (an inference the spec marks as its own): during frame bit i of a session just started on Mark the
tone is Mark exactly when an even number of 0 bits stand among frame bits 0 .. i. -/
def Obligations.ToneFollowsTheParityOfZeros : Prop :=
  ∀ s : State, s.Inv → s.sstate = .transmitting → s.budget = 0#16 → s.cursor = 0#20 → s.tone = .mark →
    ∀ i j, i < s.txlen.toNat → j < s.cfg.spb → ∃ t,
      ticks (i * s.cfg.spb + j + 1) s = next t ∧ t.cursor.toNat = i + 1 ∧ t.budget.toNat = s.cfg.spb - 1 - j ∧
      t.tone = (if (s.frameBits.take (i + 1)).count false % 2 = 0 then .mark else .space)

/-- Phase continuity, R179 (an inference the spec marks as its own): a TICK that puts out a sample advances PHASE by the
increment then in force, at a bit boundary as inside a bit. -/
def Obligations.EverySampleAdvancesThePhaseByTheIncrement : Prop :=
  ∀ s t : State, s.Inv → exec .tick s = next t → t.trace ≠ s.trace → t.sstate = .transmitting →
    t.phase.toNat = (s.phase.toNat + t.inc.toNat) % s.cfg.phaseMod ∧
    t.inc.toNat = incOf s.cfg t.tone

/-! ## The whole machine -/

/-- R292, R6: no step changes the configuration. -/
def Obligations.NoStepChangesTheConfiguration : Prop :=
  ∀ s t : State, step s = next t → t.cfg = s.cfg

/-- R75, R300: while a session is in flight no command but RESET, and no TICK, changes BUF or a register of the frame. -/
def Obligations.SessionOwnsTheFrame : Prop :=
  ∀ (i : Instr) (s t : State), s.sstate = .transmitting → i ≠ .reset → exec i s = next t →
    t.fstate = s.fstate ∧ t.ferr = s.ferr ∧ t.crc = s.crc ∧ t.ones = s.ones ∧ t.bitlen = s.bitlen ∧ t.outb = s.outb ∧
    t.buf = s.buf

/-- R104: every command that raises no fault puts out exactly one response, with value 0 unless it returns a value; a
refused one too; a fault and a TICK put out none; a response is the five bytes of the rule, its code byte that of R250.
That the response is the command's last output is the model's (log 11). -/
def Obligations.EveryCommandGetsExactlyOneResponse : Prop :=
  (∀ (i : Instr) (s t : State), i ≠ .tick → s.fault = none → exec i s = next t → t.fault = none →
    ∃ (events : List Output) (code : RespCode) (value : BitVec 32),
      t.trace = s.trace ++ events ++ [.resp code value] ∧ (∀ e ∈ events, ∀ c v, e ≠ .resp c v) ∧
      code ≠ .illegal ∧ (i.returnsValue = false → value = 0#32)) ∧
  (∀ (i : Instr) (s t : State), exec i s = next t → t.fault ≠ s.fault → t.trace = s.trace) ∧
  (∀ s t : State, exec .tick s = next t →
    ∃ events : List Output, t.trace = s.trace ++ events ∧ ∀ e ∈ events, ∀ c v, e ≠ .resp c v) ∧
  (∀ (s : State) (why : RefuseReason) (rest : List Byte), s.fault = none → s.cfg.legal = true →
    s.turns.head? ≠ some .timer → decode s.cfg.maxFrameBytes s.stream = .refused why rest →
    ∃ t, step s = next t ∧ t.trace = s.trace ++ [.resp .illegal 0#32]) ∧
  (∀ (code : RespCode) (value : BitVec 32),
    responseBytes code value =
      [(match code with
        | .ok => 0x00#8 | .frameOverflow => 0x01#8 | .invalidAddressChain => 0x02#8 | .sessionBusy => 0x03#8
        | .configurationTimeout => 0x04#8 | .frameNotReady => 0x05#8 | .illegal => 0xFF#8),
       BitVec.ofNat 8 (value.toNat / 2 ^ 24), BitVec.ofNat 8 (value.toNat / 2 ^ 16),
       BitVec.ofNat 8 (value.toNat / 2 ^ 8), BitVec.ofNat 8 value.toNat])

/-- R37: every change of TX_EN is announced by TxEnable with its new value, and the last TxEnable of a step is the value
TX_EN then has; the outputs of a step only add to those before it. -/
def Obligations.TxEnableChangesAreAnnounced : Prop :=
  ∀ s t : State, step s = next t → ∃ new : List Output, t.trace = s.trace ++ new ∧
    (t.txEn ≠ s.txEn → .txEnable t.txEn ∈ new) ∧
    (∀ before after v, new = before ++ .txEnable v :: after → (∀ w, .txEnable w ∉ after) → t.txEn = v)

/-- R258, R263, R38: only a delivered TICK of a session puts out samples, one at most, and only START_TX sets TIMER_EN. -/
def Obligations.SamplesComeFromTicksAlone : Prop :=
  ∀ s t : State, step s = next t →
    (∀ v, .sampleOut v ∈ t.trace.drop s.trace.length →
      s.timerEn = true ∧ s.sstate = .transmitting ∧ (∃ later, s.turns = .timer :: later) ∧
      t.trace = s.trace ++ [.sampleOut v]) ∧
    (s.timerEn = false → t.timerEn = true → ∃ u, s.arrival = .run .startTx u)

/-- R195, R263: every sample a step puts out is a code in 0 .. MAXV. -/
def Obligations.SamplesAreOutputCodes : Prop :=
  ∀ s t : State, step s = next t → ∀ v, .sampleOut v ∈ t.trace.drop s.trace.length → v ≤ s.cfg.maxv

/-- R312, R199 (the first an inference the spec marks as its own): a session whose timer is stopped stays as it is, keyed
and active, over every step but RESET. -/
def Obligations.StoppedSessionWaitsForReset : Prop :=
  ∀ s t : State, s.sstate = .transmitting → s.timerEn = false → step s = next t →
    (∃ u, s.arrival = .run .reset u) ∨
    (t.sstate = .transmitting ∧ t.timerEn = false ∧ t.txEn = s.txEn ∧ t.active = s.active ∧ t.cursor = s.cursor ∧
      t.phase = s.phase ∧ t.budget = s.budget ∧ t.tone = s.tone ∧ t.txlen = s.txlen ∧ t.inc = s.inc)

/-- R63 (what the model's log 6 rests on): the bytes of BUF outside the frame's extent are never seen: two states that
agree but for those bytes stay so over every step, with the same outputs. -/
def Obligations.UnspecifiedBytesAreInvisible : Prop :=
  ∀ (s t : State) (buf : Memory), s.Inv → State.Inv { s with buf := buf } →
    (∀ i, i < s.extent → buf.read i = s.buf.read i) → step s = next t →
    ∃ buf', step { s with buf := buf } = next { t with buf := buf' } ∧
      ∀ i, i < t.extent → buf'.read i = t.buf.read i
end

