-- ==== Sys2Proof/Laws/Config.lean ====
section
/-! SUPPORT. What a legal configuration gives, one lemma for each range of R6. -/

set_option Elab.async false

namespace Sys2Proof.Config

variable {c : Config}

/-- The ranges of R6, all of them. -/
theorem legal_iff : c.legal = true ↔
    (1 ≤ c.maxFrameBytes ∧ c.maxFrameBytes ≤ 65536) ∧ (1 ≤ c.flagCount ∧ c.flagCount ≤ 255) ∧
    (1 ≤ c.q ∧ c.q ≤ 65536) ∧ (1 ≤ c.r ∧ c.r ≤ 16) ∧ (c.qtable.length = c.q ∧ ∀ v ∈ c.qtable, v ≤ c.maxv) ∧
    (c.f ≤ 16 ∧ c.phaseMod ≤ 2 ^ 32) ∧ (1 ≤ c.spb ∧ c.spb ≤ 65535) ∧
    (c.incMark < c.phaseMod ∧ c.incSpace < c.phaseMod) ∧ preemphLegal c.maxv c.preemph = true ∧
    c.fs = c.spb * c.bitRate := by
  simp only [legal, Bool.and_eq_true, decide_eq_true_eq, and_assoc]

theorem maxFrameBytes_range (h : c.legal = true) : 1 ≤ c.maxFrameBytes ∧ c.maxFrameBytes ≤ 65536 := (legal_iff.mp h).1
theorem flagCount_range (h : c.legal = true) : 1 ≤ c.flagCount ∧ c.flagCount ≤ 255 := (legal_iff.mp h).2.1
theorem q_range (h : c.legal = true) : 1 ≤ c.q ∧ c.q ≤ 65536 := (legal_iff.mp h).2.2.1
theorem r_range (h : c.legal = true) : 1 ≤ c.r ∧ c.r ≤ 16 := (legal_iff.mp h).2.2.2.1
theorem qtable_length (h : c.legal = true) : c.qtable.length = c.q := (legal_iff.mp h).2.2.2.2.1.1
theorem qtable_le (h : c.legal = true) : ∀ v ∈ c.qtable, v ≤ c.maxv := (legal_iff.mp h).2.2.2.2.1.2
theorem phaseMod_le (h : c.legal = true) : c.phaseMod ≤ 2 ^ 32 := (legal_iff.mp h).2.2.2.2.2.1.2
theorem spb_range (h : c.legal = true) : 1 ≤ c.spb ∧ c.spb ≤ 65535 := (legal_iff.mp h).2.2.2.2.2.2.1
theorem incMark_lt (h : c.legal = true) : c.incMark < c.phaseMod := (legal_iff.mp h).2.2.2.2.2.2.2.1.1
theorem incSpace_lt (h : c.legal = true) : c.incSpace < c.phaseMod := (legal_iff.mp h).2.2.2.2.2.2.2.1.2

/-- BITLEN has room for every legal capacity. -/
theorem capBits_le (h : c.legal = true) : c.capBits ≤ 2 ^ 19 := by
  have := maxFrameBytes_range h
  simp only [capBits]
  omega

end Sys2Proof.Config
end

