-- ==== Sys2Proof/Laws/Memory.lean ====
section
/-! SUPPORT. BUF as a list of bytes: a read after a write, the other bytes, and that a write keeps the canonical form. -/

set_option Elab.async false

namespace Sys2Proof.Machine.Memory

@[simp] theorem read_nil (a : Nat) : read [] a = unlisted := rfl

/-- A byte below every listed address is unlisted. -/
theorem read_of_lt {m : Memory} {a : Nat} (h : ∀ c ∈ m, a < c.1) : read m a = unlisted := by
  induction m with
  | nil => rfl
  | cons c m ih =>
    have hc := h c (by simp)
    rw [read, if_neg (by omega)]
    exact ih fun d hd => h d (by simp [hd])

/-- The addresses of a written memory: the old ones and the one written. -/
theorem mem_write {m : Memory} {a : Nat} {v : Byte} {c : Host.Cell} (h : c ∈ write m a v) :
    c ∈ m ∨ (c = (a, v) ∧ v ≠ unlisted) := by
  induction m with
  | nil =>
    simp only [write] at h
    split at h <;> simp_all
  | cons d m ih =>
    simp only [write] at h
    split at h
    · split at h
      · exact .inl h
      · rcases List.mem_cons.mp h with rfl | h
        · exact .inr ⟨rfl, ‹_›⟩
        · exact .inl h
    · split at h
      · split at h
        · exact .inl (List.mem_cons_of_mem _ h)
        · rcases List.mem_cons.mp h with rfl | h
          · exact .inr ⟨rfl, ‹_›⟩
          · exact .inl (List.mem_cons_of_mem _ h)
      · rcases List.mem_cons.mp h with rfl | h
        · exact .inl (by simp)
        · exact (ih h).imp (List.mem_cons_of_mem _) id

/-- A write keeps the canonical form. -/
theorem write_wf {m : Memory} (a : Nat) (v : Byte) (h : m.wf) : (write m a v).wf := by
  refine ⟨?_, fun c hc => (mem_write hc).elim (h.2 c) (fun ⟨e, hv⟩ => by simpa [e] using hv)⟩
  have hp := h.1
  clear h
  induction m with
  | nil => simp only [write]; split <;> simp
  | cons d m ih =>
    have hd := List.pairwise_cons.mp hp
    simp only [write]
    split
    · split
      · exact hp
      · refine List.pairwise_cons.mpr ⟨fun c hc => ?_, hp⟩
        rcases List.mem_cons.mp hc with rfl | hc
        · assumption
        · have := hd.1 c hc; simp only; omega
    · split
      · split
        · exact hd.2
        · exact List.pairwise_cons.mpr ⟨fun c hc => by have := hd.1 c hc; simp only; omega, hd.2⟩
      · refine List.pairwise_cons.mpr ⟨fun c hc => ?_, ih hd.2⟩
        rcases mem_write hc with hc | ⟨rfl, -⟩
        · exact hd.1 c hc
        · simp only; omega

/-- A write leaves every listed address below any bound it respects. -/
theorem write_lt {m : Memory} {a n : Nat} {v : Byte} (ha : a < n) (h : ∀ c ∈ m, c.1 < n) :
    ∀ c ∈ write m a v, c.1 < n := fun c hc =>
  (mem_write hc).elim (h c) (fun ⟨e, _⟩ => by simpa [e] using ha)

/-- A read after a write: the byte written at its address, the old byte elsewhere. -/
theorem read_write {m : Memory} (a b : Nat) (v : Byte) (h : m.wf) :
    read (write m a v) b = if b = a then v else read m b := by
  have hp := h.1
  clear h
  induction m with
  | nil =>
    simp only [write]
    split
    · split <;> simp_all
    · simp only [read, eq_comm]
  | cons d m ih =>
    have hd := List.pairwise_cons.mp hp
    simp only [write]
    split
    · have hlt : ∀ c ∈ d :: m, a < c.1 := fun c hc => by
        rcases List.mem_cons.mp hc with rfl | hc
        · assumption
        · have := hd.1 c hc; omega
      split
      · split
        · subst_vars; rw [read_of_lt hlt]
        · rfl
      · simp only [read, eq_comm (a := a)]
    · split
      · subst_vars
        have hlt : ∀ c ∈ m, d.1 < c.1 := hd.1
        split
        · split
          · subst_vars; rw [read_of_lt hlt]
          · rw [read, if_neg (Ne.symm ‹_›)]
        · simp only [read]
          by_cases hb : b = d.1
          · rw [if_pos hb.symm, if_pos hb]
          · rw [if_neg (Ne.symm hb), if_neg hb, if_neg (Ne.symm hb)]
      · simp only [read, ih hd.2]
        split
        · rw [if_neg (by omega)]
        · rfl

end Sys2Proof.Machine.Memory
end

