-- ==== Sys2Proof/Laws/State.lean ====
section
/-! SUPPORT. One lemma per field per update of the state, so that no proof unfolds a record update. -/

set_option Elab.async false

namespace Sys2Proof.Machine.State

/-! ### emit -/

@[simp] theorem emit_cfg (s : State) (e : Output) : (s.emit e).cfg = s.cfg := rfl
@[simp] theorem emit_fstate (s : State) (e : Output) : (s.emit e).fstate = s.fstate := rfl
@[simp] theorem emit_ferr (s : State) (e : Output) : (s.emit e).ferr = s.ferr := rfl
@[simp] theorem emit_crc (s : State) (e : Output) : (s.emit e).crc = s.crc := rfl
@[simp] theorem emit_ones (s : State) (e : Output) : (s.emit e).ones = s.ones := rfl
@[simp] theorem emit_bitlen (s : State) (e : Output) : (s.emit e).bitlen = s.bitlen := rfl
@[simp] theorem emit_outb (s : State) (e : Output) : (s.emit e).outb = s.outb := rfl
@[simp] theorem emit_buf (s : State) (e : Output) : (s.emit e).buf = s.buf := rfl
@[simp] theorem emit_sstate (s : State) (e : Output) : (s.emit e).sstate = s.sstate := rfl
@[simp] theorem emit_active (s : State) (e : Output) : (s.emit e).active = s.active := rfl
@[simp] theorem emit_tone (s : State) (e : Output) : (s.emit e).tone = s.tone := rfl
@[simp] theorem emit_phase (s : State) (e : Output) : (s.emit e).phase = s.phase := rfl
@[simp] theorem emit_inc (s : State) (e : Output) : (s.emit e).inc = s.inc := rfl
@[simp] theorem emit_budget (s : State) (e : Output) : (s.emit e).budget = s.budget := rfl
@[simp] theorem emit_cursor (s : State) (e : Output) : (s.emit e).cursor = s.cursor := rfl
@[simp] theorem emit_txlen (s : State) (e : Output) : (s.emit e).txlen = s.txlen := rfl
@[simp] theorem emit_txEn (s : State) (e : Output) : (s.emit e).txEn = s.txEn := rfl
@[simp] theorem emit_timerEn (s : State) (e : Output) : (s.emit e).timerEn = s.timerEn := rfl
@[simp] theorem emit_fault (s : State) (e : Output) : (s.emit e).fault = s.fault := rfl
@[simp] theorem emit_trace (s : State) (e : Output) : (s.emit e).trace = s.trace ++ [e] := rfl
@[simp] theorem emit_stream (s : State) (e : Output) : (s.emit e).stream = s.stream := rfl
@[simp] theorem emit_turns (s : State) (e : Output) : (s.emit e).turns = s.turns := rfl
@[simp] theorem emit_settle (s : State) (e : Output) : (s.emit e).settle = s.settle := rfl
@[simp] theorem emit_draws (s : State) (e : Output) : (s.emit e).draws = s.draws := rfl

/-! ### respond -/

@[simp] theorem respond_cfg (s : State) (code : RespCode) (value : BitVec 32) : (s.respond code value).cfg = s.cfg := rfl
@[simp] theorem respond_fstate (s : State) (code : RespCode) (value : BitVec 32) : (s.respond code value).fstate = s.fstate := rfl
@[simp] theorem respond_ferr (s : State) (code : RespCode) (value : BitVec 32) : (s.respond code value).ferr = s.ferr := rfl
@[simp] theorem respond_crc (s : State) (code : RespCode) (value : BitVec 32) : (s.respond code value).crc = s.crc := rfl
@[simp] theorem respond_ones (s : State) (code : RespCode) (value : BitVec 32) : (s.respond code value).ones = s.ones := rfl
@[simp] theorem respond_bitlen (s : State) (code : RespCode) (value : BitVec 32) : (s.respond code value).bitlen = s.bitlen := rfl
@[simp] theorem respond_outb (s : State) (code : RespCode) (value : BitVec 32) : (s.respond code value).outb = s.outb := rfl
@[simp] theorem respond_buf (s : State) (code : RespCode) (value : BitVec 32) : (s.respond code value).buf = s.buf := rfl
@[simp] theorem respond_sstate (s : State) (code : RespCode) (value : BitVec 32) : (s.respond code value).sstate = s.sstate := rfl
@[simp] theorem respond_active (s : State) (code : RespCode) (value : BitVec 32) : (s.respond code value).active = s.active := rfl
@[simp] theorem respond_tone (s : State) (code : RespCode) (value : BitVec 32) : (s.respond code value).tone = s.tone := rfl
@[simp] theorem respond_phase (s : State) (code : RespCode) (value : BitVec 32) : (s.respond code value).phase = s.phase := rfl
@[simp] theorem respond_inc (s : State) (code : RespCode) (value : BitVec 32) : (s.respond code value).inc = s.inc := rfl
@[simp] theorem respond_budget (s : State) (code : RespCode) (value : BitVec 32) : (s.respond code value).budget = s.budget := rfl
@[simp] theorem respond_cursor (s : State) (code : RespCode) (value : BitVec 32) : (s.respond code value).cursor = s.cursor := rfl
@[simp] theorem respond_txlen (s : State) (code : RespCode) (value : BitVec 32) : (s.respond code value).txlen = s.txlen := rfl
@[simp] theorem respond_txEn (s : State) (code : RespCode) (value : BitVec 32) : (s.respond code value).txEn = s.txEn := rfl
@[simp] theorem respond_timerEn (s : State) (code : RespCode) (value : BitVec 32) : (s.respond code value).timerEn = s.timerEn := rfl
@[simp] theorem respond_fault (s : State) (code : RespCode) (value : BitVec 32) : (s.respond code value).fault = s.fault := rfl
@[simp] theorem respond_trace (s : State) (code : RespCode) (value : BitVec 32) : (s.respond code value).trace = s.trace ++ [.resp code value] := rfl
@[simp] theorem respond_stream (s : State) (code : RespCode) (value : BitVec 32) : (s.respond code value).stream = s.stream := rfl
@[simp] theorem respond_turns (s : State) (code : RespCode) (value : BitVec 32) : (s.respond code value).turns = s.turns := rfl
@[simp] theorem respond_settle (s : State) (code : RespCode) (value : BitVec 32) : (s.respond code value).settle = s.settle := rfl
@[simp] theorem respond_draws (s : State) (code : RespCode) (value : BitVec 32) : (s.respond code value).draws = s.draws := rfl

/-! ### respondFerr -/

@[simp] theorem respondFerr_cfg (s : State) : (s.respondFerr).cfg = s.cfg := rfl
@[simp] theorem respondFerr_fstate (s : State) : (s.respondFerr).fstate = s.fstate := rfl
@[simp] theorem respondFerr_ferr (s : State) : (s.respondFerr).ferr = s.ferr := rfl
@[simp] theorem respondFerr_crc (s : State) : (s.respondFerr).crc = s.crc := rfl
@[simp] theorem respondFerr_ones (s : State) : (s.respondFerr).ones = s.ones := rfl
@[simp] theorem respondFerr_bitlen (s : State) : (s.respondFerr).bitlen = s.bitlen := rfl
@[simp] theorem respondFerr_outb (s : State) : (s.respondFerr).outb = s.outb := rfl
@[simp] theorem respondFerr_buf (s : State) : (s.respondFerr).buf = s.buf := rfl
@[simp] theorem respondFerr_sstate (s : State) : (s.respondFerr).sstate = s.sstate := rfl
@[simp] theorem respondFerr_active (s : State) : (s.respondFerr).active = s.active := rfl
@[simp] theorem respondFerr_tone (s : State) : (s.respondFerr).tone = s.tone := rfl
@[simp] theorem respondFerr_phase (s : State) : (s.respondFerr).phase = s.phase := rfl
@[simp] theorem respondFerr_inc (s : State) : (s.respondFerr).inc = s.inc := rfl
@[simp] theorem respondFerr_budget (s : State) : (s.respondFerr).budget = s.budget := rfl
@[simp] theorem respondFerr_cursor (s : State) : (s.respondFerr).cursor = s.cursor := rfl
@[simp] theorem respondFerr_txlen (s : State) : (s.respondFerr).txlen = s.txlen := rfl
@[simp] theorem respondFerr_txEn (s : State) : (s.respondFerr).txEn = s.txEn := rfl
@[simp] theorem respondFerr_timerEn (s : State) : (s.respondFerr).timerEn = s.timerEn := rfl
@[simp] theorem respondFerr_fault (s : State) : (s.respondFerr).fault = s.fault := rfl
@[simp] theorem respondFerr_trace (s : State) : (s.respondFerr).trace = s.trace ++ [.resp s.ferr.code 0#32] := rfl
@[simp] theorem respondFerr_stream (s : State) : (s.respondFerr).stream = s.stream := rfl
@[simp] theorem respondFerr_turns (s : State) : (s.respondFerr).turns = s.turns := rfl
@[simp] theorem respondFerr_settle (s : State) : (s.respondFerr).settle = s.settle := rfl
@[simp] theorem respondFerr_draws (s : State) : (s.respondFerr).draws = s.draws := rfl

/-! ### memWrite -/

@[simp] theorem memWrite_cfg (s : State) (i : Nat) (v : Byte) : (s.memWrite i v).cfg = s.cfg := rfl
@[simp] theorem memWrite_fstate (s : State) (i : Nat) (v : Byte) : (s.memWrite i v).fstate = s.fstate := rfl
@[simp] theorem memWrite_ferr (s : State) (i : Nat) (v : Byte) : (s.memWrite i v).ferr = s.ferr := rfl
@[simp] theorem memWrite_crc (s : State) (i : Nat) (v : Byte) : (s.memWrite i v).crc = s.crc := rfl
@[simp] theorem memWrite_ones (s : State) (i : Nat) (v : Byte) : (s.memWrite i v).ones = s.ones := rfl
@[simp] theorem memWrite_bitlen (s : State) (i : Nat) (v : Byte) : (s.memWrite i v).bitlen = s.bitlen := rfl
@[simp] theorem memWrite_outb (s : State) (i : Nat) (v : Byte) : (s.memWrite i v).outb = s.outb := rfl
@[simp] theorem memWrite_buf (s : State) (i : Nat) (v : Byte) : (s.memWrite i v).buf = s.buf.write i v := rfl
@[simp] theorem memWrite_sstate (s : State) (i : Nat) (v : Byte) : (s.memWrite i v).sstate = s.sstate := rfl
@[simp] theorem memWrite_active (s : State) (i : Nat) (v : Byte) : (s.memWrite i v).active = s.active := rfl
@[simp] theorem memWrite_tone (s : State) (i : Nat) (v : Byte) : (s.memWrite i v).tone = s.tone := rfl
@[simp] theorem memWrite_phase (s : State) (i : Nat) (v : Byte) : (s.memWrite i v).phase = s.phase := rfl
@[simp] theorem memWrite_inc (s : State) (i : Nat) (v : Byte) : (s.memWrite i v).inc = s.inc := rfl
@[simp] theorem memWrite_budget (s : State) (i : Nat) (v : Byte) : (s.memWrite i v).budget = s.budget := rfl
@[simp] theorem memWrite_cursor (s : State) (i : Nat) (v : Byte) : (s.memWrite i v).cursor = s.cursor := rfl
@[simp] theorem memWrite_txlen (s : State) (i : Nat) (v : Byte) : (s.memWrite i v).txlen = s.txlen := rfl
@[simp] theorem memWrite_txEn (s : State) (i : Nat) (v : Byte) : (s.memWrite i v).txEn = s.txEn := rfl
@[simp] theorem memWrite_timerEn (s : State) (i : Nat) (v : Byte) : (s.memWrite i v).timerEn = s.timerEn := rfl
@[simp] theorem memWrite_fault (s : State) (i : Nat) (v : Byte) : (s.memWrite i v).fault = s.fault := rfl
@[simp] theorem memWrite_trace (s : State) (i : Nat) (v : Byte) : (s.memWrite i v).trace = s.trace := rfl
@[simp] theorem memWrite_stream (s : State) (i : Nat) (v : Byte) : (s.memWrite i v).stream = s.stream := rfl
@[simp] theorem memWrite_turns (s : State) (i : Nat) (v : Byte) : (s.memWrite i v).turns = s.turns := rfl
@[simp] theorem memWrite_settle (s : State) (i : Nat) (v : Byte) : (s.memWrite i v).settle = s.settle := rfl
@[simp] theorem memWrite_draws (s : State) (i : Nat) (v : Byte) : (s.memWrite i v).draws = s.draws := rfl

/-! ### phaseAdvance -/

@[simp] theorem phaseAdvance_cfg (s : State) : (s.phaseAdvance).cfg = s.cfg := rfl
@[simp] theorem phaseAdvance_fstate (s : State) : (s.phaseAdvance).fstate = s.fstate := rfl
@[simp] theorem phaseAdvance_ferr (s : State) : (s.phaseAdvance).ferr = s.ferr := rfl
@[simp] theorem phaseAdvance_crc (s : State) : (s.phaseAdvance).crc = s.crc := rfl
@[simp] theorem phaseAdvance_ones (s : State) : (s.phaseAdvance).ones = s.ones := rfl
@[simp] theorem phaseAdvance_bitlen (s : State) : (s.phaseAdvance).bitlen = s.bitlen := rfl
@[simp] theorem phaseAdvance_outb (s : State) : (s.phaseAdvance).outb = s.outb := rfl
@[simp] theorem phaseAdvance_buf (s : State) : (s.phaseAdvance).buf = s.buf := rfl
@[simp] theorem phaseAdvance_sstate (s : State) : (s.phaseAdvance).sstate = s.sstate := rfl
@[simp] theorem phaseAdvance_active (s : State) : (s.phaseAdvance).active = s.active := rfl
@[simp] theorem phaseAdvance_tone (s : State) : (s.phaseAdvance).tone = s.tone := rfl
@[simp] theorem phaseAdvance_phase (s : State) : (s.phaseAdvance).phase = BitVec.ofNat 32 ((s.phase.toNat + s.inc.toNat) % s.cfg.phaseMod) := rfl
@[simp] theorem phaseAdvance_inc (s : State) : (s.phaseAdvance).inc = s.inc := rfl
@[simp] theorem phaseAdvance_budget (s : State) : (s.phaseAdvance).budget = s.budget := rfl
@[simp] theorem phaseAdvance_cursor (s : State) : (s.phaseAdvance).cursor = s.cursor := rfl
@[simp] theorem phaseAdvance_txlen (s : State) : (s.phaseAdvance).txlen = s.txlen := rfl
@[simp] theorem phaseAdvance_txEn (s : State) : (s.phaseAdvance).txEn = s.txEn := rfl
@[simp] theorem phaseAdvance_timerEn (s : State) : (s.phaseAdvance).timerEn = s.timerEn := rfl
@[simp] theorem phaseAdvance_fault (s : State) : (s.phaseAdvance).fault = s.fault := rfl
@[simp] theorem phaseAdvance_trace (s : State) : (s.phaseAdvance).trace = s.trace := rfl
@[simp] theorem phaseAdvance_stream (s : State) : (s.phaseAdvance).stream = s.stream := rfl
@[simp] theorem phaseAdvance_turns (s : State) : (s.phaseAdvance).turns = s.turns := rfl
@[simp] theorem phaseAdvance_settle (s : State) : (s.phaseAdvance).settle = s.settle := rfl
@[simp] theorem phaseAdvance_draws (s : State) : (s.phaseAdvance).draws = s.draws := rfl

/-! ### openSession -/

@[simp] theorem openSession_cfg (s : State) : (s.openSession).cfg = s.cfg := rfl
@[simp] theorem openSession_fstate (s : State) : (s.openSession).fstate = s.fstate := rfl
@[simp] theorem openSession_ferr (s : State) : (s.openSession).ferr = s.ferr := rfl
@[simp] theorem openSession_crc (s : State) : (s.openSession).crc = s.crc := rfl
@[simp] theorem openSession_ones (s : State) : (s.openSession).ones = s.ones := rfl
@[simp] theorem openSession_bitlen (s : State) : (s.openSession).bitlen = s.bitlen := rfl
@[simp] theorem openSession_outb (s : State) : (s.openSession).outb = s.outb := rfl
@[simp] theorem openSession_buf (s : State) : (s.openSession).buf = s.buf := rfl
@[simp] theorem openSession_sstate (s : State) : (s.openSession).sstate = .transmitting := rfl
@[simp] theorem openSession_active (s : State) : (s.openSession).active = true := rfl
@[simp] theorem openSession_tone (s : State) : (s.openSession).tone = .mark := rfl
@[simp] theorem openSession_phase (s : State) : (s.openSession).phase = 0#32 := rfl
@[simp] theorem openSession_inc (s : State) : (s.openSession).inc = BitVec.ofNat 32 s.cfg.incMark := rfl
@[simp] theorem openSession_budget (s : State) : (s.openSession).budget = 0#16 := rfl
@[simp] theorem openSession_cursor (s : State) : (s.openSession).cursor = 0#20 := rfl
@[simp] theorem openSession_txlen (s : State) : (s.openSession).txlen = s.bitlen := rfl
@[simp] theorem openSession_txEn (s : State) : (s.openSession).txEn = s.txEn := rfl
@[simp] theorem openSession_timerEn (s : State) : (s.openSession).timerEn = true := rfl
@[simp] theorem openSession_fault (s : State) : (s.openSession).fault = s.fault := rfl
@[simp] theorem openSession_trace (s : State) : (s.openSession).trace = s.trace := rfl
@[simp] theorem openSession_stream (s : State) : (s.openSession).stream = s.stream := rfl
@[simp] theorem openSession_turns (s : State) : (s.openSession).turns = s.turns := rfl
@[simp] theorem openSession_settle (s : State) : (s.openSession).settle = s.settle := rfl
@[simp] theorem openSession_draws (s : State) : (s.openSession).draws = s.draws := rfl

/-! ### endSession -/

@[simp] theorem endSession_cfg (s : State) : (s.endSession).cfg = s.cfg := rfl
@[simp] theorem endSession_fstate (s : State) : (s.endSession).fstate = s.fstate := rfl
@[simp] theorem endSession_ferr (s : State) : (s.endSession).ferr = s.ferr := rfl
@[simp] theorem endSession_crc (s : State) : (s.endSession).crc = s.crc := rfl
@[simp] theorem endSession_ones (s : State) : (s.endSession).ones = s.ones := rfl
@[simp] theorem endSession_bitlen (s : State) : (s.endSession).bitlen = s.bitlen := rfl
@[simp] theorem endSession_outb (s : State) : (s.endSession).outb = s.outb := rfl
@[simp] theorem endSession_buf (s : State) : (s.endSession).buf = s.buf := rfl
@[simp] theorem endSession_sstate (s : State) : (s.endSession).sstate = .idle := rfl
@[simp] theorem endSession_active (s : State) : (s.endSession).active = false := rfl
@[simp] theorem endSession_tone (s : State) : (s.endSession).tone = .mark := rfl
@[simp] theorem endSession_phase (s : State) : (s.endSession).phase = 0#32 := rfl
@[simp] theorem endSession_inc (s : State) : (s.endSession).inc = 0#32 := rfl
@[simp] theorem endSession_budget (s : State) : (s.endSession).budget = 0#16 := rfl
@[simp] theorem endSession_cursor (s : State) : (s.endSession).cursor = 0#20 := rfl
@[simp] theorem endSession_txlen (s : State) : (s.endSession).txlen = 0#20 := rfl
@[simp] theorem endSession_txEn (s : State) : (s.endSession).txEn = false := rfl
@[simp] theorem endSession_timerEn (s : State) : (s.endSession).timerEn = false := rfl
@[simp] theorem endSession_fault (s : State) : (s.endSession).fault = s.fault := rfl
@[simp] theorem endSession_trace (s : State) : (s.endSession).trace = s.trace ++ [.txEnable false] := rfl
@[simp] theorem endSession_stream (s : State) : (s.endSession).stream = s.stream := rfl
@[simp] theorem endSession_turns (s : State) : (s.endSession).turns = s.turns := rfl
@[simp] theorem endSession_settle (s : State) : (s.endSession).settle = s.settle := rfl
@[simp] theorem endSession_draws (s : State) : (s.endSession).draws = s.draws := rfl

/-! ### sample -/

@[simp] theorem sample_cfg (s : State) : (s.sample).cfg = s.cfg := rfl
@[simp] theorem sample_fstate (s : State) : (s.sample).fstate = s.fstate := rfl
@[simp] theorem sample_ferr (s : State) : (s.sample).ferr = s.ferr := rfl
@[simp] theorem sample_crc (s : State) : (s.sample).crc = s.crc := rfl
@[simp] theorem sample_ones (s : State) : (s.sample).ones = s.ones := rfl
@[simp] theorem sample_bitlen (s : State) : (s.sample).bitlen = s.bitlen := rfl
@[simp] theorem sample_outb (s : State) : (s.sample).outb = s.outb := rfl
@[simp] theorem sample_buf (s : State) : (s.sample).buf = s.buf := rfl
@[simp] theorem sample_sstate (s : State) : (s.sample).sstate = s.sstate := rfl
@[simp] theorem sample_active (s : State) : (s.sample).active = s.active := rfl
@[simp] theorem sample_tone (s : State) : (s.sample).tone = s.tone := rfl
@[simp] theorem sample_phase (s : State) : (s.sample).phase = s.phaseAdvance.phase := rfl
@[simp] theorem sample_inc (s : State) : (s.sample).inc = s.inc := rfl
@[simp] theorem sample_budget (s : State) : (s.sample).budget = s.budget - 1#16 := rfl
@[simp] theorem sample_cursor (s : State) : (s.sample).cursor = s.cursor := rfl
@[simp] theorem sample_txlen (s : State) : (s.sample).txlen = s.txlen := rfl
@[simp] theorem sample_txEn (s : State) : (s.sample).txEn = s.txEn := rfl
@[simp] theorem sample_timerEn (s : State) : (s.sample).timerEn = s.timerEn := rfl
@[simp] theorem sample_fault (s : State) : (s.sample).fault = s.fault := rfl
@[simp] theorem sample_stream (s : State) : (s.sample).stream = s.stream := rfl
@[simp] theorem sample_turns (s : State) : (s.sample).turns = s.turns := rfl
@[simp] theorem sample_settle (s : State) : (s.sample).settle = s.settle := rfl
@[simp] theorem sample_draws (s : State) : (s.sample).draws = s.draws := rfl

/-! ### resetRegisters -/

@[simp] theorem resetRegisters_cfg (s : State) : (s.resetRegisters).cfg = s.cfg := rfl
@[simp] theorem resetRegisters_fstate (s : State) : (s.resetRegisters).fstate = .noFrame := rfl
@[simp] theorem resetRegisters_ferr (s : State) : (s.resetRegisters).ferr = .none := rfl
@[simp] theorem resetRegisters_crc (s : State) : (s.resetRegisters).crc = crcSeed := rfl
@[simp] theorem resetRegisters_ones (s : State) : (s.resetRegisters).ones = 0#3 := rfl
@[simp] theorem resetRegisters_bitlen (s : State) : (s.resetRegisters).bitlen = 0#20 := rfl
@[simp] theorem resetRegisters_outb (s : State) : (s.resetRegisters).outb = 0#8 := rfl
@[simp] theorem resetRegisters_buf (s : State) : (s.resetRegisters).buf = s.buf := rfl
@[simp] theorem resetRegisters_sstate (s : State) : (s.resetRegisters).sstate = .idle := rfl
@[simp] theorem resetRegisters_active (s : State) : (s.resetRegisters).active = false := rfl
@[simp] theorem resetRegisters_tone (s : State) : (s.resetRegisters).tone = .mark := rfl
@[simp] theorem resetRegisters_phase (s : State) : (s.resetRegisters).phase = 0#32 := rfl
@[simp] theorem resetRegisters_inc (s : State) : (s.resetRegisters).inc = 0#32 := rfl
@[simp] theorem resetRegisters_budget (s : State) : (s.resetRegisters).budget = 0#16 := rfl
@[simp] theorem resetRegisters_cursor (s : State) : (s.resetRegisters).cursor = 0#20 := rfl
@[simp] theorem resetRegisters_txlen (s : State) : (s.resetRegisters).txlen = 0#20 := rfl
@[simp] theorem resetRegisters_txEn (s : State) : (s.resetRegisters).txEn = false := rfl
@[simp] theorem resetRegisters_timerEn (s : State) : (s.resetRegisters).timerEn = false := rfl
@[simp] theorem resetRegisters_fault (s : State) : (s.resetRegisters).fault = s.fault := rfl
@[simp] theorem resetRegisters_trace (s : State) : (s.resetRegisters).trace = s.trace := rfl
@[simp] theorem resetRegisters_stream (s : State) : (s.resetRegisters).stream = s.stream := rfl
@[simp] theorem resetRegisters_turns (s : State) : (s.resetRegisters).turns = s.turns := rfl
@[simp] theorem resetRegisters_settle (s : State) : (s.resetRegisters).settle = s.settle := rfl
@[simp] theorem resetRegisters_draws (s : State) : (s.resetRegisters).draws = s.draws := rfl

/-! ### withFrameOf -/

@[simp] theorem withFrameOf_cfg (s t : State) : (s.withFrameOf t).cfg = s.cfg := rfl
@[simp] theorem withFrameOf_fstate (s t : State) : (s.withFrameOf t).fstate = t.fstate := rfl
@[simp] theorem withFrameOf_ferr (s t : State) : (s.withFrameOf t).ferr = t.ferr := rfl
@[simp] theorem withFrameOf_crc (s t : State) : (s.withFrameOf t).crc = t.crc := rfl
@[simp] theorem withFrameOf_ones (s t : State) : (s.withFrameOf t).ones = t.ones := rfl
@[simp] theorem withFrameOf_bitlen (s t : State) : (s.withFrameOf t).bitlen = t.bitlen := rfl
@[simp] theorem withFrameOf_outb (s t : State) : (s.withFrameOf t).outb = t.outb := rfl
@[simp] theorem withFrameOf_buf (s t : State) : (s.withFrameOf t).buf = t.buf := rfl
@[simp] theorem withFrameOf_sstate (s t : State) : (s.withFrameOf t).sstate = s.sstate := rfl
@[simp] theorem withFrameOf_active (s t : State) : (s.withFrameOf t).active = s.active := rfl
@[simp] theorem withFrameOf_tone (s t : State) : (s.withFrameOf t).tone = s.tone := rfl
@[simp] theorem withFrameOf_phase (s t : State) : (s.withFrameOf t).phase = s.phase := rfl
@[simp] theorem withFrameOf_inc (s t : State) : (s.withFrameOf t).inc = s.inc := rfl
@[simp] theorem withFrameOf_budget (s t : State) : (s.withFrameOf t).budget = s.budget := rfl
@[simp] theorem withFrameOf_cursor (s t : State) : (s.withFrameOf t).cursor = s.cursor := rfl
@[simp] theorem withFrameOf_txlen (s t : State) : (s.withFrameOf t).txlen = s.txlen := rfl
@[simp] theorem withFrameOf_txEn (s t : State) : (s.withFrameOf t).txEn = s.txEn := rfl
@[simp] theorem withFrameOf_timerEn (s t : State) : (s.withFrameOf t).timerEn = s.timerEn := rfl
@[simp] theorem withFrameOf_fault (s t : State) : (s.withFrameOf t).fault = s.fault := rfl
@[simp] theorem withFrameOf_trace (s t : State) : (s.withFrameOf t).trace = t.trace := rfl
@[simp] theorem withFrameOf_stream (s t : State) : (s.withFrameOf t).stream = s.stream := rfl
@[simp] theorem withFrameOf_turns (s t : State) : (s.withFrameOf t).turns = s.turns := rfl
@[simp] theorem withFrameOf_settle (s t : State) : (s.withFrameOf t).settle = s.settle := rfl
@[simp] theorem withFrameOf_draws (s t : State) : (s.withFrameOf t).draws = s.draws := rfl

/-! ### raiseFault -/

@[simp] theorem raiseFault_cfg (s : State) (reason : ModelFault) : (s.raiseFault reason).cfg = s.cfg := by
  unfold raiseFault; split <;> rfl
@[simp] theorem raiseFault_fstate (s : State) (reason : ModelFault) : (s.raiseFault reason).fstate = s.fstate := by
  unfold raiseFault; split <;> rfl
@[simp] theorem raiseFault_ferr (s : State) (reason : ModelFault) : (s.raiseFault reason).ferr = s.ferr := by
  unfold raiseFault; split <;> rfl
@[simp] theorem raiseFault_crc (s : State) (reason : ModelFault) : (s.raiseFault reason).crc = s.crc := by
  unfold raiseFault; split <;> rfl
@[simp] theorem raiseFault_ones (s : State) (reason : ModelFault) : (s.raiseFault reason).ones = s.ones := by
  unfold raiseFault; split <;> rfl
@[simp] theorem raiseFault_bitlen (s : State) (reason : ModelFault) : (s.raiseFault reason).bitlen = s.bitlen := by
  unfold raiseFault; split <;> rfl
@[simp] theorem raiseFault_outb (s : State) (reason : ModelFault) : (s.raiseFault reason).outb = s.outb := by
  unfold raiseFault; split <;> rfl
@[simp] theorem raiseFault_buf (s : State) (reason : ModelFault) : (s.raiseFault reason).buf = s.buf := by
  unfold raiseFault; split <;> rfl
@[simp] theorem raiseFault_sstate (s : State) (reason : ModelFault) : (s.raiseFault reason).sstate = s.sstate := by
  unfold raiseFault; split <;> rfl
@[simp] theorem raiseFault_active (s : State) (reason : ModelFault) : (s.raiseFault reason).active = s.active := by
  unfold raiseFault; split <;> rfl
@[simp] theorem raiseFault_tone (s : State) (reason : ModelFault) : (s.raiseFault reason).tone = s.tone := by
  unfold raiseFault; split <;> rfl
@[simp] theorem raiseFault_phase (s : State) (reason : ModelFault) : (s.raiseFault reason).phase = s.phase := by
  unfold raiseFault; split <;> rfl
@[simp] theorem raiseFault_inc (s : State) (reason : ModelFault) : (s.raiseFault reason).inc = s.inc := by
  unfold raiseFault; split <;> rfl
@[simp] theorem raiseFault_budget (s : State) (reason : ModelFault) : (s.raiseFault reason).budget = s.budget := by
  unfold raiseFault; split <;> rfl
@[simp] theorem raiseFault_cursor (s : State) (reason : ModelFault) : (s.raiseFault reason).cursor = s.cursor := by
  unfold raiseFault; split <;> rfl
@[simp] theorem raiseFault_txlen (s : State) (reason : ModelFault) : (s.raiseFault reason).txlen = s.txlen := by
  unfold raiseFault; split <;> rfl
@[simp] theorem raiseFault_txEn (s : State) (reason : ModelFault) : (s.raiseFault reason).txEn = s.txEn := by
  unfold raiseFault; split <;> rfl
@[simp] theorem raiseFault_timerEn (s : State) (reason : ModelFault) : (s.raiseFault reason).timerEn = s.timerEn := by
  unfold raiseFault; split <;> rfl
@[simp] theorem raiseFault_fault (s : State) (reason : ModelFault) :
    (s.raiseFault reason).fault = some (s.fault.getD reason) := by
  unfold raiseFault; cases h : s.fault <;> simp [h]
@[simp] theorem raiseFault_trace (s : State) (reason : ModelFault) : (s.raiseFault reason).trace = s.trace := by
  unfold raiseFault; split <;> rfl
@[simp] theorem raiseFault_stream (s : State) (reason : ModelFault) : (s.raiseFault reason).stream = s.stream := by
  unfold raiseFault; split <;> rfl
@[simp] theorem raiseFault_turns (s : State) (reason : ModelFault) : (s.raiseFault reason).turns = s.turns := by
  unfold raiseFault; split <;> rfl
@[simp] theorem raiseFault_settle (s : State) (reason : ModelFault) : (s.raiseFault reason).settle = s.settle := by
  unfold raiseFault; split <;> rfl
@[simp] theorem raiseFault_draws (s : State) (reason : ModelFault) : (s.raiseFault reason).draws = s.draws := by
  unfold raiseFault; split <;> rfl

/-! ### the draws -/

@[simp] theorem drawByte_cfg (s : State) : s.drawByte.2.cfg = s.cfg := rfl
@[simp] theorem drawByte_fstate (s : State) : s.drawByte.2.fstate = s.fstate := rfl
@[simp] theorem drawByte_ferr (s : State) : s.drawByte.2.ferr = s.ferr := rfl
@[simp] theorem drawByte_crc (s : State) : s.drawByte.2.crc = s.crc := rfl
@[simp] theorem drawByte_ones (s : State) : s.drawByte.2.ones = s.ones := rfl
@[simp] theorem drawByte_bitlen (s : State) : s.drawByte.2.bitlen = s.bitlen := rfl
@[simp] theorem drawByte_outb (s : State) : s.drawByte.2.outb = s.outb := rfl
@[simp] theorem drawByte_buf (s : State) : s.drawByte.2.buf = s.buf := rfl
@[simp] theorem drawByte_sstate (s : State) : s.drawByte.2.sstate = s.sstate := rfl
@[simp] theorem drawByte_active (s : State) : s.drawByte.2.active = s.active := rfl
@[simp] theorem drawByte_tone (s : State) : s.drawByte.2.tone = s.tone := rfl
@[simp] theorem drawByte_phase (s : State) : s.drawByte.2.phase = s.phase := rfl
@[simp] theorem drawByte_inc (s : State) : s.drawByte.2.inc = s.inc := rfl
@[simp] theorem drawByte_budget (s : State) : s.drawByte.2.budget = s.budget := rfl
@[simp] theorem drawByte_cursor (s : State) : s.drawByte.2.cursor = s.cursor := rfl
@[simp] theorem drawByte_txlen (s : State) : s.drawByte.2.txlen = s.txlen := rfl
@[simp] theorem drawByte_txEn (s : State) : s.drawByte.2.txEn = s.txEn := rfl
@[simp] theorem drawByte_timerEn (s : State) : s.drawByte.2.timerEn = s.timerEn := rfl
@[simp] theorem drawByte_fault (s : State) : s.drawByte.2.fault = s.fault := rfl
@[simp] theorem drawByte_trace (s : State) : s.drawByte.2.trace = s.trace := rfl
@[simp] theorem drawByte_stream (s : State) : s.drawByte.2.stream = s.stream := rfl
@[simp] theorem drawByte_turns (s : State) : s.drawByte.2.turns = s.turns := rfl
@[simp] theorem drawByte_settle (s : State) : s.drawByte.2.settle = s.settle := rfl
@[simp] theorem drawByte_draws (s : State) : s.drawByte.2.draws = s.draws + 1 := rfl
@[simp] theorem drawSettle_cfg (s : State) : s.drawSettle.2.cfg = s.cfg := by
  unfold drawSettle; split <;> rfl
@[simp] theorem drawSettle_fstate (s : State) : s.drawSettle.2.fstate = s.fstate := by
  unfold drawSettle; split <;> rfl
@[simp] theorem drawSettle_ferr (s : State) : s.drawSettle.2.ferr = s.ferr := by
  unfold drawSettle; split <;> rfl
@[simp] theorem drawSettle_crc (s : State) : s.drawSettle.2.crc = s.crc := by
  unfold drawSettle; split <;> rfl
@[simp] theorem drawSettle_ones (s : State) : s.drawSettle.2.ones = s.ones := by
  unfold drawSettle; split <;> rfl
@[simp] theorem drawSettle_bitlen (s : State) : s.drawSettle.2.bitlen = s.bitlen := by
  unfold drawSettle; split <;> rfl
@[simp] theorem drawSettle_outb (s : State) : s.drawSettle.2.outb = s.outb := by
  unfold drawSettle; split <;> rfl
@[simp] theorem drawSettle_buf (s : State) : s.drawSettle.2.buf = s.buf := by
  unfold drawSettle; split <;> rfl
@[simp] theorem drawSettle_sstate (s : State) : s.drawSettle.2.sstate = s.sstate := by
  unfold drawSettle; split <;> rfl
@[simp] theorem drawSettle_active (s : State) : s.drawSettle.2.active = s.active := by
  unfold drawSettle; split <;> rfl
@[simp] theorem drawSettle_tone (s : State) : s.drawSettle.2.tone = s.tone := by
  unfold drawSettle; split <;> rfl
@[simp] theorem drawSettle_phase (s : State) : s.drawSettle.2.phase = s.phase := by
  unfold drawSettle; split <;> rfl
@[simp] theorem drawSettle_inc (s : State) : s.drawSettle.2.inc = s.inc := by
  unfold drawSettle; split <;> rfl
@[simp] theorem drawSettle_budget (s : State) : s.drawSettle.2.budget = s.budget := by
  unfold drawSettle; split <;> rfl
@[simp] theorem drawSettle_cursor (s : State) : s.drawSettle.2.cursor = s.cursor := by
  unfold drawSettle; split <;> rfl
@[simp] theorem drawSettle_txlen (s : State) : s.drawSettle.2.txlen = s.txlen := by
  unfold drawSettle; split <;> rfl
@[simp] theorem drawSettle_txEn (s : State) : s.drawSettle.2.txEn = s.txEn := by
  unfold drawSettle; split <;> rfl
@[simp] theorem drawSettle_timerEn (s : State) : s.drawSettle.2.timerEn = s.timerEn := by
  unfold drawSettle; split <;> rfl
@[simp] theorem drawSettle_fault (s : State) : s.drawSettle.2.fault = s.fault := by
  unfold drawSettle; split <;> rfl
@[simp] theorem drawSettle_trace (s : State) : s.drawSettle.2.trace = s.trace := by
  unfold drawSettle; split <;> rfl
@[simp] theorem drawSettle_stream (s : State) : s.drawSettle.2.stream = s.stream := by
  unfold drawSettle; split <;> rfl
@[simp] theorem drawSettle_turns (s : State) : s.drawSettle.2.turns = s.turns := by
  unfold drawSettle; split <;> rfl

/-! ### reads of updated states -/

@[simp] theorem memRead?_emit (s : State) (e : Output) (i : Nat) : (s.emit e).memRead? i = s.memRead? i := rfl
@[simp] theorem extent_emit (s : State) (e : Output) : (s.emit e).extent = s.extent := rfl
@[simp] theorem frameBits_emit (s : State) (e : Output) : (s.emit e).frameBits = s.frameBits := rfl
@[simp] theorem frameBits_respond (s : State) (code : RespCode) (value : BitVec 32) :
    (s.respond code value).frameBits = s.frameBits := rfl
@[simp] theorem frameBits_respondFerr (s : State) : s.respondFerr.frameBits = s.frameBits := rfl

/-- `raiseFault` where FAULT is none. -/
theorem raiseFault_of_none {s : State} (reason : ModelFault) (h : s.fault = none) :
    s.raiseFault reason = { s with fault := some reason } := by
  unfold raiseFault; rw [h]

/-- `raiseFault` keeps the first reason. -/
theorem raiseFault_of_some {s : State} {old : ModelFault} (reason : ModelFault) (h : s.fault = some old) :
    s.raiseFault reason = s := by
  unfold raiseFault; rw [h]

/-- A state that differs from `s` in the Frame Builder's registers, BUF and the trace alone. -/
theorem eq_withFrameOf {s t : State} (h1 : t.cfg = s.cfg) (h2 : t.sstate = s.sstate) (h3 : t.active = s.active)
    (h4 : t.tone = s.tone) (h5 : t.phase = s.phase) (h6 : t.inc = s.inc) (h7 : t.budget = s.budget)
    (h8 : t.cursor = s.cursor) (h9 : t.txlen = s.txlen) (h10 : t.txEn = s.txEn) (h11 : t.timerEn = s.timerEn)
    (h12 : t.fault = s.fault) (h13 : t.stream = s.stream) (h14 : t.turns = s.turns) (h15 : t.settle = s.settle)
    (h16 : t.draws = s.draws) : t = s.withFrameOf t := by
  cases t
  simp only at h1 h2 h3 h4 h5 h6 h7 h8 h9 h10 h11 h12 h13 h14 h15 h16
  subst_vars
  rfl

end Sys2Proof.Machine.State
end

