-- ==== Sys2Proof/Laws/Stuffing.lean ====
section
/-! SUPPORT. Stuffing as a function on lists of bits: over appended lists, its inverse, and the runs it leaves. -/

set_option Elab.async false

namespace Sys2Proof.Machine

theorem onesAfter_append (n : Nat) (bits more : List Bool) :
    onesAfter n (bits ++ more) = onesAfter (onesAfter n bits) more := by
  induction bits generalizing n with
  | nil => rfl
  | cons v bits ih => cases v <;> simp only [List.cons_append, onesAfter] <;> (try split) <;> exact ih _

theorem stuffFrom_append (n : Nat) (bits more : List Bool) :
    stuffFrom n (bits ++ more) = stuffFrom n bits ++ stuffFrom (onesAfter n bits) more := by
  induction bits generalizing n with
  | nil => rfl
  | cons v bits ih =>
    cases v
    · simp only [List.cons_append, stuffFrom, onesAfter, ih]
    · simp only [List.cons_append, stuffFrom, onesAfter]
      split <;> simp [ih]

theorem onesAfter_le (n : Nat) (hn : n ≤ 4) (bits : List Bool) : onesAfter n bits ≤ 4 := by
  induction bits generalizing n with
  | nil => exact hn
  | cons v bits ih =>
    cases v
    · exact ih 0 (by omega)
    · simp only [onesAfter]
      split
      · exact ih 0 (by omega)
      · exact ih (n + 1) (by omega)

/-- All of them fit where their stuffed bits do. -/
theorem fitting_of_fit {room n : Nat} {bits : List Bool} (h : (stuffFrom n bits).length ≤ room) :
    fitting room n bits = bits := by
  induction bits generalizing room n with
  | nil => simp [fitting]
  | cons v bits ih =>
    obtain _ | room := room
    · cases v <;> simp only [stuffFrom] at h
      · simp at h
      · split at h <;> simp at h
    · cases v <;> simp only [stuffFrom, fitting] at h ⊢
      · rw [ih (by simpa using h)]
      · split at h <;> simp only [List.length_cons] at h
        · rw [if_pos ‹_›, ih (by omega)]
        · rw [if_neg ‹_›, ih (by omega)]

/-- After a bit that fits, stuffed, the rest has the room it left. -/
theorem fitting_cons_of_fit {room n : Nat} {v : Bool} (h : (stuffFrom n [v]).length ≤ room) (bits : List Bool) :
    fitting room n (v :: bits) = v :: fitting (room - (stuffFrom n [v]).length) (onesAfter n [v]) bits := by
  obtain _ | room := room
  · cases v <;> simp only [stuffFrom] at h
    · simp at h
    · split at h <;> simp at h
  · cases v
    · rfl
    · simp only [stuffFrom, onesAfter, fitting]
      split <;> simp

/-- After a bit that does not fit, stuffed, nothing does. -/
theorem fitting_cons_of_overflow {room n : Nat} {v : Bool} (h : room < (stuffFrom n [v]).length) (bits : List Bool) :
    fitting room n (v :: bits) = fitting room n [v] := by
  obtain _ | room := room
  · rfl
  · cases v <;> simp only [stuffFrom, fitting] at h ⊢
    · simp at h
    · split at h <;> simp only [List.length_cons, List.length_nil] at h
      · obtain rfl : room = 0 := by omega
        subst_vars
        cases bits <;> rfl
      · omega

/-- Destuffing undoes stuffing. -/
theorem destuffFrom_stuffFrom (n : Nat) (hn : n ≤ 4) (bits : List Bool) :
    destuffFrom n (stuffFrom n bits) = bits := by
  induction bits generalizing n with
  | nil => rfl
  | cons v bits ih =>
    cases v
    · simp only [stuffFrom, destuffFrom]
      rw [if_neg (by omega)]
      simp [ih 0 (by omega)]
    · simp only [stuffFrom]
      split
      · subst_vars
        simp [destuffFrom, ih 0 (by omega)]
      · simp only [destuffFrom]
        rw [if_neg (by omega)]
        simp [ih (n + 1) (by omega)]

/-- The longest run of ones at the front of a list. -/
def frontOnes : List Bool → Nat
  | true :: bits => frontOnes bits + 1
  | false :: _ => 0
  | [] => 0

/-- Six ones in a row start with six front ones. -/
theorem six_le_frontOnes {l : List Bool} (h : List.replicate 6 true <+: l) : 6 ≤ frontOnes l := by
  obtain ⟨tail, rfl⟩ := h
  simp [List.replicate, frontOnes]

theorem frontOnes_replicate (n : Nat) (l : List Bool) : frontOnes (List.replicate n true ++ l) = n + frontOnes l := by
  induction n with
  | zero => simp
  | succ n ih => simp [List.replicate_succ, frontOnes, ih]; omega

/-- At most five ones before a 0 make no six in a row where the bits after it have none. -/
theorem no_six_ones_cons {l : List Bool} (hl : ¬ List.replicate 6 true <:+: l) :
    ∀ m, m ≤ 5 → ¬ List.replicate 6 true <:+: (List.replicate m true ++ false :: l)
  | 0, _, h => by
    rw [List.replicate_zero, List.nil_append] at h
    rcases List.infix_cons_iff.mp h with h | h
    · have := six_le_frontOnes h
      simp [frontOnes] at this
    · exact hl h
  | m + 1, hm, h => by
    rw [List.replicate_succ (n := m), List.cons_append] at h
    rcases List.infix_cons_iff.mp h with h | h
    · have := six_le_frontOnes h
      simp only [frontOnes, frontOnes_replicate] at this
      omega
    · exact no_six_ones_cons hl m (by omega) h

/-- Stuffed bits hold no six ones in a row, the ones counted before them included. -/
theorem no_six_ones_stuffFrom (n : Nat) (hn : n ≤ 4) (bits : List Bool) :
    ¬ List.replicate 6 true <:+: (List.replicate n true ++ stuffFrom n bits) := by
  induction bits generalizing n with
  | nil =>
    intro h
    have := h.length_le
    simp [stuffFrom] at this
    omega
  | cons v bits ih =>
    cases v
    · exact no_six_ones_cons (by simpa using ih 0 (by omega)) n (by omega)
    · simp only [stuffFrom]
      split
      · subst_vars
        exact no_six_ones_cons (by simpa using ih 0 (by omega)) 5 (by omega)
      · have := ih (n + 1) (by omega)
        rwa [List.replicate_succ' (n := n), List.append_assoc, List.singleton_append] at this

end Sys2Proof.Machine
end

