-- ==== Sys2Proof/Laws/Emit.lean ====
section
/-! SUPPORT. What emitting bits does to an open frame: said once for one bit (`emitPlain_emitted`, `emitContent_emitted`)
and once for lists of bits and bytes; callers cite these and do not unfold `emitBit`. -/

set_option Elab.async false

namespace Sys2Proof.Machine

/-! ## The output byte -/

/-- `setMsb` changes the one bit. -/
theorem getMsbD_setMsb (b : Byte) (v : Bool) {i j : Nat} (hi : i < 8) (hj : j < 8) :
    (setMsb b i v).getMsbD j = if j = i then v else b.getMsbD j := by
  have h80 : ∀ k, k < 8 → (0x80#8).getMsbD k = decide (k = 0) := by decide
  have hs : (0x80#8 >>> i).getMsbD j = decide (j = i) := by
    rw [BitVec.getMsbD_ushiftRight]
    by_cases h : j < i
    · simp [h]; omega
    · rw [h80 _ (by omega)]
      simp only [h, hj, decide_true, Bool.true_and, decide_false, Bool.not_false, decide_eq_decide]
      omega
  unfold setMsb
  cases v
  · rw [if_neg (by simp), BitVec.getMsbD_and, BitVec.getMsbD_not, hs]
    by_cases h : j = i <;> simp [h, hj]
  · rw [if_pos rfl, BitVec.getMsbD_or, hs]
    by_cases h : j = i <;> simp [h]

/-- The low 8 − n bits of a byte are zero exactly when its bits from `n` on, counted from the most significant, are. -/
theorem pad_iff (b : Byte) {n : Nat} (hn : n ≤ 8) :
    b.toNat % 2 ^ (8 - n) = 0 ↔ ∀ j, n ≤ j → j < 8 → b.getMsbD j = false := by
  constructor
  · intro h j hnj hj
    have : (b.toNat % 2 ^ (8 - n)).testBit (7 - j) = false := by rw [h]; simp
    rw [Nat.testBit_mod_two_pow] at this
    rw [BitVec.getMsbD]
    simp only [BitVec.getLsbD]
    simp only [show 7 - j < 8 - n by omega, decide_true, Bool.true_and] at this
    rw [show 8 - 1 - j = 7 - j by omega, this, Bool.and_false]
  · intro h
    refine Nat.eq_of_testBit_eq fun i => ?_
    rw [Nat.testBit_mod_two_pow, Nat.zero_testBit]
    by_cases hi : i < 8 - n
    · have := h (7 - i) (by omega) (by omega)
      rw [BitVec.getMsbD] at this
      simp only [show 7 - i < 8 by omega, decide_true, Bool.true_and, show 8 - 1 - (7 - i) = i by omega,
        BitVec.getLsbD] at this
      simp [this]
    · simp [hi]

/-! ## Open frames -/

/-- A state whose frame is open and lawful: what emission needs and keeps. -/
structure State.Building (s : State) : Prop where
  legal : s.cfg.legal = true
  mem : MemoryInv s
  opened : s.fstate = .opened
  ones : s.ones.toNat ≤ 4
  bitlen : s.bitlen.toNat ≤ s.cfg.capBits
  pad : s.outb.toNat % 2 ^ (8 - s.bitlen.toNat % 8) = 0

theorem State.Inv.building {s : State} (h : s.Inv) (ho : s.fstate = .opened) : s.Building :=
  ⟨h.legal, h.mem, ho, h.frame.ones, h.frame.bitlen, h.frame.pad⟩

@[simp] theorem State.length_frameBits (s : State) : s.frameBits.length = s.bitlen.toNat := by
  simp [State.frameBits]

theorem State.extent_opened {s : State} (h : s.fstate = .opened) : s.extent = s.bitlen.toNat / 8 := by
  simp [State.extent, h]

theorem State.extent_finalized {s : State} (h : s.fstate = .finalized) : s.extent = (s.bitlen.toNat + 7) / 8 := by
  simp [State.extent, h]

/-- A frame bit whose byte stands in BUF (R61). -/
theorem State.frameBit_of_lt {s : State} {k : Nat} (h : k / 8 < s.extent) :
    s.frameBit k = (s.buf.read (k / 8)).getMsbD (k % 8) := by
  rw [State.frameBit, if_pos h]

/-- A frame bit still in OUTB (R27). -/
theorem State.frameBit_of_le {s : State} {k : Nat} (h : s.extent ≤ k / 8) : s.frameBit k = s.outb.getMsbD (k % 8) := by
  rw [State.frameBit, if_neg (by omega)]

/-- Two states with the same bits up to their common BITLEN have the same frame bits. -/
theorem State.frameBits_congr {s t : State} (hl : t.bitlen = s.bitlen)
    (h : ∀ k, k < s.bitlen.toNat → t.frameBit k = s.frameBit k) : t.frameBits = s.frameBits := by
  unfold State.frameBits
  rw [hl]
  exact List.map_congr_left fun k hk => h k (List.mem_range.mp hk)

/-- The Frame Builder's other registers do not matter to BUF's form. -/
theorem MemoryInv.congr {s t : State} (h : MemoryInv s) (hb : t.buf = s.buf) (hc : t.cfg = s.cfg) : MemoryInv t :=
  ⟨hb ▸ h.wf, by rw [hb, hc]; exact h.inside⟩

/-- What packing one bit does, where there is room. -/
theorem State.pack_spec {s : State} (h : s.Building) (hf : s.bitlen.toNat < s.cfg.capBits) (v : Bool) :
    (s.pack v).Building ∧ (s.pack v).bitlen.toNat = s.bitlen.toNat + 1 ∧ (s.pack v).frameBits = s.frameBits ++ [v] ∧
    (∀ idx, idx < s.bitlen.toNat / 8 ∨ (s.bitlen.toNat + 1) / 8 ≤ idx →
      (s.pack v).buf.read idx = s.buf.read idx) ∧
    s.pack v = { s with bitlen := (s.pack v).bitlen, outb := (s.pack v).outb, buf := (s.pack v).buf } := by
  have hcap := Config.capBits_le h.legal
  have hb : (s.bitlen + 1#20).toNat = s.bitlen.toNat + 1 := by
    rw [BitVec.toNat_add]; simp; omega
  have hm : s.bitlen.toNat / 8 < s.cfg.maxFrameBytes := by
    simp only [Config.capBits] at hf; omega
  have hpad := (pad_iff s.outb (by omega)).mp h.pad
  have hset := fun j hj => getMsbD_setMsb s.outb v (i := s.bitlen.toNat % 8) (j := j) (by omega) hj
  have hidx : (s.bitlen.toNat + 1) / 8 - 1 = s.bitlen.toNat / 8 ∨ (s.bitlen.toNat + 1) % 8 ≠ 0 := by omega
  by_cases h8 : (s.bitlen.toNat + 1) % 8 = 0
  · have hidx : (s.bitlen.toNat + 1) / 8 - 1 = s.bitlen.toNat / 8 := by omega
    have hp : s.pack v =
        { s with
          bitlen := s.bitlen + 1#20, outb := 0#8
          buf := s.buf.write (s.bitlen.toNat / 8) (setMsb s.outb (s.bitlen.toNat % 8) v) } := by
      simp only [State.pack, hb, h8, if_true, hidx, State.memWrite]
    have hr := fun b => Memory.read_write (s.bitlen.toNat / 8) b (setMsb s.outb (s.bitlen.toNat % 8) v) h.mem.wf
    have he : s.extent = s.bitlen.toNat / 8 := by simp [State.extent, h.opened]
    refine ⟨?_, by rw [hp]; exact hb, ?_, ?_, by rw [hp]⟩
    · rw [hp]
      exact ⟨h.legal, ⟨Memory.write_wf _ _ h.mem.wf, Memory.write_lt hm h.mem.inside⟩, h.opened, h.ones,
        by simp only [hb]; omega, by simp⟩
    · rw [hp]
      simp only [State.frameBits, hb, List.range_succ, List.map_append, List.map_cons, List.map_nil]
      congr 1
      · refine List.map_congr_left fun k hk => ?_
        have hk := List.mem_range.mp hk
        simp only [State.frameBit, State.extent, h.opened, hb, hr]
        by_cases hk8 : k / 8 < s.bitlen.toNat / 8
        · rw [if_pos (by omega), if_pos hk8, if_neg (by omega)]
        · rw [if_pos (by omega), if_neg hk8, if_pos (by omega), hset _ (by omega), if_neg (by omega)]
      · simp only [State.frameBit, State.extent, h.opened, hb, hr]
        rw [if_pos (by omega), if_pos trivial, hset _ (by omega), if_pos rfl]
    · intro idx hi
      rw [hp]
      simp only [hr]
      rw [if_neg (by omega)]
  · have hp : s.pack v =
        { s with bitlen := s.bitlen + 1#20, outb := setMsb s.outb (s.bitlen.toNat % 8) v } := by
      simp only [State.pack, hb, h8, if_false]
    refine ⟨?_, by rw [hp]; exact hb, ?_, fun idx _ => by rw [hp], by rw [hp]⟩
    · rw [hp]
      refine ⟨h.legal, h.mem.congr rfl rfl, h.opened, h.ones, by simp only [hb]; omega, ?_⟩
      simp only [hb]
      rw [pad_iff _ (by omega)]
      intro j hj hj8
      rw [hset j hj8, if_neg (by omega)]
      exact hpad j (by omega) hj8
    · rw [hp]
      simp only [State.frameBits, hb, List.range_succ, List.map_append, List.map_cons, List.map_nil]
      congr 1
      · refine List.map_congr_left fun k hk => ?_
        have hk := List.mem_range.mp hk
        simp only [State.frameBit, State.extent, h.opened, hb]
        by_cases hk8 : k / 8 < s.bitlen.toNat / 8
        · rw [if_pos (by omega), if_pos hk8]
        · rw [if_neg (by omega), if_neg hk8, hset _ (by omega), if_neg (by omega)]
      · simp only [State.frameBit, State.extent, h.opened, hb]
        rw [if_neg (by omega), hset _ (by omega), if_pos rfl]

/-! ## Emission -/

/-- Emission has turned `s` into `t`, appending `bits` as far as the capacity goes: only the Frame Builder's working
registers and the bytes it completed have changed. -/
structure Emitted (s t : State) (bits : List Bool) : Prop where
  building : t.Building
  only : t = { s with ferr := t.ferr, crc := t.crc, ones := t.ones, bitlen := t.bitlen, outb := t.outb, buf := t.buf }
  frame : t.frameBits = (s.frameBits ++ bits).take s.cfg.capBits
  ferr : t.ferr = if s.bitlen.toNat + bits.length ≤ s.cfg.capBits then .none else .overflow
  window : ∀ idx, idx < s.bitlen.toNat / 8 ∨ t.bitlen.toNat / 8 ≤ idx → t.buf.read idx = s.buf.read idx

namespace Emitted

variable {s t u : State} {bits more : List Bool}

theorem cfg (h : Emitted s t bits) : t.cfg = s.cfg := by rw [h.only]

theorem length (h : Emitted s t bits) : t.bitlen.toNat = min s.cfg.capBits (s.bitlen.toNat + bits.length) := by
  rw [← State.length_frameBits, h.frame]; simp

theorem refl (hs : s.Building) (hn : s.ferr = .none) : Emitted s s [] where
  building := hs
  only := rfl
  frame := by
    rw [List.append_nil, List.take_of_length_le]
    simpa using hs.bitlen
  ferr := by rw [if_pos (by simpa using hs.bitlen), hn]
  window := fun _ _ => rfl

/-- Whether all the bits fit is what FERR says. -/
theorem ferr_none_iff (h : Emitted s t bits) :
    t.ferr = .none ↔ s.bitlen.toNat + bits.length ≤ s.cfg.capBits := by
  rw [h.ferr]; split <;> simp_all

/-- Emission after emission, the first without an overflow. -/
theorem trans (h : Emitted s t bits) (hn : t.ferr = .none) (h' : Emitted t u more) : Emitted s u (bits ++ more) where
  building := h'.building
  only := by rw [h'.only, h.only]
  frame := by
    have hl := h.length
    have hfit := h.ferr_none_iff.mp hn
    rw [h'.frame, h.frame, h.cfg, List.take_of_length_le (l := s.frameBits ++ bits) (by simpa using hfit),
      List.append_assoc]
  ferr := by
    have hl := h.length
    have hfit := h.ferr_none_iff.mp hn
    rw [h'.ferr, h.cfg, List.length_append, hl, Nat.min_eq_right hfit, Nat.add_assoc]
  window := fun idx hi => by
    have h1 := h.length
    have h2 := h'.length
    have h3 := h.ferr_none_iff.mp hn
    have h4 := h.cfg
    rw [h4] at h2
    rw [h'.window idx (by omega), h.window idx (by omega)]

/-- After an overflow further bits are dropped. -/
theorem dropped (h : Emitted s t bits) (hn : t.ferr ≠ .none) (more : List Bool) : Emitted s t (bits ++ more) where
  building := h.building
  only := h.only
  frame := by
    have hfit : ¬(s.bitlen.toNat + bits.length ≤ s.cfg.capBits) := fun hf => hn (h.ferr_none_iff.mpr hf)
    have hle : s.cfg.capBits ≤ (s.frameBits ++ bits).length := by
      rw [List.length_append, State.length_frameBits]; omega
    rw [h.frame, ← List.append_assoc, List.take_append_of_le_length hle]
  ferr := by
    have hfit : ¬(s.bitlen.toNat + bits.length ≤ s.cfg.capBits) := fun hf => hn (h.ferr_none_iff.mpr hf)
    rw [h.ferr, if_neg hfit, List.length_append, if_neg (by omega)]
  window := h.window

end Emitted

/-- Nothing is emitted after an error. -/
theorem State.emitBits_of_error {s : State} (h : s.ferr ≠ .none) (bits : List Bool) (subject : Bool) :
    s.emitBits bits subject = s := by
  unfold State.emitBits
  induction bits with
  | nil => rfl
  | cons v bits ih =>
    rw [List.foldl_cons]
    have : s.emitBit v subject = s := by
      unfold State.emitBit State.emitContent State.emitPlain
      simp [h]
    rw [this]
    exact ih

@[simp] theorem State.emitBits_nil (s : State) (subject : Bool) : s.emitBits [] subject = s := rfl

theorem State.emitBits_cons (s : State) (v : Bool) (bits : List Bool) (subject : Bool) :
    s.emitBits (v :: bits) subject = (s.emitBit v subject).emitBits bits subject := rfl

theorem State.emitBits_append (s : State) (bits more : List Bool) (subject : Bool) :
    s.emitBits (bits ++ more) subject = (s.emitBits bits subject).emitBits more subject := by
  simp [State.emitBits, List.foldl_append]

/-- Emitting bytes is emitting their bits. -/
theorem State.emitBytes_eq (s : State) (bytes : List Byte) (subject : Bool) :
    s.emitBytes bytes subject = s.emitBits (bytesBits bytes) subject := by
  unfold State.emitBytes
  induction bytes generalizing s with
  | nil => rfl
  | cons b bytes ih =>
    rw [List.foldl_cons, ih, show bytesBits (b :: bytes) = byteBits b ++ bytesBits bytes from rfl,
      State.emitBits_append]

/-- The bits of flags are those of the flag byte. -/
theorem bytesBits_flags (n : Nat) : bytesBits (List.replicate n flagByte) = flagsBits n := by
  unfold bytesBits flagsBits
  induction n with
  | zero => rfl
  | succ n ih =>
    rw [List.replicate_succ, List.flatMap_cons, ih, List.replicate_succ, List.flatten_cons]
    rfl

theorem State.emitFlags_eq (s : State) (n : Nat) : s.emitFlags n = s.emitBits (flagsBits n) false := by
  rw [State.emitFlags, State.emitBytes_eq, bytesBits_flags]

/-- One bit that finds the buffer full. -/
theorem State.full_iff (s : State) : s.full = true ↔ s.cfg.capBits ≤ s.bitlen.toNat := by
  simp [State.full]

theorem emitted_overflow {s : State} (h : s.Building) (hf : s.cfg.capBits ≤ s.bitlen.toNat) {bits : List Bool}
    (hb : bits ≠ []) : Emitted s { s with ferr := .overflow } bits where
  building := ⟨h.legal, h.mem.congr rfl rfl, h.opened, h.ones, h.bitlen, h.pad⟩
  only := rfl
  frame := by
    have := h.bitlen
    rw [List.take_append_of_le_length (by simpa using hf), List.take_of_length_le (by simpa using this)]
    rfl
  ferr := by
    have := List.length_pos_of_ne_nil hb
    rw [if_neg (by omega)]
  window := fun _ _ => rfl

/-- A flag bit or a stuffed bit (R120). -/
theorem emitPlain_emitted {s : State} (h : s.Building) (hn : s.ferr = .none) (v : Bool) :
    Emitted s (s.emitPlain v) [v] ∧ (s.emitPlain v).crc = s.crc ∧
    (s.emitPlain v).ones = if v = true ∨ s.cfg.capBits ≤ s.bitlen.toNat then s.ones else 0#3 := by
  by_cases hf : s.cfg.capBits ≤ s.bitlen.toNat
  · have : s.emitPlain v = { s with ferr := .overflow } := by
      simp [State.emitPlain, hn, s.full_iff.mpr hf]
    rw [this]
    exact ⟨emitted_overflow h hf (by simp), rfl, by rw [if_pos (.inr hf)]⟩
  · obtain ⟨hB, hlen, hbits, hwin, honly⟩ := State.pack_spec h (by omega) v
    have hfull : s.full = false := by simpa [State.full] using hf
    have hp : s.emitPlain v = if v then s.pack v else { s.pack v with ones := 0#3 } := by
      simp [State.emitPlain, hn, hfull]
    have hferr : (s.pack v).ferr = .none := by rw [honly]; exact hn
    have hcrc : (s.pack v).crc = s.crc := by rw [honly]
    have hones : (s.pack v).ones = s.ones := by rw [honly]
    have htake : s.frameBits ++ [v] = (s.frameBits ++ [v]).take s.cfg.capBits := by
      rw [List.take_of_length_le]; simp; omega
    have hfit : s.bitlen.toNat + [v].length ≤ s.cfg.capBits := by simp; omega
    cases v
    · rw [hp, if_neg (by simp)]
      refine ⟨⟨⟨hB.legal, hB.mem.congr rfl rfl, hB.opened, by simp, hB.bitlen, hB.pad⟩, ?_, hbits.trans htake, ?_, ?_⟩, hcrc,
        by rw [if_neg (by simp; omega)]⟩
      · rw [honly]
      · rw [if_pos hfit]; exact hferr
      · intro idx hi; exact hwin idx (by simpa only [hlen] using hi)
    · rw [hp, if_pos rfl]
      refine ⟨⟨hB, ?_, hbits.trans htake, ?_, ?_⟩, hcrc, by rw [if_pos (.inl rfl), hones]⟩
      · rw [honly]
      · rw [if_pos hfit]; exact hferr
      · intro idx hi; exact hwin idx (by simpa only [hlen] using hi)

/-- Flag bits in a row: each 0 that fits clears ONES, a 1 leaves it (R120, R121). -/
theorem emitBits_plain {s : State} (h : s.Building) (hn : s.ferr = .none) (bits : List Bool) :
    Emitted s (s.emitBits bits false) bits ∧ (s.emitBits bits false).crc = s.crc ∧
    (s.emitBits bits false).ones =
      (bits.take (s.cfg.capBits - s.bitlen.toNat)).foldl (fun n v => if v then n else 0#3) s.ones := by
  induction bits generalizing s with
  | nil => exact ⟨.refl h hn, rfl, by simp⟩
  | cons v bits ih =>
    obtain ⟨h1, hcrc, hones⟩ := emitPlain_emitted h hn v
    rw [State.emitBits_cons]
    have he : s.emitBit v false = s.emitPlain v := rfl
    rw [he]
    by_cases hv : (s.emitPlain v).ferr = .none
    · obtain ⟨h2, hcrc2, hones2⟩ := ih h1.building hv
      have hfit := h1.ferr_none_iff.mp hv
      have hlen := h1.length
      rw [List.length_singleton] at hfit hlen
      refine ⟨h1.trans hv h2, hcrc2.trans hcrc, ?_⟩
      rw [hones2, hones, h1.cfg, hlen, Nat.min_eq_right hfit,
        show s.cfg.capBits - s.bitlen.toNat = (s.cfg.capBits - (s.bitlen.toNat + 1)) + 1 by omega, List.take_succ_cons,
        List.foldl_cons]
      congr 1
      by_cases hvt : v = true <;> simp [hvt]; omega
    · rw [State.emitBits_of_error hv]
      have hfit : ¬(s.bitlen.toNat + [v].length ≤ s.cfg.capBits) := fun hf => hv (h1.ferr_none_iff.mpr hf)
      rw [List.length_singleton] at hfit
      refine ⟨h1.dropped hv bits, hcrc, ?_⟩
      rw [hones, if_pos (.inr (by omega)), show s.cfg.capBits - s.bitlen.toNat = 0 by omega]
      rfl

/-- A plain 0 leaves ONES at 0 whatever it was, so what stood there does not matter once it is cleared again. -/
theorem emitPlain_false_ones (s : State) (n : BitVec 3) :
    { State.emitPlain { s with ones := n } false with ones := 0#3 } = State.emitPlain { s with ones := 0#3 } false := by
  unfold State.emitPlain State.full State.pack State.memWrite
  by_cases h1 : s.ferr = .none
  · by_cases h2 : s.cfg.capBits ≤ s.bitlen.toNat
    · simp [h1, h2]
    · by_cases h3 : (s.bitlen + 1#20).toNat % 8 = 0 <;> simp only [h1, h2, h3, ne_eq, not_true, if_true, if_false,
        decide_false, Bool.false_eq_true]
  · simp [h1]

/-- A content bit (R120, R121). -/
theorem emitContent_emitted {s : State} (h : s.Building) (hn : s.ferr = .none) (v : Bool) :
    Emitted s (s.emitContent v) (stuffFrom s.ones.toNat [v]) ∧
    (s.emitContent v).crc = (s.fitting [v]).foldl crcStep s.crc ∧
    (s.emitContent v).ones.toNat = onesAfter s.ones.toNat (s.fitting [v]) := by
  by_cases hf : s.cfg.capBits ≤ s.bitlen.toNat
  · have : s.emitContent v = { s with ferr := .overflow } := by
      simp [State.emitContent, hn, s.full_iff.mpr hf]
    rw [this]
    have hfit : s.fitting [v] = [] := by rw [State.fitting, Nat.sub_eq_zero_of_le hf]; rfl
    refine ⟨emitted_overflow h hf ?_, by rw [hfit]; rfl, by rw [hfit]; rfl⟩
    cases v <;> simp only [stuffFrom] <;> (try split) <;> simp
  · have hfull : s.full = false := by simpa [State.full] using hf
    let a : State := { s with crc := crcStep s.crc v }
    have ha : a.Building := ⟨h.legal, h.mem.congr rfl rfl, h.opened, h.ones, h.bitlen, h.pad⟩
    obtain ⟨hB, hlen, hbits, hwin, honly⟩ := State.pack_spec ha (by show s.bitlen.toNat < s.cfg.capBits; omega) v
    have hferr : (a.pack v).ferr = .none := by rw [honly]; exact hn
    have hcrc : (a.pack v).crc = crcStep s.crc v := by rw [honly]
    have hones : (a.pack v).ones = s.ones := by rw [honly]
    have hfit : s.bitlen.toNat + [v].length ≤ s.cfg.capBits := by simp; omega
    have hfitting : s.fitting [v] = [v] := by
      rw [State.fitting]
      obtain ⟨room, hr⟩ : ∃ room, s.cfg.capBits - s.bitlen.toNat = room + 1 := ⟨_, (Nat.succ_pred (by omega)).symm⟩
      rw [hr]
      cases v <;> simp [fitting]
    rw [hfitting]
    -- the packed bit, ONES set to any lawful count
    have hem : ∀ n : BitVec 3, n.toNat ≤ 4 → Emitted s { a.pack v with ones := n } [v] := fun n hn4 =>
      { building := ⟨hB.legal, hB.mem.congr rfl rfl, hB.opened, hn4, hB.bitlen, hB.pad⟩
        only := by rw [honly]
        frame := by
          show (a.pack v).frameBits = _
          rw [hbits, List.take_of_length_le]
          · rfl
          · simp; omega
        ferr := by rw [if_pos hfit]; exact hferr
        window := fun idx hi => hwin idx (by
          have : a.bitlen = s.bitlen := rfl
          rw [this] at *
          simpa only [hlen] using hi) }
    have h4 := h.ones
    cases v
    · have hp : s.emitContent false = { a.pack false with ones := 0#3 } := by
        simp [State.emitContent, hn, hfull, a]
      rw [hp]
      exact ⟨hem 0#3 (by simp), hcrc, rfl⟩
    · by_cases h5 : s.ones.toNat = 4
      · have hone5 : (a.pack true).ones + 1#3 = stuffThreshold := by
          rw [hones]
          apply BitVec.eq_of_toNat_eq
          rw [BitVec.toNat_add, h5]
          rfl
        have hp : s.emitContent true =
            { State.emitPlain { a.pack true with ones := stuffThreshold } false with ones := 0#3 } := by
          unfold State.emitContent
          rw [if_neg (not_not.mpr hn), if_neg (by simp [hfull])]
          show (if true = true then (if (a.pack true).ones + 1#3 = stuffThreshold then _ else _) else _) = _
          rw [if_pos rfl, if_pos hone5, hone5]
        rw [hp, emitPlain_false_ones]
        have he := hem 0#3 (by simp)
        obtain ⟨h2, hcrc2, hones2⟩ := emitPlain_emitted he.building hferr false
        rw [h5]
        refine ⟨he.trans hferr h2, hcrc2.trans hcrc, ?_⟩
        rw [hones2, ite_self]
        rfl
      · have hone5 : ¬ (a.pack true).ones + 1#3 = stuffThreshold := by
          rw [hones]
          intro he
          have := congrArg BitVec.toNat he
          rw [BitVec.toNat_add] at this
          simp [stuffThreshold] at this
          omega
        have hp : s.emitContent true = { a.pack true with ones := s.ones + 1#3 } := by
          unfold State.emitContent
          rw [if_neg (not_not.mpr hn), if_neg (by simp [hfull])]
          show (if true = true then (if (a.pack true).ones + 1#3 = stuffThreshold then _ else _) else _) = _
          rw [if_pos rfl, if_neg hone5, hones]
        have hn1 : (s.ones + 1#3).toNat = s.ones.toNat + 1 := by
          rw [BitVec.toNat_add]; simp; omega
        rw [hp]
        refine ⟨?_, hcrc, ?_⟩
        · simpa [stuffFrom, h5] using hem (s.ones + 1#3) (by omega)
        · simp [onesAfter, h5, hn1]

/-- Content bits in a row (R120, R124): those that fit enter CRC and ONES. -/
theorem emitBits_content {s : State} (h : s.Building) (hn : s.ferr = .none) (bits : List Bool) :
    Emitted s (s.emitBits bits true) (stuffFrom s.ones.toNat bits) ∧
    (s.emitBits bits true).crc = (s.fitting bits).foldl crcStep s.crc ∧
    (s.emitBits bits true).ones.toNat = onesAfter s.ones.toNat (s.fitting bits) := by
  induction bits generalizing s with
  | nil =>
    have hnil : s.fitting [] = [] := by rw [State.fitting, fitting]
    exact ⟨.refl h hn, by rw [hnil]; rfl, by rw [hnil]; rfl⟩
  | cons v bits ih =>
    obtain ⟨h1, hc1, ho1⟩ := emitContent_emitted h hn v
    have he : s.emitBit v true = s.emitContent v := rfl
    rw [State.emitBits_cons, he, show v :: bits = [v] ++ bits from rfl, stuffFrom_append]
    by_cases hv : (s.emitContent v).ferr = .none
    · obtain ⟨h2, hc2, ho2⟩ := ih h1.building hv
      have hfit := h1.ferr_none_iff.mp hv
      have hv1 : s.fitting [v] = [v] := fitting_of_fit (by omega)
      rw [hv1] at hc1 ho1
      have hrest : s.fitting ([v] ++ bits) = v :: (s.emitContent v).fitting bits := by
        rw [State.fitting, List.singleton_append, fitting_cons_of_fit (by omega), State.fitting, h1.cfg, h1.length,
          Nat.min_eq_right hfit, ho1, Nat.sub_sub]
      rw [ho1] at h2
      rw [hrest]
      refine ⟨h1.trans hv h2, by rw [hc2, hc1]; rfl, ?_⟩
      rw [ho2, ho1]
      exact (onesAfter_append _ [v] _).symm
    · have hfit : ¬(s.bitlen.toNat + (stuffFrom s.ones.toNat [v]).length ≤ s.cfg.capBits) := fun hf =>
        hv (h1.ferr_none_iff.mpr hf)
      have hroom := h.bitlen
      have hrest : s.fitting ([v] ++ bits) = s.fitting [v] := fitting_cons_of_overflow (by omega) bits
      rw [State.emitBits_of_error hv, hrest]
      exact ⟨h1.dropped hv _, hc1, ho1⟩

/-- What fits is everything where FERR says that it does. -/
theorem Emitted.fitting_eq {s t : State} {bits : List Bool} (h : Emitted s t (stuffFrom s.ones.toNat bits))
    (hn : t.ferr = .none) : s.fitting bits = bits := fitting_of_fit (by have := h.ferr_none_iff.mp hn; omega)

end Sys2Proof.Machine
end

