-- ==== Sys2Proof/Laws/FrameBuilder.lean ====
section
/-! SUPPORT. What the Frame Builder's shared operations do, each said once: the guards, the emission of bytes and flags,
the final flush. -/

set_option Elab.async false

namespace Sys2Proof.Machine

/-! ## The guards (R127) -/

theorem State.raceGuard_of_session {s : State} (h : s.sstate = .transmitting) : s.raceGuard = some .bufferRace := by
  simp [State.raceGuard, h]

theorem State.raceGuard_of_idle {s : State} (h : s.sstate ≠ .transmitting) : s.raceGuard = none := by
  simp [State.raceGuard, h]

theorem State.writeGuard_of_session {s : State} (h : s.sstate = .transmitting) : s.writeGuard = some .bufferRace := by
  simp [State.writeGuard, h]

theorem State.writeGuard_of_notOpened {s : State} (h : s.sstate ≠ .transmitting) (ho : s.fstate ≠ .opened) :
    s.writeGuard = some .sequenceViolation := by
  simp [State.writeGuard, h, ho]

theorem State.writeGuard_of_opened {s : State} (h : s.sstate ≠ .transmitting) (ho : s.fstate = .opened) :
    s.writeGuard = none := by
  simp [State.writeGuard, h, ho]

/-! ## Emission of bytes -/

/-- Nothing is emitted after an error. -/
theorem State.emitBytes_of_error {s : State} (h : s.ferr ≠ .none) (bytes : List Byte) (subject : Bool) :
    s.emitBytes bytes subject = s := by
  rw [State.emitBytes_eq, State.emitBits_of_error h]

theorem State.emitFlags_of_error {s : State} (h : s.ferr ≠ .none) (n : Nat) : s.emitFlags n = s := by
  rw [State.emitFlags_eq, State.emitBits_of_error h]

/-- Content bytes (R123, R124). -/
theorem emitBytes_content {s : State} (h : s.Building) (hn : s.ferr = .none) (bytes : List Byte) :
    Emitted s (s.emitBytes bytes true) (stuffFrom s.ones.toNat (bytesBits bytes)) ∧
    (s.emitBytes bytes true).crc = (s.fitting (bytesBits bytes)).foldl crcStep s.crc ∧
    (s.emitBytes bytes true).ones.toNat = onesAfter s.ones.toNat (s.fitting (bytesBits bytes)) := by
  rw [State.emitBytes_eq]
  exact emitBits_content h hn _

/-- ONES stays at 0 over plain bits. -/
theorem foldl_ones_zero (bits : List Bool) : bits.foldl (fun n v => if v then n else 0#3) 0#3 = 0#3 := by
  induction bits with
  | nil => rfl
  | cons v bits ih => rw [List.foldl_cons, ite_self]; exact ih

/-- The first flag bit that fits, a 0, clears ONES for good. -/
theorem foldl_ones_flagsBits {n room : Nat} (hn : n ≠ 0) (ones : BitVec 3) :
    ((flagsBits n).take room).foldl (fun n v => if v then n else 0#3) ones = if 0 < room then 0#3 else ones := by
  obtain ⟨k, rfl⟩ := Nat.exists_eq_succ_of_ne_zero hn
  obtain _ | room := room
  · rfl
  · rw [flagsBits, List.replicate_succ, List.flatten_cons, List.cons_append, List.take_succ_cons, List.foldl_cons,
      if_neg (by simp), if_pos (by omega)]
    exact foldl_ones_zero _

@[simp] theorem length_flagsBits (n : Nat) : (flagsBits n).length = 8 * n := by
  simp [flagsBits]; omega

/-- Flag octets (R125, R141). -/
theorem emitFlags_emitted {s : State} (h : s.Building) (hn : s.ferr = .none) (n : Nat) :
    Emitted s (s.emitFlags n) (flagsBits n) ∧ (s.emitFlags n).crc = s.crc ∧
    (n ≠ 0 → (s.emitFlags n).ones = if s.bitlen.toNat < s.cfg.capBits then 0#3 else s.ones) := by
  rw [State.emitFlags_eq]
  obtain ⟨he, hc, ho⟩ := emitBits_plain h hn (flagsBits n)
  refine ⟨he, hc, fun hn0 => (ho.trans (foldl_ones_flagsBits hn0 _)).trans ?_⟩
  simp only [Nat.sub_pos_iff_lt]

/-! ## The final flush (R147) -/

/-- What the final flush of an open frame does: it completes, OUTB is empty, the partial byte stands in BUF as it was,
and the finished frame has the open frame's bits. -/
theorem finalFlush_spec {t : State} (h : t.Building) : ∃ u, t.finalFlush? = some u ∧
    u = { t with
      outb := 0#8
      buf := if t.bitlen.toNat % 8 = 0 then t.buf else t.buf.write (t.bitlen.toNat / 8) t.outb } ∧
    MemoryInv u ∧ State.frameBits { u with fstate := .finalized } = t.frameBits ∧
    (t.bitlen.toNat % 8 ≠ 0 → u.buf.read (t.bitlen.toNat / 8) = t.outb) ∧
    ∀ idx, idx < t.bitlen.toNat / 8 ∨ (t.bitlen.toNat + 7) / 8 ≤ idx → u.buf.read idx = t.buf.read idx := by
  have hpad := (pad_iff t.outb (by omega)).mp h.pad
  have hlen := h.bitlen
  by_cases h8 : t.bitlen.toNat % 8 = 0
  · have ho : t.outb = 0#8 := by
      have := h.pad
      rw [h8] at this
      apply BitVec.eq_of_toNat_eq
      have := t.outb.isLt
      simp at *
      omega
    refine ⟨t, by simp [State.finalFlush?, h8], ?_, h.mem, ?_, fun hc => absurd h8 hc, fun _ _ => rfl⟩
    · rw [if_pos h8, ← ho]
    · refine State.frameBits_congr rfl fun k hk => ?_
      have he := State.extent_opened h.opened
      have hf : State.extent { t with fstate := .finalized } = (t.bitlen.toNat + 7) / 8 := rfl
      rw [State.frameBit_of_lt (by omega), State.frameBit_of_lt (by omega)]
  · have hm : t.bitlen.toNat / 8 < t.cfg.maxFrameBytes := by
      simp only [Config.capBits] at hlen; omega
    have hr := fun b => Memory.read_write (t.bitlen.toNat / 8) b t.outb h.mem.wf
    refine ⟨{ t.memWrite (t.bitlen.toNat / 8) t.outb with outb := 0#8 }, by simp [State.finalFlush?, h8, hm], ?_,
      ⟨Memory.write_wf _ _ h.mem.wf, Memory.write_lt hm h.mem.inside⟩, ?_, fun _ => ?_, fun idx hi => ?_⟩
    · rw [if_neg h8]; rfl
    · refine State.frameBits_congr rfl fun k hk => ?_
      have he := State.extent_opened h.opened
      rw [State.frameBit_of_lt (show k / 8 < (t.bitlen.toNat + 7) / 8 by omega)]
      show ((t.buf.write (t.bitlen.toNat / 8) t.outb).read (k / 8)).getMsbD (k % 8) = _
      rw [hr]
      by_cases hk8 : k / 8 < t.bitlen.toNat / 8
      · rw [State.frameBit_of_lt (by omega), if_neg (by omega)]
      · rw [State.frameBit_of_le (by omega), if_pos (by omega)]
    · simp only [State.memWrite, hr, if_true]
    · simp only [State.memWrite, hr]
      rw [if_neg (by omega)]

/-! ## The FCS and the trailer (R146) -/

/-- The bits of the FCS, stuffed. -/
def State.fcsBits (s : State) : List Bool := stuffFrom s.ones.toNat (bytesBits (fcsBytes s.crc))

/-- The bits `WRITE_FCS_AND_TRAILER` appends to a frame without an error. -/
def State.fcsAndTrailerBits (s : State) : List Bool := s.fcsBits ++ flagsBits s.cfg.flagCount

/-- Where FCS and trailer fit, the FCS does and leaves room for a flag bit. -/
theorem Emitted.fcs_fits {s t : State} (h : Emitted s t s.fcsAndTrailerBits) (hn : t.ferr = .none)
    (hl : s.cfg.legal = true) :
    s.fitting (bytesBits (fcsBytes s.crc)) = bytesBits (fcsBytes s.crc) ∧
    s.bitlen.toNat + s.fcsBits.length < s.cfg.capBits := by
  have hfit := h.ferr_none_iff.mp hn
  have hf0 := (Config.flagCount_range hl).1
  rw [State.fcsAndTrailerBits, List.length_append, length_flagsBits] at hfit
  have hroom : s.fcsBits.length ≤ s.cfg.capBits - s.bitlen.toNat := by omega
  exact ⟨fitting_of_fit hroom, by omega⟩

/-- The emission of `WRITE_FCS_AND_TRAILER`, before the final flush. The FCS bits that fit enter CRC and ONES; a flag bit
that still finds room after them clears ONES. -/
theorem emitFcsAndTrailer {s : State} (h : s.Building) (hn : s.ferr = .none) :
    Emitted s ((s.emitBytes (fcsBytes s.crc) true).emitFlags s.cfg.flagCount) s.fcsAndTrailerBits ∧
    ((s.emitBytes (fcsBytes s.crc) true).emitFlags s.cfg.flagCount).crc =
      (s.fitting (bytesBits (fcsBytes s.crc))).foldl crcStep s.crc ∧
    ((s.emitBytes (fcsBytes s.crc) true).emitFlags s.cfg.flagCount).ones.toNat =
      if s.bitlen.toNat + s.fcsBits.length < s.cfg.capBits then 0
      else onesAfter s.ones.toNat (s.fitting (bytesBits (fcsBytes s.crc))) := by
  obtain ⟨h1, hc1, ho1⟩ := emitBytes_content h hn (fcsBytes s.crc)
  have hlen : (stuffFrom s.ones.toNat (bytesBits (fcsBytes s.crc))).length = s.fcsBits.length := rfl
  by_cases ht : (s.emitBytes (fcsBytes s.crc) true).ferr = .none
  · obtain ⟨h2, hc2, ho2⟩ := emitFlags_emitted h1.building ht s.cfg.flagCount
    have hfit := h1.ferr_none_iff.mp ht
    have hf0 := (Config.flagCount_range h.legal).1
    refine ⟨h1.trans ht h2, hc2.trans hc1, ?_⟩
    rw [ho2 (by omega), h1.cfg, h1.length, Nat.min_eq_right hfit, hlen]
    split
    · rfl
    · exact ho1
  · have hfit : ¬(s.bitlen.toNat + s.fcsBits.length ≤ s.cfg.capBits) := fun hf => ht (h1.ferr_none_iff.mpr hf)
    rw [State.emitFlags_of_error ht, if_neg (by omega)]
    exact ⟨h1.dropped ht _, hc1, ho1⟩

end Sys2Proof.Machine
end

