-- ==== Sys2Proof/Laws/Commands.lean ====
section
/-! SUPPORT. What a command can do when it answers a next state, in every state, the unreachable ones too: one inversion
lemma for the Frame Builder's writes and one for each other command. Later proofs cite these and do not unfold `exec`. -/

set_option Elab.async false

namespace Sys2Proof.Machine

/-- The instructions by the inversion lemma that serves them. -/
theorem instr_cases (i : Instr) :
    i.isFrameWrite = true ∨ i.returnsValue = true ∨ i = .reset ∨ i = .beginFrame ∨ i = .startTx ∨ i = .stopTimer ∨
      i = .tick := by
  cases i <;> simp [Instr.isFrameWrite, Instr.returnsValue]

/-- No instruction is refused: a refusal is `arrival`'s (log 10). -/
theorem exec_ne_refused (i : Instr) (s : State) (why : Refusal) : exec i s ≠ .refused why := by
  cases i <;> simp only [exec, execReset, execReadReg, execReadBuf, execBeginFrame, execWriteFlags,
    execWriteAddressChain, execWriteControlAndPid, execWritePayload, execWriteFcsAndTrailer, execStartTx, execStopTimer,
    execTableLookup, execTick] <;> (repeat' split) <;> simp

theorem State.raiseFault_fault_ne_none (s : State) (reason : ModelFault) : (s.raiseFault reason).fault ≠ none := by
  unfold State.raiseFault
  split <;> simp_all

/-! ## What emission leaves alone, in every state -/

/-- `t` differs from `s` in the Frame Builder's working registers and BUF alone. -/
def State.Works (s t : State) : Prop :=
  t = { s with ferr := t.ferr, crc := t.crc, ones := t.ones, bitlen := t.bitlen, outb := t.outb, buf := t.buf }

theorem State.Works.refl (s : State) : s.Works s := rfl

theorem State.Works.trans {s t u : State} (h : s.Works t) (h' : t.Works u) : s.Works u := by
  unfold State.Works at *
  rw [h', h]

theorem State.pack_works (s : State) (v : Bool) : s.Works (s.pack v) := by
  unfold State.Works State.pack State.memWrite
  simp only
  split <;> rfl

theorem State.emitPlain_works (s : State) (v : Bool) : s.Works (s.emitPlain v) := by
  have hp := s.pack_works v
  unfold State.emitPlain
  split
  · exact .refl s
  · split
    · rfl
    · simp only
      split
      · exact hp
      · exact hp.trans rfl

/-- The first part of a content bit: the CRC takes it (R120). -/
def State.foldCrc (s : State) (v : Bool) : State := { s with crc := crcStep s.crc v }

/-- The last part of a content bit, once packed: ONES counts it, and the fifth one emits the stuffed bit (R121). -/
def State.countContent (p : State) (v : Bool) : State :=
  if v then
    if p.ones + 1#3 = stuffThreshold then { State.emitPlain { p with ones := p.ones + 1#3 } false with ones := 0#3 }
    else { p with ones := p.ones + 1#3 }
  else { p with ones := 0#3 }

/-- `emitContent` by its parts. -/
theorem State.emitContent_eq (s : State) (v : Bool) : s.emitContent v =
    if s.ferr ≠ .none then s
    else if s.full then { s with ferr := .overflow }
    else ((s.foldCrc v).pack v).countContent v := rfl

theorem State.countContent_works (p : State) (v : Bool) : p.Works (p.countContent v) := by
  unfold State.countContent
  split
  · split
    · exact (State.Works.trans (t := { p with ones := p.ones + 1#3 }) rfl (State.emitPlain_works _ false)).trans rfl
    · rfl
  · rfl

theorem State.emitContent_works (s : State) (v : Bool) : s.Works (s.emitContent v) := by
  rw [State.emitContent_eq]
  split
  · exact .refl s
  · split
    · rfl
    · exact (State.Works.trans (t := s.foldCrc v) rfl (State.pack_works _ v)).trans (State.countContent_works _ v)

theorem State.emitBits_works (s : State) (bits : List Bool) (subject : Bool) : s.Works (s.emitBits bits subject) := by
  induction bits generalizing s with
  | nil => exact .refl s
  | cons v bits ih =>
    rw [State.emitBits_cons]
    refine State.Works.trans ?_ (ih _)
    cases subject
    · exact s.emitPlain_works v
    · exact s.emitContent_works v

theorem State.emitBytes_works (s : State) (bytes : List Byte) (subject : Bool) :
    s.Works (s.emitBytes bytes subject) := by
  rw [State.emitBytes_eq]
  exact s.emitBits_works _ _

theorem State.emitFlags_works (s : State) (n : Nat) : s.Works (s.emitFlags n) := s.emitBytes_works _ _

theorem State.finalFlush_works {s u : State} (h : s.finalFlush? = some u) :
    s.Works u ∧ u.ferr = s.ferr ∧ u.crc = s.crc ∧ u.ones = s.ones ∧ u.bitlen = s.bitlen := by
  unfold State.finalFlush? at h
  split at h
  · cases h; exact ⟨.refl s, rfl, rfl, rfl, rfl⟩
  · split at h
    · cases h; exact ⟨rfl, rfl, rfl, rfl, rfl⟩
    · cases h

/-! ## The Frame Builder's writes -/

/-- A Frame Builder write has completed: its registers, BUF and one response; an error that stood still stands. -/
structure Wrote (s t : State) : Prop where
  only : t = s.withFrameOf t
  trace : t.trace = s.trace ++ [.resp t.ferr.code 0#32]
  sticky : s.ferr ≠ .none → t.ferr = s.ferr ∧ t.bitlen = s.bitlen ∧ t.crc = s.crc ∧ t.ones = s.ones

theorem State.Works.wrote {s t : State} (h : s.Works t)
    (hs : s.ferr ≠ .none → t.ferr = s.ferr ∧ t.bitlen = s.bitlen ∧ t.crc = s.crc ∧ t.ones = s.ones)
    (f : FState) : Wrote s { t with fstate := f }.respondFerr := by
  rw [State.Works] at h
  refine ⟨?_, ?_, hs⟩
  · rw [h]; rfl
  · rw [h]; rfl

theorem wrote_of_emitBytes (s : State) (bytes : List Byte) (subject : Bool) :
    Wrote s (s.emitBytes bytes subject).respondFerr :=
  (s.emitBytes_works bytes subject).wrote (fun h => by rw [State.emitBytes_of_error h]; simp) _

/-- Every Frame Builder write but `WRITE_FCS_AND_TRAILER` leaves the frame open; that one makes it final. -/
theorem frameWrite_cases {i : Instr} {s t : State} (hi : i.isFrameWrite = true) (h : exec i s = .next t) :
    (∃ reason, s.writeGuard = some reason ∧ t = s.raiseFault reason) ∨
    (s.writeGuard = none ∧ Wrote s t ∧
      t.fstate = if i = .writeFcsAndTrailer then .finalized else s.fstate) := by
  have hopen : ∀ (bytes : List Byte) (subject : Bool), (s.emitBytes bytes subject).fstate = s.fstate := fun bytes b => by
    have := s.emitBytes_works bytes b
    rw [State.Works] at this
    rw [this]
  cases hg : s.writeGuard with
  | some reason =>
    refine .inl ⟨reason, rfl, ?_⟩
    cases i <;> simp only [Instr.isFrameWrite, Bool.false_eq_true] at hi <;>
      simp only [exec, execWriteFlags, execWriteAddressChain, execWriteControlAndPid, execWritePayload,
        execWriteFcsAndTrailer, hg, Host.Outcome.next.injEq] at h <;> exact h.symm
  | none =>
    refine .inr ⟨rfl, ?_⟩
    cases i <;> simp only [Instr.isFrameWrite, Bool.false_eq_true] at hi
    case writeFlags n =>
      simp only [exec, execWriteFlags, hg, Host.Outcome.next.injEq] at h
      subst h
      exact ⟨wrote_of_emitBytes s _ _, (hopen _ _).trans (by simp)⟩
    case writeAddressChain chain =>
      simp only [exec, execWriteAddressChain, hg] at h
      split at h
      · cases h
        exact ⟨⟨rfl, rfl, fun _ => ⟨rfl, rfl, rfl, rfl⟩⟩, by simp⟩
      · have hn : s.ferr = .none := not_not.mp ‹_›
        split at h
        · cases h
          exact ⟨⟨rfl, rfl, fun h => absurd hn h⟩, by simp⟩
        · split at h
          · cases h
            exact ⟨⟨rfl, rfl, fun h => absurd hn h⟩, by simp⟩
          · cases h
            exact ⟨wrote_of_emitBytes s _ _, by simpa using hopen _ _⟩
    case writeControlAndPid =>
      simp only [exec, execWriteControlAndPid, hg, Host.Outcome.next.injEq] at h
      subst h
      exact ⟨wrote_of_emitBytes s _ _, by simpa using hopen _ _⟩
    case writePayload bytes =>
      simp only [exec, execWritePayload, hg, Host.Outcome.next.injEq] at h
      subst h
      exact ⟨wrote_of_emitBytes s _ _, by simpa using hopen _ _⟩
    case writeFcsAndTrailer =>
      simp only [exec, execWriteFcsAndTrailer, hg] at h
      split at h
      · rename_i u hu
        cases h
        obtain ⟨hw, h1, h2, h3, h4⟩ := State.finalFlush_works hu
        refine ⟨(((s.emitBytes_works _ _).trans (State.emitFlags_works _ _)).trans hw).wrote (fun he => ?_) _, by simp⟩
        rw [h1, h2, h3, h4, State.emitBytes_of_error he, State.emitFlags_of_error he]
        simp
      · cases h

/-- `BEGIN_FRAME` raises the race fault or begins a frame (R140). -/
theorem beginFrame_cases {s t : State} (h : exec .beginFrame s = .next t) :
    (s.sstate = .transmitting ∧ t = s.raiseFault .bufferRace) ∨
    (s.sstate ≠ .transmitting ∧
      t = { s with
        crc := crcSeed, ones := 0#3, bitlen := 0#20, outb := 0#8, ferr := .none, fstate := .opened
        trace := s.trace ++ [.resp .ok 0#32] }) := by
  by_cases hs : s.sstate = .transmitting
  · simp only [exec, execBeginFrame, State.raceGuard_of_session hs, Host.Outcome.next.injEq] at h
    exact .inl ⟨hs, h.symm⟩
  · simp only [exec, execBeginFrame, State.raceGuard_of_idle hs, Host.Outcome.next.injEq] at h
    exact .inr ⟨hs, h.symm⟩

/-! ## `RESET`, the reads, `STOP_TIMER` -/

/-- `RESET` (R231). -/
theorem reset_next {s t : State} (h : exec .reset s = .next t) :
    t = { s.resetRegisters with
      trace := s.trace ++ ((if s.txEn then [.txEnable false] else []) ++ [.resp .ok 0#32]) } := by
  simp only [exec, execReset, Host.Outcome.next.injEq] at h
  rw [← h]
  cases s.txEn <;> simp [State.respond, State.emit, State.resetRegisters]

/-- `STOP_TIMER` (R199). -/
theorem stopTimer_next {s t : State} (h : exec .stopTimer s = .next t) :
    t = { s with timerEn := false, trace := s.trace ++ [.resp .ok 0#32] } := by
  cases h
  rfl

/-- A read answers a value; `READ_BUF` may have drawn one. -/
theorem read_cases {i : Instr} {s t : State} (hi : i.returnsValue = true) (h : exec i s = .next t) :
    ∃ (value : BitVec 32) (draws : Nat), t = { s with draws := draws, trace := s.trace ++ [.resp .ok value] } := by
  cases i <;> simp only [Instr.returnsValue, Bool.false_eq_true] at hi
  case readReg reg => cases h; exact ⟨_, s.draws, rfl⟩
  case tableLookup k => cases h; exact ⟨_, s.draws, rfl⟩
  case readBuf idx =>
    simp only [exec, execReadBuf] at h
    split at h
    · cases h
    · split at h
      · cases h; exact ⟨_, s.draws, rfl⟩
      · cases h; exact ⟨_, s.draws + 1, rfl⟩

/-! ## `START_TX` and `TICK` -/

/-- `START_TX` refuses, fails to settle, or opens a session (R190). -/
theorem startTx_cases {s t : State} (h : exec .startTx s = .next t) :
    (∃ code, code ≠ .illegal ∧ t = { s with trace := s.trace ++ [.resp code 0#32] }) ∨
    (s.sstate = .idle ∧ s.ferr = .none ∧ s.fstate = .finalized ∧ ∃ (settle : List Bool) (draws : Nat),
      t = { s with
        txEn := false, settle := settle, draws := draws
        trace := s.trace ++ [.txEnable true, .txEnable false, .resp .configurationTimeout 0#32] } ∨
      t = { s.openSession with
        txEn := true, settle := settle, draws := draws
        trace := s.trace ++ [.txEnable true, .keyDelay, .resp .ok 0#32] }) := by
  simp only [exec, execStartTx] at h
  split at h
  · cases h; exact .inl ⟨_, by simp, rfl⟩
  split at h
  · cases h; exact .inl ⟨_, by cases s.ferr <;> simp [FErr.code], rfl⟩
  split at h
  · cases h; exact .inl ⟨_, by simp, rfl⟩
  refine .inr ⟨not_not.mp ‹_›, not_not.mp ‹_›, not_not.mp ‹_›, ?_⟩
  unfold State.drawSettle at h
  rcases hs : s.settle with _ | ⟨ok, rest⟩
  · simp only [State.emit_settle, State.emit_draws, hs] at h
    refine ⟨[], s.draws + 1, ?_⟩
    split at h <;> cases h <;> [right; left] <;>
      simp [State.emit, State.respond, State.openSession, hs]
  · simp only [State.emit_settle, State.emit_draws, hs] at h
    refine ⟨rest, s.draws, ?_⟩
    split at h <;> cases h <;> [right; left] <;>
      simp [State.emit, State.respond, State.openSession]

/-- What `fetchBit?` does (R194). -/
theorem fetchBit_eq {s t : State} (h : s.fetchBit? = some t) : ∃ tone,
    t = { s with
      cursor := s.cursor + 1#20, tone := tone, inc := s.toneIncrement tone, budget := BitVec.ofNat 16 s.cfg.spb } ∧
    tone = if (s.buf.read (s.cursor.toNat / 8)).getMsbD (s.cursor.toNat % 8) then s.tone else s.tone.toggle := by
  by_cases hm : s.cursor.toNat / 8 < s.cfg.maxFrameBytes
  · simp only [State.fetchBit?, State.memRead?, hm, if_true, Option.some.injEq] at h
    exact ⟨_, h.symm, rfl⟩
  · simp [State.fetchBit?, State.memRead?, hm] at h

/-- A TICK without a session does nothing; else it ends the session, or puts out one sample, of the bit in flight or of
the next (R192). -/
theorem tick_cases {s t : State} (h : exec .tick s = .next t) :
    (s.sstate ≠ .transmitting ∧ t = s) ∨
    (s.sstate = .transmitting ∧ s.budget = 0#16 ∧ s.cursor = s.txlen ∧ t = s.endSession) ∨
    (s.sstate = .transmitting ∧ s.budget = 0#16 ∧ s.cursor ≠ s.txlen ∧ ∃ u, s.fetchBit? = some u ∧ t = u.sample) ∨
    (s.sstate = .transmitting ∧ s.budget ≠ 0#16 ∧ t = s.sample) := by
  simp only [exec, execTick] at h
  split at h
  · cases h; exact .inl ⟨‹_›, rfl⟩
  · have hs : s.sstate = .transmitting := not_not.mp ‹_›
    split at h
    · split at h
      · cases h; exact .inr (.inl ⟨hs, ‹_›, ‹_›, rfl⟩)
      · split at h
        · cases h; exact .inr (.inr (.inl ⟨hs, ‹_›, ‹_›, _, ‹_›, rfl⟩))
        · cases h
    · cases h; exact .inr (.inr (.inr ⟨hs, ‹_›, rfl⟩))

/-- The one output of a sample (R192, R195). -/
theorem sample_trace (s : State) : ∃ v, s.sample.trace = s.trace ++ [.sampleOut v] := ⟨_, rfl⟩

end Sys2Proof.Machine
end

