-- ==== Sys2Proof/Laws/Buffer.lean ====
section
/-! SUPPORT. Emission writes BUF and never reads it: two states that differ in BUF alone still do so after it. -/

set_option Elab.async false

namespace Sys2Proof.Machine

/-- The state with another BUF. -/
def State.withBuf (s : State) (buf : Memory) : State := { s with buf := buf }

theorem State.emitPlain_eq (s : State) (v : Bool) : s.emitPlain v =
    if s.ferr ≠ .none then s
    else if s.full then { s with ferr := .overflow }
    else if v then s.pack v else { s.pack v with ones := 0#3 } := rfl

theorem State.pack_withBuf (s : State) (buf : Memory) (v : Bool) :
    ∃ buf', (s.withBuf buf).pack v = (s.pack v).withBuf buf' := by
  unfold State.pack State.memWrite State.withBuf
  simp only
  split <;> exact ⟨_, rfl⟩

theorem State.emitPlain_withBuf (s : State) (buf : Memory) (v : Bool) :
    ∃ buf', (s.withBuf buf).emitPlain v = (s.emitPlain v).withBuf buf' := by
  obtain ⟨buf', h⟩ := s.pack_withBuf buf v
  rw [State.emitPlain_eq, State.emitPlain_eq, h, show (s.withBuf buf).ferr = s.ferr from rfl,
    show (s.withBuf buf).full = s.full from rfl]
  split
  · exact ⟨buf, rfl⟩
  · split
    · exact ⟨buf, rfl⟩
    · split <;> exact ⟨buf', rfl⟩

theorem State.countContent_withBuf (p : State) (buf : Memory) (v : Bool) :
    ∃ buf', (p.withBuf buf).countContent v = (p.countContent v).withBuf buf' := by
  obtain ⟨buf', h⟩ := State.emitPlain_withBuf { p with ones := p.ones + 1#3 } buf false
  unfold State.countContent
  rw [show (p.withBuf buf).ones = p.ones from rfl]
  split
  · split
    · exact ⟨buf', congrArg (fun q : State => { q with ones := 0#3 }) h⟩
    · exact ⟨buf, rfl⟩
  · exact ⟨buf, rfl⟩

theorem State.emitContent_withBuf (s : State) (buf : Memory) (v : Bool) :
    ∃ buf', (s.withBuf buf).emitContent v = (s.emitContent v).withBuf buf' := by
  obtain ⟨buf1, h1⟩ := (s.foldCrc v).pack_withBuf buf v
  obtain ⟨buf2, h2⟩ := ((s.foldCrc v).pack v).countContent_withBuf buf1 v
  rw [State.emitContent_eq, State.emitContent_eq, show (s.withBuf buf).ferr = s.ferr from rfl,
    show (s.withBuf buf).full = s.full from rfl, show (s.withBuf buf).foldCrc v = (s.foldCrc v).withBuf buf from rfl,
    h1, h2]
  split
  · exact ⟨buf, rfl⟩
  · split
    · exact ⟨buf, rfl⟩
    · exact ⟨buf2, rfl⟩

theorem State.emitBits_withBuf (s : State) (buf : Memory) (bits : List Bool) (subject : Bool) :
    ∃ buf', (s.withBuf buf).emitBits bits subject = (s.emitBits bits subject).withBuf buf' := by
  induction bits generalizing s buf with
  | nil => exact ⟨buf, rfl⟩
  | cons v bits ih =>
    obtain ⟨buf', h⟩ : ∃ buf', (s.withBuf buf).emitBit v subject = (s.emitBit v subject).withBuf buf' := by
      cases subject
      · exact s.emitPlain_withBuf buf v
      · exact s.emitContent_withBuf buf v
    rw [State.emitBits_cons, State.emitBits_cons, h]
    exact ih _ buf'

theorem State.emitBytes_withBuf (s : State) (buf : Memory) (bytes : List Byte) (subject : Bool) :
    ∃ buf', (s.withBuf buf).emitBytes bytes subject = (s.emitBytes bytes subject).withBuf buf' := by
  rw [State.emitBytes_eq, State.emitBytes_eq]
  exact s.emitBits_withBuf buf _ subject

end Sys2Proof.Machine
end

