-- ==== Sys2Proof/Laws/Codec.lean ====
section
/-! SUPPORT. The pieces of the decoder and the encoder: opcodes, registers, operands of two and four bytes, counted bytes,
address records. -/

set_option Elab.async false

namespace Sys2Proof

/-! ## Opcodes and registers -/

@[simp] theorem Opcode.ofByte?_byte (o : Opcode) : Opcode.ofByte? o.byte = some o := by cases o <;> decide

theorem Opcode.byte_of_ofByte? {b : Byte} {o : Opcode} (h : Opcode.ofByte? b = some o) : b = o.byte := by
  have := List.find?_some h
  simpa using (beq_iff_eq.mp this).symm

@[simp] theorem Reg.ofByte?_num (g : Reg) : Reg.ofByte? g.num = some g := by cases g <;> decide

theorem Reg.num_of_ofByte? {b : Byte} {g : Reg} (h : Reg.ofByte? b = some g) : b = g.num := by
  have := List.find?_some h
  simpa using (beq_iff_eq.mp this).symm

/-- Exactly the numbers from 9 on are reserved (R41). -/
theorem Reg.ofByte?_eq_none_iff (b : Byte) : Reg.ofByte? b = none ↔ 9 ≤ b.toNat := by
  revert b
  decide +kernel

/-! ## Operands of two and four bytes (R82) -/

theorem append_bytesOf16 (v : BitVec 16) : (v.extractLsb' 8 8 ++ v.extractLsb' 0 8 : BitVec 16) = v := by
  ext i hi
  rw [BitVec.getElem_append]
  split
  · rw [BitVec.getElem_extractLsb', Nat.zero_add, BitVec.getLsbD_eq_getElem]
  · rw [BitVec.getElem_extractLsb', show 8 + (i - 8) = i by omega, BitVec.getLsbD_eq_getElem]

theorem bytesOf16_append (hi lo : Byte) : bytesOf16 (hi ++ lo : BitVec 16) = [hi, lo] := by
  simp only [bytesOf16, List.cons.injEq, and_true]
  constructor <;> ext i h
  · rw [BitVec.getElem_extractLsb', BitVec.getLsbD_append, if_neg (by omega), show 8 + i - 8 = i by omega,
      BitVec.getLsbD_eq_getElem]
  · rw [BitVec.getElem_extractLsb', BitVec.getLsbD_append, if_pos (by omega), Nat.zero_add, BitVec.getLsbD_eq_getElem]

theorem toNat_append_bytes (hi lo : Byte) : (hi ++ lo : BitVec 16).toNat = 256 * hi.toNat + lo.toNat := by
  rw [BitVec.toNat_append, Nat.shiftLeft_eq, Nat.mul_comm, ← Nat.two_pow_add_eq_or_of_lt lo.isLt]

theorem append_bytesOf32 (v : BitVec 32) :
    (v.extractLsb' 24 8 ++ v.extractLsb' 16 8 ++ v.extractLsb' 8 8 ++ v.extractLsb' 0 8 : BitVec 32) = v := by
  ext i hi
  simp only [BitVec.getElem_append, BitVec.getElem_extractLsb']
  rw [← BitVec.getLsbD_eq_getElem]
  split
  · rw [Nat.zero_add]
  · split
    · rw [show 8 + (i - 8) = i by omega]
    · split
      · rw [show 16 + (i - 8 - 8) = i by omega]
      · rw [show 24 + (i - 8 - 8 - 8) = i by omega]

theorem bytesOf32_append (b3 b2 b1 b0 : Byte) : bytesOf32 (b3 ++ b2 ++ b1 ++ b0 : BitVec 32) = [b3, b2, b1, b0] := by
  simp only [bytesOf32, List.cons.injEq, and_true]
  refine ⟨?_, ?_, ?_, ?_⟩ <;> ext i h <;> rw [BitVec.getElem_extractLsb', ← BitVec.getLsbD_eq_getElem]
  · rw [BitVec.getLsbD_append, if_neg (by omega), BitVec.getLsbD_append, if_neg (by omega), BitVec.getLsbD_append,
      if_neg (by omega)]
    congr 1; omega
  · rw [BitVec.getLsbD_append, if_neg (by omega), BitVec.getLsbD_append, if_neg (by omega), BitVec.getLsbD_append,
      if_pos (by omega)]
    congr 1; omega
  · rw [BitVec.getLsbD_append, if_neg (by omega), BitVec.getLsbD_append, if_pos (by omega)]
    congr 1; omega
  · rw [BitVec.getLsbD_append, if_pos (by omega)]
    congr 1; omega

/-! ## Counted bytes -/

theorem takeBytes_append (bytes rest : List Byte) : takeBytes bytes.length (bytes ++ rest) = some (bytes, rest) := by
  induction bytes with
  | nil => rfl
  | cons b bytes ih => simp [takeBytes, ih]

theorem takeBytes_eq_some {n : Nat} {bs bytes rest : List Byte} (h : takeBytes n bs = some (bytes, rest)) :
    bs = bytes ++ rest ∧ bytes.length = n := by
  induction n generalizing bs bytes rest with
  | zero => simp only [takeBytes, Option.some.injEq, Prod.mk.injEq] at h; simp [← h.1, h.2]
  | succ n ih =>
    cases bs with
    | nil => simp [takeBytes] at h
    | cons b bs =>
      simp only [takeBytes] at h
      split at h
      · rename_i xs rest' hx
        simp only [Option.some.injEq, Prod.mk.injEq] at h
        obtain ⟨h1, h2⟩ := ih hx
        simp [← h.1, ← h.2, h1, h2]
      · cases h

/-- Counted bytes are there exactly when the stream is long enough. -/
theorem takeBytes_eq (n : Nat) (bs : List Byte) :
    takeBytes n bs = if n ≤ bs.length then some (bs.take n, bs.drop n) else none := by
  induction n generalizing bs with
  | zero => simp [takeBytes]
  | succ n ih =>
    cases bs with
    | nil => simp [takeBytes]
    | cons b bs =>
      simp only [takeBytes, ih]
      by_cases h : n ≤ bs.length <;> simp [h]

/-! ## Address records (R81, R89, R90) -/

/-- The fields of `sl`. -/
theorem slByte_fields (ssid : BitVec 4) (last : Bool) :
    slReserved (BitVec.ofBool last ++ 0#3 ++ ssid) = 0#3 ∧
    (BitVec.ofBool last ++ 0#3 ++ ssid : Byte).extractLsb' 0 4 = ssid ∧
    (BitVec.ofBool last ++ 0#3 ++ ssid : Byte).getLsbD 7 = last := by
  revert ssid last
  decide

/-- A byte `sl` without reserved bits is its fields. -/
theorem slByte_of_fields (sl : Byte) (h : slReserved sl = 0#3) :
    (BitVec.ofBool (sl.getLsbD 7) ++ 0#3 ++ sl.extractLsb' 0 4 : Byte) = sl := by
  revert h
  revert sl
  decide +kernel

/-- The reserved bits as a number. -/
theorem slReserved_ne_zero_iff (sl : Byte) : slReserved sl ≠ 0#3 ↔ sl.toNat / 16 % 8 ≠ 0 := by
  revert sl
  decide +kernel

/-- The printable bytes as numbers. -/
theorem printable_eq_false_iff (ch : Byte) : printable ch = false ↔ ch.toNat < 0x20 ∨ 0x7E < ch.toNat := by
  revert ch
  decide +kernel

/-- The record of a legal address decodes to it. -/
theorem addressOfRecord_slByte {a : Address} (h : a.wellFormed = true) :
    addressOfRecord (a.callsign, slByte a) = .ok a := by
  simp only [Address.wellFormed, Bool.and_eq_true, decide_eq_true_eq] at h
  obtain ⟨h1, h2, h3⟩ := slByte_fields a.ssid a.last
  simp only [addressOfRecord, slByte, h.2, h1, h2, h3]
  simp

/-- A decoded record is that of its address. -/
theorem addressOfRecord_eq_ok {rec : RawRecord} {a : Address} (hr : rec.1.length ≤ 255)
    (h : addressOfRecord rec = .ok a) : rec = (a.callsign, slByte a) ∧ a.wellFormed = true := by
  unfold addressOfRecord at h
  split at h
  · cases h
  · split at h
    · cases h
    · cases h
      refine ⟨?_, ?_⟩
      · have := slByte_of_fields rec.2 (by simp_all)
        simp only [slByte, this]
      · simp_all [Address.wellFormed]

/-- A record is refused for a byte of its callsign or for the reserved bits of `sl`. -/
theorem addressOfRecord_eq_error_iff (rec : RawRecord) (why : RefuseReason) :
    addressOfRecord rec = .error why ↔
      (why = .callsignByte ∧ ∃ ch ∈ rec.1, printable ch = false) ∨
      (why = .ssidBits ∧ (∀ ch ∈ rec.1, printable ch = true) ∧ slReserved rec.2 ≠ 0#3) := by
  have hall : rec.1.all printable = false ↔ ∃ ch ∈ rec.1, printable ch = false := by
    rw [← Bool.not_eq_true, List.all_eq_true]
    simp
  unfold addressOfRecord
  split
  · rename_i h
    have hx := hall.mp h
    constructor
    · intro h'; cases h'; exact .inl ⟨rfl, hx⟩
    · rintro (⟨rfl, -⟩ | ⟨-, hp, -⟩)
      · rfl
      · obtain ⟨ch, h1, h2⟩ := hx
        rw [hp ch h1] at h2
        cases h2
  · rename_i h
    have hp : ∀ ch ∈ rec.1, printable ch = true := by simpa using h
    have hx : ¬∃ ch ∈ rec.1, printable ch = false := fun hc => h (hall.mpr hc)
    split
    · constructor
      · intro h'; cases h'; exact .inr ⟨rfl, hp, ‹_›⟩
      · rintro (⟨-, hc⟩ | ⟨rfl, -, -⟩)
        · exact absurd hc hx
        · rfl
    · constructor
      · intro h'; cases h'
      · rintro (⟨-, hc⟩ | ⟨-, -, hc⟩)
        · exact absurd hc hx
        · exact absurd hc ‹_›

/-- The records of legal addresses decode to them. -/
theorem addressesOfRecords_slByte {chain : List Address} (h : chain.all Address.wellFormed = true) :
    addressesOfRecords (chain.map fun a => (a.callsign, slByte a)) = .ok chain := by
  induction chain with
  | nil => rfl
  | cons a chain ih =>
    simp only [List.all_cons, Bool.and_eq_true] at h
    simp [addressesOfRecords, addressOfRecord_slByte h.1, ih h.2]

theorem addressesOfRecords_eq_ok {recs : List RawRecord} {chain : List Address} (hr : ∀ rec ∈ recs, rec.1.length ≤ 255)
    (h : addressesOfRecords recs = .ok chain) :
    recs = chain.map (fun a => (a.callsign, slByte a)) ∧ chain.all Address.wellFormed = true := by
  induction recs generalizing chain with
  | nil => cases h; exact ⟨rfl, rfl⟩
  | cons rec recs ih =>
    simp only [addressesOfRecords] at h
    split at h
    · cases h
    · rename_i a ha
      split at h
      · cases h
      · rename_i chain' hc
        cases h
        obtain ⟨e1, e2⟩ := addressOfRecord_eq_ok (hr rec (by simp)) ha
        obtain ⟨f1, f2⟩ := ih (fun r h => hr r (by simp [h])) hc
        exact ⟨by rw [List.map_cons, ← e1, ← f1], by rw [List.all_cons, e2, f2]; rfl⟩

/-- Records are refused for the reason of one of them. -/
theorem addressesOfRecords_eq_error {recs : List RawRecord} {why : RefuseReason}
    (h : addressesOfRecords recs = .error why) : ∃ rec ∈ recs, addressOfRecord rec = .error why := by
  induction recs with
  | nil => cases h
  | cons rec recs ih =>
    simp only [addressesOfRecords] at h
    split at h
    · cases h
      exact ⟨rec, by simp, ‹_›⟩
    · split at h
      · cases h
        obtain ⟨r, h1, h2⟩ := ih ‹_›
        exact ⟨r, by simp [h1], h2⟩
      · cases h

/-- Any refused record refuses them all. -/
theorem addressesOfRecords_of_error {recs : List RawRecord} {rec : RawRecord} {why : RefuseReason} (hm : rec ∈ recs)
    (h : addressOfRecord rec = .error why) : ∃ why', addressesOfRecords recs = .error why' := by
  cases hr : addressesOfRecords recs with
  | error why' => exact ⟨why', rfl⟩
  | ok chain =>
    exfalso
    induction recs generalizing chain with
    | nil => cases hm
    | cons r recs ih =>
      simp only [addressesOfRecords] at hr
      split at hr
      · cases hr
      · split at hr
        · cases hr
        · rcases List.mem_cons.mp hm with rfl | hm
          · simp_all
          · exact ih hm _ ‹_›

/-- Records written out are read back. -/
theorem takeRecords_flatMap {recs : List RawRecord} (h : ∀ rec ∈ recs, rec.1.length ≤ 255) (rest : List Byte) :
    takeRecords recs.length (recs.flatMap Machine.recordBytes ++ rest) = some (recs, rest) := by
  induction recs with
  | nil => rfl
  | cons rec recs ih =>
    have hr := h rec (by simp)
    have ih := ih fun r hr => h r (by simp [hr])
    simp only [List.length_cons, List.flatMap_cons, Machine.recordBytes, List.cons_append, List.append_assoc,
      takeRecords, List.nil_append]
    rw [show (BitVec.ofNat 8 rec.1.length).toNat = rec.1.length by simp; omega, takeBytes_append]
    simp only [ih]

theorem takeRecords_eq_some {k : Nat} {bs rest : List Byte} {recs : List RawRecord}
    (h : takeRecords k bs = some (recs, rest)) :
    recs.length = k ∧ (∀ rec ∈ recs, rec.1.length ≤ 255) ∧ bs = recs.flatMap Machine.recordBytes ++ rest := by
  induction k generalizing bs recs with
  | zero =>
    simp only [takeRecords, Option.some.injEq, Prod.mk.injEq] at h
    obtain ⟨rfl, rfl⟩ := h
    simp
  | succ k ih =>
    cases bs with
    | nil => simp [takeRecords] at h
    | cons c bs =>
      simp only [takeRecords] at h
      split at h
      · rename_i cs sl rest1 hx
        obtain ⟨e1, e2⟩ := takeBytes_eq_some hx
        split at h
        · rename_i recs' rest' hy
          simp only [Option.some.injEq, Prod.mk.injEq] at h
          obtain ⟨rfl, rfl⟩ := h
          obtain ⟨f1, f2, f3⟩ := ih hy
          have := c.isLt
          refine ⟨by simp [f1], ?_, by simp [Machine.recordBytes, e1, e2, f3]⟩
          intro r hr
          rcases List.mem_cons.mp hr with rfl | hr
          · simp only [e2]; omega
          · exact f2 r hr
        · cases h
      · cases h
      · cases h

/-- The bytes of a chain are those of its records. -/
theorem flatMap_encodeAddress (chain : List Address) :
    chain.flatMap encodeAddress = (chain.map fun a => (a.callsign, slByte a)).flatMap Machine.recordBytes := by
  rw [List.flatMap_map]
  rfl

/-- Records are there exactly when the stream has their length (R94). -/
theorem takeRecords_isSome_iff (k : Nat) (bs : List Byte) :
    (takeRecords k bs).isSome = true ↔ recordsLength k bs ≤ bs.length := by
  induction k generalizing bs with
  | zero => simp [takeRecords, recordsLength]
  | succ k ih =>
    cases bs with
    | nil => simp [takeRecords, recordsLength]
    | cons c bs =>
      simp only [takeRecords, recordsLength, takeBytes_eq, List.length_cons]
      by_cases h : c.toNat ≤ bs.length
      · rw [if_pos h]
        cases hd : bs.drop c.toNat with
        | nil =>
          have hl := congrArg List.length hd
          simp only [List.length_drop, List.length_nil] at hl
          simp
          omega
        | cons sl rest =>
          have hl := congrArg List.length hd
          have hd1 : bs.drop (c.toNat + 1) = rest := by rw [← List.drop_drop, hd]; rfl
          have ih := ih rest
          simp only [List.length_drop, List.length_cons] at hl
          simp only [hd1]
          cases hr : takeRecords k rest with
          | none => rw [hr] at ih; simp at ih ⊢; omega
          | some p => rw [hr] at ih; simp at ih ⊢; omega
      · rw [if_neg h]
        simp
        omega

/-- What is left after the records. -/
theorem takeRecords_rest {k : Nat} {bs rest : List Byte} {recs : List RawRecord}
    (h : takeRecords k bs = some (recs, rest)) : rest = bs.drop (recordsLength k bs) := by
  induction k generalizing bs recs with
  | zero =>
    simp only [takeRecords, Option.some.injEq, Prod.mk.injEq] at h
    simp [recordsLength, h.2]
  | succ k ih =>
    cases bs with
    | nil => simp [takeRecords] at h
    | cons c bs =>
      simp only [takeRecords] at h
      split at h
      · rename_i cs sl rest1 hx
        obtain ⟨e1, e2⟩ := takeBytes_eq_some hx
        split at h
        · rename_i recs' rest' hy
          simp only [Option.some.injEq, Prod.mk.injEq] at h
          obtain ⟨-, rfl⟩ := h
          have hd : bs.drop (c.toNat + 1) = rest1 := by
            rw [e1, ← e2, List.drop_append]
            simp
          rw [ih hy, recordsLength, hd, ← hd, List.drop_drop, show 2 + c.toNat = c.toNat + 1 + 1 by omega,
            Nat.add_right_comm (c.toNat + 1) 1, List.drop_succ_cons]
        · cases h
      · cases h
      · cases h

/-! ## The decoder never gives a TICK -/

/-- A TICK is delivered, never decoded (R80). -/
theorem decode_ne_tick {m : Nat} {bytes rest : List Byte} : decode m bytes ≠ .cmd .tick rest := by
  intro h
  unfold decode at h
  split at h
  · cases h
  · split at h
    · cases h
    · rename_i o _
      cases o <;> simp only [decodeOperands] at h <;> (repeat' split at h) <;> cases h

end Sys2Proof
end

