-- ==== Sys2Proof/Laws/Crc.lean ====
section
/-! SUPPORT. The CRC step is linear over exclusive or, and a register fed its own bits only shifts. -/

set_option Elab.async false

namespace Sys2Proof.Machine

theorem crcStep_xor (c d : BitVec 16) (a b : Bool) : crcStep (c ^^^ d) (a ^^ b) = crcStep c a ^^^ crcStep d b := by
  unfold crcStep
  rw [BitVec.getLsbD_xor]
  have h1 : (c ^^^ d) >>> 1 = c >>> 1 ^^^ d >>> 1 := by
    ext i; simp
  rw [h1]
  generalize c >>> 1 = x
  generalize d >>> 1 = y
  cases c.getLsbD 0 <;> cases d.getLsbD 0 <;> cases a <;> cases b <;> simp <;> ac_nf <;> simp

/-- The same over lists of bits. -/
theorem foldl_crcStep_xor (bits : List (Bool × Bool)) (c d : BitVec 16) :
    (bits.map fun p => p.1 ^^ p.2).foldl crcStep (c ^^^ d) =
      (bits.map Prod.fst).foldl crcStep c ^^^ (bits.map Prod.snd).foldl crcStep d := by
  induction bits generalizing c d with
  | nil => rfl
  | cons p bits ih => simp only [List.map_cons, List.foldl_cons, crcStep_xor, ih]

/-- Fed its own bits, the register shifts. -/
theorem foldl_crcStep_own (n : Nat) (c : BitVec 16) : ((List.range n).map c.getLsbD).foldl crcStep c = c >>> n := by
  induction n with
  | zero => simp
  | succ n ih =>
    rw [List.range_succ, List.map_append, List.foldl_append, ih]
    simp only [List.map_cons, List.map_nil, List.foldl_cons, List.foldl_nil]
    have h : c.getLsbD n = (c >>> n).getLsbD 0 := by simp
    rw [h, BitVec.shiftRight_add]
    simp [crcStep]

end Sys2Proof.Machine
end

