-- ==== Sys2Proof/Laws/Invariant.lean ====
section
/-! SUPPORT. The invariant: it does not depend on FAULT and the model's own fields, and a check that finds it. -/

set_option Elab.async false

namespace Sys2Proof.Machine

/-- The invariant says nothing of FAULT, the trace, the stream, the turns and the draws. -/
theorem State.Inv.withOwn {s : State} (h : s.Inv) (fault : Option ModelFault) (trace : List Output) (stream : List Byte)
    (turns : List Agent) (settle : List Bool) (draws : Nat) :
    State.Inv { s with
      fault := fault, trace := trace, stream := stream, turns := turns, settle := settle, draws := draws } :=
  ⟨h.legal, ⟨h.mem.wf, h.mem.inside⟩, ⟨h.frame.ones, h.frame.bitlen, h.frame.pad, h.frame.noFrame⟩,
    ⟨h.session.sstate, h.session.active,
      fun hs => by cases h.session.idle hs; constructor <;> assumption,
      fun hs => by cases h.session.transmitting hs; constructor <;> assumption⟩⟩

/-- The invariant as a computation. -/
def State.invCheck (s : State) : Bool :=
  s.cfg.legal && decide s.buf.wf && decide (∀ c ∈ s.buf, c.1 < s.cfg.maxFrameBytes) &&
  decide (s.ones.toNat ≤ 4 ∧ s.bitlen.toNat ≤ s.cfg.capBits ∧ s.outb.toNat % 2 ^ (8 - s.bitlen.toNat % 8) = 0) &&
  decide (s.fstate = .noFrame → s.bitlen = 0#20 ∧ s.ferr = .none ∧ s.crc = 0xFFFF#16 ∧ s.ones = 0#3) &&
  (match s.sstate with
    | .idle =>
      decide (s.active = false ∧ s.tone = .mark ∧ s.phase = 0#32 ∧ s.inc = 0#32 ∧ s.budget = 0#16 ∧ s.cursor = 0#20 ∧
        s.txlen = 0#20 ∧ s.timerEn = false ∧ s.txEn = false)
    | .transmitting =>
      decide (s.active = true ∧ s.txEn = true ∧ s.fstate = .finalized ∧ s.ferr = .none ∧ s.txlen = s.bitlen ∧
        s.cursor.toNat ≤ s.txlen.toNat ∧ s.budget.toNat ≤ s.cfg.spb ∧ s.phase.toNat < s.cfg.phaseMod ∧
        s.inc.toNat = incOf s.cfg s.tone)
    | .draining => false)

theorem State.inv_of_invCheck {s : State} (h : s.invCheck = true) : s.Inv := by
  simp only [State.invCheck, Bool.and_eq_true, decide_eq_true_eq] at h
  obtain ⟨⟨⟨⟨⟨h1, h2⟩, h3⟩, h4, h5, h6⟩, h7⟩, h8⟩ := h
  refine ⟨h1, ⟨h2, h3⟩, ⟨h4, h5, h6, h7⟩, ?_⟩
  cases hs : s.sstate <;> simp only [hs, decide_eq_true_eq, Bool.false_eq_true] at h8
  · obtain ⟨a, b, c, d, e, f, g, i, j⟩ := h8
    exact ⟨.inl hs, by simp [hs, a], fun _ => ⟨b, c, d, e, f, g, i, j⟩, fun hc => absurd (hs.symm.trans hc) (by simp)⟩
  · obtain ⟨a, b, c, d, e, f, g, i, j⟩ := h8
    exact ⟨.inr hs, by simp [hs, a], fun hc => absurd (hs.symm.trans hc) (by simp), fun _ => ⟨b, c, d, e, f, g, i, j⟩⟩

end Sys2Proof.Machine
end

