-- ==== Sys2Proof/Laws/PerInstr.lean ====
section
/-! SUPPORT. Statements about every instruction as syntax, one lemma for each constructor. -/

set_option Elab.async false

namespace Sys2Proof.Laws.EncodeLength

/-- The encoding of an instruction has the length opcode_table.json gives its row (30_encoding.md R94). -/
def Statement (i : Instr) : Prop :=
  (encode i).length =
    match i with
    | .reset => 1
    | .readReg _ => 2
    | .readBuf _ => 3
    | .beginFrame => 1
    | .writeFlags _ => 2
    | .writeAddressChain chain => 2 + (chain.map fun a => 2 + a.callsign.length).sum
    | .writeControlAndPid => 1
    | .writePayload bytes => 3 + bytes.length
    | .writeFcsAndTrailer => 1
    | .startTx => 1
    | .stopTimer => 1
    | .tableLookup _ => 5
    | .tick => 0

theorem reset : Statement .reset := rfl
theorem readReg (reg : Reg) : Statement (.readReg reg) := rfl
theorem readBuf (idx : BitVec 16) : Statement (.readBuf idx) := rfl
theorem beginFrame : Statement .beginFrame := rfl
theorem writeFlags (n : Byte) : Statement (.writeFlags n) := rfl
theorem writeControlAndPid : Statement .writeControlAndPid := rfl
theorem writeFcsAndTrailer : Statement .writeFcsAndTrailer := rfl
theorem startTx : Statement .startTx := rfl
theorem stopTimer : Statement .stopTimer := rfl
theorem tableLookup (k : BitVec 32) : Statement (.tableLookup k) := rfl
theorem tick : Statement .tick := rfl

theorem writePayload (bytes : List Byte) : Statement (.writePayload bytes) := by
  simp only [Statement, encode, List.length_cons, List.length_append, bytesOf16, List.length_nil]
  omega

theorem writeAddressChain (chain : List Address) : Statement (.writeAddressChain chain) := by
  have h : (chain.flatMap encodeAddress).length = (chain.map fun a => 2 + a.callsign.length).sum := by
    rw [List.length_flatMap]
    refine congrArg List.sum (List.map_congr_left fun a _ => ?_)
    simp only [encodeAddress, List.length_cons, List.length_append, List.length_nil]
    omega
  simp only [Statement, encode, List.length_cons, h]
  omega

end Sys2Proof.Laws.EncodeLength
end

