-- ==== Sys2Proof/Laws/Step.lean ====
section
/-! SUPPORT. What one step can do: it runs the command decoded from the stream or a TICK, or passes. Later proofs cite
`step_cases` and do not unfold `arrival`. -/

set_option Elab.async false

namespace Sys2Proof.Machine

/-- What `hostTurn` gives. -/
theorem hostTurn_run {s u : State} {i : Instr} (h : s.hostTurn = .run i u) :
    u = { s with stream := u.stream } ∧ i ≠ .tick ∧ decode s.cfg.maxFrameBytes s.stream = .cmd i u.stream := by
  unfold State.hostTurn at h
  split at h
  · rename_i j rest hd
    cases h
    exact ⟨rfl, fun hi => decode_ne_tick (hi ▸ hd), hd⟩
  · cases h
  · cases h

/-- Where a run command comes from, and that taking it changes the turns and the stream alone. -/
theorem arrival_run {s u : State} {i : Instr} (h : s.arrival = .run i u) :
    s.fault = none ∧ s.cfg.legal = true ∧ u = { s with turns := u.turns, stream := u.stream } ∧
    ((i = .tick ∧ s.timerEn = true ∧ s.turns = .timer :: u.turns) ∨
     (i ≠ .tick ∧ decode s.cfg.maxFrameBytes s.stream = .cmd i u.stream)) := by
  unfold State.arrival at h
  split at h
  · cases h
  · split at h
    · refine ⟨‹_›, ‹_›, ?_⟩
      split at h
      · obtain ⟨h1, h2, h3⟩ := hostTurn_run h
        exact ⟨by rw [h1], .inr ⟨h2, h3⟩⟩
      · obtain ⟨h1, h2, h3⟩ := hostTurn_run h
        exact ⟨by rw [h1], .inr ⟨h2, h3⟩⟩
      · unfold State.timerTurn at h
        split at h
        · cases h
          exact ⟨rfl, .inl ⟨rfl, ‹_›, ‹_›⟩⟩
        · cases h
    · cases h

/-- A step that runs nothing changes the turns and the stream, and may answer ILLEGAL (R95, R96, R258). -/
theorem arrival_pass {s t : State} (h : s.arrival = .pass t) :
    s.fault = none ∧ s.cfg.legal = true ∧ ∃ (turns : List Agent) (stream : List Byte) (new : List Output),
      (new = [] ∨ new = [.resp .illegal 0#32]) ∧
      t = { s with turns := turns, stream := stream, trace := s.trace ++ new } := by
  have host : ∀ {u : State}, u.hostTurn = .pass t → ∃ (stream : List Byte) (new : List Output),
      (new = [] ∨ new = [.resp .illegal 0#32]) ∧ t = { u with stream := stream, trace := u.trace ++ new } := by
    intro u hu
    unfold State.hostTurn at hu
    split at hu
    · cases hu
    · cases hu; exact ⟨_, _, .inr rfl, rfl⟩
    · cases hu; exact ⟨t.stream, [], .inl rfl, by simp⟩
  unfold State.arrival at h
  split at h
  · cases h
  · split at h
    · refine ⟨‹_›, ‹_›, ?_⟩
      split at h
      · obtain ⟨stream, new, hn, rfl⟩ := host h
        exact ⟨_, _, new, hn, rfl⟩
      · obtain ⟨stream, new, hn, rfl⟩ := host h
        exact ⟨_, _, new, hn, rfl⟩
      · unfold State.timerTurn at h
        split at h
        · cases h
        · cases h
          exact ⟨_, s.stream, [], .inl rfl, by simp; rfl⟩
    · cases h

/-- A step that answers a next state has run an arrival, or passed. -/
theorem step_cases {s t : State} (h : step s = .next t) :
    (∃ i u, s.arrival = .run i u ∧ exec i u = .next t) ∨ s.arrival = .pass t := by
  unfold step at h
  split at h
  · exact .inl ⟨_, _, ‹_›, h⟩
  · cases h; exact .inr ‹_›
  · cases h
  · cases h

end Sys2Proof.Machine
end

