-- ==== Sys2Proof/Laws/ToneTable.lean ====
section
/-! SUPPORT. The Tone Table of a legal configuration: every quarter-wave index in range names an entry, every entry and
every looked-up value is a sample code. -/

set_option Elab.async false

namespace Sys2Proof.Machine

/-- A quarter-wave entry (R170). -/
theorem quarter_spec {c : Config} (h : c.legal = true) {i : Nat} (hi : i < c.q) :
    c.qtable[i]? = some (quarter c i) ∧ quarter c i ≤ c.maxv := by
  have hlen : i < c.qtable.length := by rw [Config.qtable_length h]; exact hi
  have he : quarter c i = c.qtable[i] := by simp [quarter, hlen]
  rw [he]
  exact ⟨by simp [hlen], Config.qtable_le h _ (List.getElem_mem _)⟩

/-- Every index of the period has its value (R171, R172). -/
theorem lookup_le {c : Config} (h : c.legal = true) (k : Nat) : lookup c k ≤ c.maxv := by
  have hq := Config.q_range h
  have hj : k % (4 * c.q) < 4 * c.q := Nat.mod_lt _ (by omega)
  unfold lookup Config.p
  simp only
  split
  · exact (quarter_spec h ‹_›).2
  · split
    · exact (quarter_spec h (by omega)).2
    · split <;> omega

end Sys2Proof.Machine
end

