-- ==== Sys2Proof/Tests/Slice0.lean ====
section
/-! SUPPORT. Tests of the model. Expected results are those of spec/95_test_vectors.md (the V-… ids) or written out from
the cited rule, never the model's own answers. -/

set_option Elab.async false

namespace Sys2Proof.Tests

open Sys2Proof Sys2Proof.Machine

/-! ## Ill-formed terms are refused -/

theorem test_wf_readBuf : (Instr.readBuf 330).wellFormed 330 = false ∧ (Instr.readBuf 329).wellFormed 330 = true := by
  decide

theorem test_wf_writeFlags : (Instr.writeFlags 0).wellFormed 330 = false ∧ (Instr.writeFlags 255).wellFormed 330 = true := by
  decide

/-- R88: at most 255 addresses. -/
theorem test_wf_chainLength :
    (Instr.writeAddressChain (List.replicate 256 ⟨[], 0, false⟩)).wellFormed 330 = false := by decide +kernel

/-- R89: a callsign's length is a byte. -/
theorem test_wf_callsignLength :
    (Instr.writeAddressChain [⟨List.replicate 256 0x41, 0, true⟩]).wellFormed 330 = false := by decide +kernel

/-- R97 item 5, past the sixth character too (V-ENC-15). -/
theorem test_wf_callsignByte :
    (Instr.writeAddressChain [⟨[0x41, 0x42, 0x43, 0x44, 0x45, 0x46, 0x47, 0x7F], 0, true⟩]).wellFormed 330 = false ∧
    (Instr.writeAddressChain [⟨[0x1F], 0, true⟩]).wellFormed 330 = false ∧
    (Instr.writeAddressChain [⟨[0x20, 0x7E], 15, true⟩]).wellFormed 330 = true := by decide

/-- R91: at most 65535 payload bytes. -/
theorem test_wf_payload (n : Nat) :
    (Instr.writePayload (List.replicate n 0x00)).wellFormed 330 = decide (n ≤ 65535) := by
  simp [Instr.wellFormed]

/-! ## Decoding, from words written out by R81 and R83 -/

theorem test_decode_reset : decode 330 [0x01, 0x10] = .cmd .reset [0x10] := by decide
theorem test_decode_readReg : decode 330 [0x02, 0x08] = .cmd (.readReg .txlen) [] := by decide
/-- V-ENC-4. -/
theorem test_decode_readBuf : decode 330 [0x03, 0x01, 0x2C] = .cmd (.readBuf 300) [] := by decide
theorem test_decode_beginFrame : decode 330 [0x10] = .cmd .beginFrame [] := by decide
/-- V-ENC-1. -/
theorem test_decode_writeFlags : decode 330 [0x11, 0x02] = .cmd (.writeFlags 2) [] := by decide
/-- V-ENC-16 and V-ENC-6. -/
theorem test_decode_writeAddressChain :
    decode 330 [0x12, 0x01, 0x08, 0x41, 0x42, 0x43, 0x44, 0x45, 0x46, 0x47, 0x48, 0x8F] =
      .cmd (.writeAddressChain [⟨[0x41, 0x42, 0x43, 0x44, 0x45, 0x46, 0x47, 0x48], 15, true⟩]) [] ∧
    decode 330 [0x12, 0x00] = .cmd (.writeAddressChain []) [] := by decide
theorem test_decode_writeControlAndPid : decode 330 [0x13] = .cmd .writeControlAndPid [] := by decide
/-- V-ENC-3 and V-ENC-7. -/
theorem test_decode_writePayload :
    decode 330 [0x14, 0x00, 0x04, 0x54, 0x45, 0x53, 0x54] = .cmd (.writePayload [0x54, 0x45, 0x53, 0x54]) [] ∧
    decode 330 [0x14, 0x00, 0x00] = .cmd (.writePayload []) [] := by decide
theorem test_decode_writeFcsAndTrailer : decode 330 [0x15] = .cmd .writeFcsAndTrailer [] := by decide
theorem test_decode_startTx : decode 330 [0x20] = .cmd .startTx [] := by decide
theorem test_decode_stopTimer : decode 330 [0x21] = .cmd .stopTimer [] := by decide
theorem test_decode_tableLookup : decode 330 [0x30, 0x12, 0x34, 0x56, 0x78] = .cmd (.tableLookup 0x12345678) [] := by decide

/-- V-ENC-8 to V-ENC-15: the refused encodings, and where decoding resumes. -/
theorem test_decode_refused :
    decode 330 [0x00, 0x10] = .refused .opcode [0x10] ∧ decode 330 [0x16] = .refused .opcode [] ∧
    decode 330 [0x22] = .refused .opcode [] ∧ decode 330 [0x31] = .refused .opcode [] ∧
    decode 330 [0xFF] = .refused .opcode [] ∧ decode 330 [0x02, 0x09] = .refused .register [] ∧
    decode 330 [0x03, 0x01, 0x4A] = .refused .index [] ∧ decode 330 [0x11, 0x00, 0x20] = .refused .zeroFlags [0x20] ∧
    decode 330 [0x12, 0x01, 0x01, 0x19, 0x80] = .refused .callsignByte [] ∧
    decode 330 [0x12, 0x01, 0x01, 0x41, 0x10] = .refused .ssidBits [] := by decide

/-- V-ENC-17: an incomplete command waits (R95). -/
theorem test_decode_incomplete : decode 330 [0x14, 0x00, 0x05, 0x54, 0x45] = .incomplete := by decide

/-- The table's words (opcode_table.json: `match` in byte 0, operand bytes zero): each row with operand words of zeros is
its command, but for `WRITE_FLAGS`, whose zero operand is refused (R97 item 4). -/
theorem test_decodeTableWord :
    [decodeTableWord 8 0x01, decodeTableWord 8 0x02, decodeTableWord 8 0x03, decodeTableWord 8 0x10,
      decodeTableWord 8 0x11, decodeTableWord 8 0x12, decodeTableWord 8 0x13, decodeTableWord 8 0x14,
      decodeTableWord 8 0x15, decodeTableWord 8 0x20, decodeTableWord 8 0x21, decodeTableWord 8 0x30,
      decodeTableWord 16 0x0211] =
    [some .reset, some (.readReg .status), some (.readBuf 0), some .beginFrame, none, some (.writeAddressChain []),
      some .writeControlAndPid, some (.writePayload []), some .writeFcsAndTrailer, some .startTx, some .stopTimer,
      some (.tableLookup 0), some (.writeFlags 2)] := by decide

/-! ## Small states -/

/-- The state after commands, from a state in which they all complete. -/
def after (s : State) : List Instr → State
  | [] => s
  | i :: is =>
    match exec i s with
    | .next t => after t is
    | .fault _ => s
    | .refused _ => s

/-- A field of the next state. -/
def got {α : Type} (o : Host.Outcome State Fault Refusal) (f : State → α) : Option α :=
  match o with
  | .next t => some (f t)
  | .fault _ => none
  | .refused _ => none

/-- Power-on with the capacity and the flag count of a test configuration. -/
def power (maxFrameBytes flagCount : Nat) : State :=
  { State.reset with cfg := { Config.t with maxFrameBytes := maxFrameBytes, flagCount := flagCount } }

/-- Fresh under T (95_test_vectors.md): power-on, `BEGIN_FRAME`, here with the trace emptied. -/
def fresh : State := { after (power 330 2) [.beginFrame] with trace := [] }

/-- An open frame of 8 bits under T. -/
def flagged : State := { after fresh [.writeFlags 1] with trace := [] }

/-- An open frame of V-STF-1 under T: 9 bits, a bit pending in OUTB, ONES = 3. -/
def pending : State := { after fresh [.writePayload [0xFF]] with trace := [] }

/-- Fresh with a full buffer of one byte (T1/1), no error yet. -/
def full : State := { after (power 1 1) [.beginFrame, .writeFlags 1] with trace := [] }

/-- A frame whose chain was rejected (V-ADR-3). -/
def failed : State := { after fresh [.writeAddressChain []] with trace := [] }

/-- The minimal frame under T1 (V-FCS-2), finished. -/
def finished : State := { after (power 330 1) [.beginFrame, .writeFlags 1, .writeFcsAndTrailer] with trace := [] }

/-- The session of V-TX-1, just started. -/
def sending : State := { after { finished with settle := [true] } [.startTx] with trace := [] }

/-- The same session after its first TICK (V-TK-1). -/
def ticking : State := { after sending [.tick] with trace := [] }

/-- A session at its end: every bit sent. -/
def sent : State := { sending with cursor := sending.txlen }

theorem inv_fresh : fresh.Inv := State.inv_of_invCheck (by decide +kernel)
theorem inv_pending : pending.Inv := State.inv_of_invCheck (by decide +kernel)
theorem inv_full : full.Inv := State.inv_of_invCheck (by decide +kernel)
theorem inv_failed : failed.Inv := State.inv_of_invCheck (by decide +kernel)
theorem inv_finished : finished.Inv := State.inv_of_invCheck (by decide +kernel)
theorem inv_sending : sending.Inv := State.inv_of_invCheck (by decide +kernel)
theorem inv_ticking : ticking.Inv := State.inv_of_invCheck (by decide +kernel)
theorem inv_sent : sent.Inv := State.inv_of_invCheck (by decide +kernel)

theorem writable_fresh : fresh.Writable := ⟨by decide +kernel, by decide +kernel, by decide +kernel⟩
theorem writable_pending : pending.Writable := ⟨by decide +kernel, by decide +kernel, by decide +kernel⟩
theorem writable_full : full.Writable := ⟨by decide +kernel, by decide +kernel, by decide +kernel⟩

/-! ## The configuration -/

/-- V-LUT-6 and the length of the default table of 128 entries. -/
theorem test_qtable128 :
    Config.qtable128.length = 128 ∧ Config.qtable128.take 4 = [128, 130, 131, 133] ∧
    Config.qtable128.all (fun v => decide (v ≤ 255)) = true := by decide +kernel

/-- V-INC-1 to V-INC-4. -/
theorem test_defaultIncrement :
    [Config.defaultIncrement 1200 16 8 9600, Config.defaultIncrement 2200 16 8 9600,
      Config.defaultIncrement 1200 512 16 9600, Config.defaultIncrement 2200 512 16 9600] =
    [512, 938, 4194304, 7689557] := by decide +kernel

/-- R6, R8: T is legal; a number past each range is not. -/
theorem test_legal :
    Config.t.legal = true ∧ { Config.t with maxFrameBytes := 0 }.legal = false ∧
    { Config.t with maxFrameBytes := 65537 }.legal = false ∧ { Config.t with flagCount := 256 }.legal = false ∧
    { Config.t with qtable := [0] }.legal = false ∧ { Config.t with qtable := [152, 198, 234, 256] }.legal = false ∧
    { Config.t with incSpace := 4096 }.legal = false ∧ { Config.t with spb := 0 }.legal = false ∧
    { Config.t with f := 17 }.legal = false ∧ { Config.t with r := 17 }.legal = false ∧
    { Config.t with preemph := .ratio 4 4 }.legal = false := by decide +kernel

/-! ## Primitives -/

/-- V-CRC-1. -/
theorem test_crcStep :
    [crcStep 0xFFFF true, crcStep 0xFFFF false, crcStep 0 false, crcStep 0 true, crcStep 1 false, crcStep 0x8408 false] =
    [0x7FFF, 0xFBF7, 0, 0x8408, 0x8408, 0x4204] := by decide

/-- V-CRC-3: the register over the ASCII bytes "123456789". -/
theorem test_crc_check :
    (bytesBits [0x31, 0x32, 0x33, 0x34, 0x35, 0x36, 0x37, 0x38, 0x39]).foldl crcStep 0xFFFF = 0x6F91 := by
  decide +kernel

/-- S3: the payload FF FF, stuffed at 5, 11 and 17. -/
theorem test_stuffFrom :
    stuffFrom 0 (bytesBits [0xFF, 0xFF]) =
      [true, true, true, true, true, false, true, true, true, true, true, false, true, true, true, true, true, false,
        true] := by decide

/-- V-PAY-4, V-PAY-5 and V-PAY-6: with room for 8 bits, seven, seven and eight content bits fit. -/
theorem test_fitting :
    (fitting 8 0 (bytesBits [0xFF])).length = 7 ∧ (fitting 8 0 (bytesBits [0x1F])).length = 7 ∧
    (fitting 8 0 (bytesBits [0xF8])).length = 8 := by decide

/-- R143's examples. -/
theorem test_addressBytes :
    callsignByte 0x43 = 0x86 ∧ ssidByte 0 false = 0x60 ∧ ssidByte 7 true = 0x6F ∧ ssidByte 15 true = 0x7F := by decide

/-- V-PE-1 and V-PE-2. -/
theorem test_preemphasise :
    [234, 1, 255, 0, 2].map (preemphasise Config.t) = [175, 0, 191, 0, 1] ∧
    [234, 2].map (preemphasise { Config.t with preemph := .midScale 3 4 }) = [207, 33] := by decide +kernel

/-- V-PH-1 and V-PH-2: the wrap of the phase. -/
theorem test_phaseAdvance :
    (State.phaseAdvance { State.reset with phase := 3752, inc := 938 }).phase = 594 ∧
    (State.phaseAdvance { State.reset with phase := 3584, inc := 512 }).phase = 0 := by decide +kernel

/-- V-ENC-18, V-ENC-19 and V-ENC-8: responses as bytes. -/
theorem test_responseBytes :
    responseBytes .frameOverflow 0 = [0x01, 0, 0, 0, 0] ∧ responseBytes .ok 208 = [0, 0, 0, 0, 0xD0] ∧
    responseBytes .illegal 0 = [0xFF, 0, 0, 0, 0] := by decide

/-! ## One step of each command -/

/-- V-RST-3: RESET during a session. -/
theorem test_reset : got (exec .reset ticking) (fun t => (t.trace, t.statusWord, t.crc, t.phase)) =
    some ([.txEnable false, .resp .ok 0], 0, 0xFFFF, 0) := by decide +kernel

/-- V-RST-2: RESET at power-on emits no event. -/
theorem test_reset_unkeyed : got (exec .reset (power 330 2)) (fun t => t.trace) = some [.resp .ok 0] := by
  decide +kernel

/-- V-TX-1 read back: STATUS 0x000001D2. -/
theorem test_readReg_status : got (exec (.readReg .status) sending) (fun t => t.trace) = some [.resp .ok 0x1D2] := by
  decide +kernel

/-- V-RD-7: OUTB of V-STF-1. -/
theorem test_readReg_outb : got (exec (.readReg .outb) pending) (fun t => t.trace) = some [.resp .ok 0x80] := by
  decide +kernel

/-- V-RD-7: byte 0 of V-STF-1. -/
theorem test_readBuf : got (exec (.readBuf 0) pending) (fun t => (t.trace, t.draws)) = some ([.resp .ok 0xFB], 0) := by
  decide +kernel

/-- V-RD-7, V-RD-12: outside the extent the read completes with a drawn byte. -/
theorem test_readBuf_draws :
    got (exec (.readBuf 1) pending) (fun t => t.draws) = some 1 ∧
    got (exec (.readBuf 0) (power 330 2)) (fun t => t.draws) = some 1 := by decide +kernel

/-- V-RD-8, from a failed frame: FERR is cleared. -/
theorem test_beginFrame : got (exec .beginFrame failed) (fun t => (t.statusWord, t.crc, t.trace)) =
    some (1, 0xFFFF, [.resp .ok 0]) := by decide +kernel

/-- V-FLT-3. -/
theorem test_beginFrame_race : got (exec .beginFrame sending) (fun t => (t.fault, t.trace)) =
    some (some .bufferRace, []) := by decide +kernel

/-- V-FLG-2: a flag that straddles bytes 1 and 2. -/
theorem test_writeFlags :
    got (exec (.writeFlags 1) pending) (fun t => (t.bitlen, t.buf, t.outb, t.crc, t.ones)) =
      some (17, [(0, 0xFB), (1, 0xBF)], 0, 0x00FF, 0) := by decide +kernel

/-- V-FLG-4. -/
theorem test_writeFlags_sequence : got (exec (.writeFlags 1) (power 330 2)) (fun t => (t.fault, t.trace)) =
    some (some .sequenceViolation, []) := by decide +kernel

/-- V-ADR-1: truncation and a stuffed bit. -/
theorem test_writeAddressChain :
    got (exec (.writeAddressChain [⟨[0x41, 0x42, 0x43, 0x44, 0x45, 0x46, 0x47, 0x48], 15, true⟩]) fresh)
      (fun t => (t.bitlen, t.buf.map (·.2), t.crc)) =
      some (57, [0x41, 0x21, 0x61, 0x11, 0x51, 0x31, 0xF7], 0x7FD6) := by decide +kernel

/-- V-ADR-4: a `last` flag on an address that is not the final one. -/
theorem test_writeAddressChain_last :
    got (exec (.writeAddressChain [⟨[0x41], 0, true⟩, ⟨[0x42], 1, true⟩]) fresh)
      (fun t => (t.bitlen, t.ferr, t.crc, t.trace)) =
      some (0, .invalidChain, 0xFFFF, [.resp .invalidAddressChain 0]) := by decide +kernel

/-- V-CTL-1. -/
theorem test_writeControlAndPid :
    got (exec .writeControlAndPid fresh) (fun t => (t.bitlen, t.buf, t.crc, t.ones)) =
      some (16, [(0, 0xC0), (1, 0x0F)], 0x2D5F, 4) := by decide +kernel

/-- V-STF-2. -/
theorem test_writePayload :
    got (exec (.writePayload [0xFF, 0xFF]) fresh) (fun t => (t.bitlen, t.buf, t.outb, t.ones, t.crc)) =
      some (19, [(0, 0xFB), (1, 0xEF)], 0xA0, 1, 0) := by decide +kernel

/-- V-PAY-6: the stuffed bit finds the buffer full. -/
theorem test_writePayload_overflow :
    got (exec (.writePayload [0xF8]) (after (power 1 1) [.beginFrame]))
      (fun t => (t.bitlen, t.buf, t.ones, t.crc, t.ferr)) = some (8, [(0, 0x1F)], 0, 0x7440, .overflow) := by
  decide +kernel

/-- V-FCS-3: a partial last byte. -/
theorem test_writeFcsAndTrailer :
    got (exec .writeFcsAndTrailer (after (power 330 1) [.beginFrame, .writeFlags 1, .writePayload [0xFF]]))
      (fun t => (t.bitlen, t.buf.map (·.2), t.crc, t.fstate, t.outb)) =
      some (42, [0x7E, 0xFB, 0x80, 0x7D, 0xDF, 0x80], 0xF0B8, .finalized, 0) := by decide +kernel

/-- V-FCS-6: a failed frame is finalized as it stands. -/
theorem test_writeFcsAndTrailer_failed :
    got (exec .writeFcsAndTrailer { failed with ferr := .overflow }) (fun t => (t.bitlen, t.fstate, t.crc, t.trace)) =
      some (0, .finalized, 0xFFFF, [.resp .frameOverflow 0]) := by decide +kernel

/-- V-TX-1. -/
theorem test_startTx :
    got (exec .startTx { finished with settle := [true] })
      (fun t => (t.trace, t.txlen, t.inc, t.budget, t.statusWord)) =
      some ([.txEnable true, .keyDelay, .resp .ok 0], 32, 512, 0, 0x1D2) := by decide +kernel

/-- V-TX-2. -/
theorem test_startTx_timeout :
    got (exec .startTx { finished with settle := [false] }) (fun t => (t.trace, t.statusWord)) =
      some ([.txEnable true, .txEnable false, .resp .configurationTimeout 0], 2) := by decide +kernel

/-- V-STP-1. -/
theorem test_stopTimer : got (exec .stopTimer ticking) (fun t => (t.timerEn, t.active, t.txEn, t.trace)) =
    some (false, true, true, [.resp .ok 0]) := by decide +kernel

/-- V-LUT-9, V-LUT-3. -/
theorem test_tableLookup :
    got (exec (.tableLookup 5) sending) (fun t => t.trace) = some [.resp .ok 234] ∧
    got (exec (.tableLookup 0xFFFFFFFF) sending) (fun t => t.trace) = some [.resp .ok 103] := by decide +kernel

/-- V-TK-1. -/
theorem test_tick :
    got (exec .tick sending) (fun t => (t.tone, t.inc, t.budget)) = some (.space, 938, 7) ∧
    got (exec .tick sending) (fun t => (t.cursor, t.phase, t.trace)) = some (1, 938, [.sampleOut 253]) := by
  decide +kernel

/-- V-TK-5. -/
theorem test_tick_end :
    got (exec .tick sent) (fun t => (t.trace, t.statusWord, t.txlen, t.inc)) = some ([.txEnable false], 2, 0, 0) := by
  decide +kernel

/-- The steps of the host's stream and of the timer. -/
theorem test_step_host :
    got (step ((power 330 2).withFetchWord 8 0x10)) (fun t => (t.fstate, t.stream, t.turns)) =
      some (.opened, [], []) ∧
    got (step ((power 330 2).withFetchWord 8 0x00)) (fun t => (t.trace, t.stream)) =
      some ([.resp .illegal 0], []) := by decide +kernel

theorem test_step_timer :
    got (step { ticking with turns := [.timer] }) (fun t => t.budget) = some 6 ∧
    got (step { ticking with turns := [.timer], timerEn := false }) (fun t => t.budget) = some 7 := by decide +kernel

/-! ## Witnesses: for each statement with hypotheses, states and operands that meet them together -/

/-- An outcome is a next state. -/
def isNext (o : Host.Outcome State Fault Refusal) : Bool :=
  match o with
  | .next _ => true
  | .fault _ => false
  | .refused _ => false

theorem next_of_isNext {o : Host.Outcome State Fault Refusal} (h : isNext o = true) : ∃ t, o = .next t := by
  cases o with
  | next t => exact ⟨t, rfl⟩
  | fault _ => cases h
  | refused _ => cases h

/-- A field of a next state, as an equation. -/
theorem next_field {α : Type} {o : Host.Outcome State Fault Refusal} {f : State → α} {v : α} (h : got o f = some v) :
    ∃ t, o = .next t ∧ f t = v := by
  cases o with
  | next t => exact ⟨t, rfl, Option.some.inj h⟩
  | fault _ => cases h
  | refused _ => cases h

theorem witness_StepKeepsInvariant : ∃ s t : State, s.Inv ∧ step s = .next t := by
  obtain ⟨t, h⟩ := next_of_isNext (o := step { sending with turns := [.timer] }) (by decide +kernel)
  exact ⟨_, t, inv_sending.withOwn _ _ _ _ _ _, h⟩

theorem witness_StepRunsTheDecodedCommand :
    (∃ (s : State) (i : Instr) (rest : List Byte) (later : List Agent), s.fault = none ∧ s.cfg.legal = true ∧
      decode s.cfg.maxFrameBytes s.stream = .cmd i rest ∧ s.turns = .host :: later) ∧
    (∃ (s : State) (i : Instr) (rest : List Byte), s.fault = none ∧ s.cfg.legal = true ∧
      decode s.cfg.maxFrameBytes s.stream = .cmd i rest ∧ s.turns = []) :=
  ⟨⟨{ finished with stream := [0x20, 0x21], turns := [.host, .timer] }, .startTx, [0x21], [.timer], by decide +kernel⟩,
    ⟨{ finished with stream := [0x20, 0x21] }, .startTx, [0x21], by decide +kernel⟩⟩

theorem witness_TimerTurnTicksWhileEnabled :
    (∃ (s : State) (later : List Agent), s.fault = none ∧ s.cfg.legal = true ∧ s.turns = .timer :: later ∧
      s.timerEn = true) ∧
    (∃ (s : State) (later : List Agent), s.fault = none ∧ s.cfg.legal = true ∧ s.turns = .timer :: later ∧
      s.timerEn = false) :=
  ⟨⟨{ sending with turns := [.timer, .host] }, [.host], by decide +kernel⟩,
    ⟨{ finished with turns := [.timer] }, [], by decide +kernel⟩⟩

theorem witness_RefusedAndIncompleteBytesChangeNothing :
    (∃ (s : State) (later : List Agent) (why : RefuseReason) (rest : List Byte), s.fault = none ∧ s.cfg.legal = true ∧
      s.turns = .host :: later ∧ decode s.cfg.maxFrameBytes s.stream = .refused why rest) ∧
    (∃ (s : State) (later : List Agent), s.fault = none ∧ s.cfg.legal = true ∧ s.turns = .host :: later ∧
      decode s.cfg.maxFrameBytes s.stream = .incomplete) ∧
    (∃ (s : State) (why : RefuseReason) (rest : List Byte), s.fault = none ∧ s.cfg.legal = true ∧ s.turns = [] ∧
      decode s.cfg.maxFrameBytes s.stream = .refused why rest) ∧
    (∃ s : State, s.fault = none ∧ s.cfg.legal = true ∧ s.turns = [] ∧
      decode s.cfg.maxFrameBytes s.stream = .incomplete) :=
  ⟨⟨{ fresh with stream := [0x11, 0x00, 0x10], turns := [.host] }, [], .zeroFlags, [0x10], by decide +kernel⟩,
    ⟨{ fresh with stream := [0x14, 0x00], turns := [.host] }, [], by decide +kernel⟩,
    ⟨{ fresh with stream := [0x11, 0x00, 0x10] }, .zeroFlags, [0x10], by decide +kernel⟩,
    { fresh with stream := [0x14, 0x00] }, by decide +kernel⟩

theorem finished_is_faulted :
    ∃ t, exec .writeControlAndPid finished = .next t ∧ t.fault ≠ finished.fault := by
  obtain ⟨t, h1, h2⟩ := next_field (o := exec .writeControlAndPid finished) (f := State.fault)
    (v := some .sequenceViolation) (by decide +kernel)
  exact ⟨t, h1, by rw [h2]; decide +kernel⟩

theorem witness_ModelFaultsComeFromTheGuards :
    (Instr.beginFrame.isFrameCommand = true ∧ sending.sstate = .transmitting ∧ sending.fault = none) ∧
    (Instr.writeControlAndPid.isFrameWrite = true ∧ finished.sstate ≠ .transmitting ∧ finished.fstate ≠ .opened ∧
      finished.fault = none) ∧
    (∃ t, exec .writeControlAndPid finished = .next t ∧ t.fault ≠ finished.fault) ∧
    (∃ s : State, s.fault = some .bufferRace) :=
  ⟨by decide +kernel, by decide +kernel,
    finished_is_faulted,
    ⟨{ sending with fault := some .bufferRace }, rfl⟩⟩

/-- For IllegalConfigurationIsRefused: the first capacity and flag count outside their ranges, and the last inside. -/
theorem witness_IllegalConfigurationIsRefused :
    ((power 65537 2).fault = none ∧ (power 65537 2).cfg.legal = false ∧ (power 330 256).cfg.legal = false) ∧
    (power 65536 255).fault = none ∧ (power 65536 255).cfg.legal = true := by decide +kernel

theorem witness_GuardsThenCodeOfFerr :
    (sending.Inv ∧ sending.fault = none ∧ (Instr.writeFlags 1).isFrameCommand = true ∧ sending.sstate = .transmitting) ∧
    (finished.Inv ∧ finished.fault = none ∧ finished.sstate ≠ .transmitting ∧
      (Instr.writeFlags 1).isFrameWrite = true ∧ finished.fstate ≠ .opened) ∧
    (pending.Inv ∧ pending.fault = none ∧ pending.sstate ≠ .transmitting ∧ pending.fstate = .opened) :=
  ⟨⟨inv_sending, by decide +kernel⟩, ⟨inv_finished, by decide +kernel⟩, ⟨inv_pending, by decide +kernel⟩⟩

/-- The extreme legal operands of each format. -/
theorem witness_DecodeAndEncodeAreInverse :
    ((Instr.readBuf 329).wellFormed 330 = true ∧ (Instr.writeFlags 255).wellFormed 330 = true ∧
      (Instr.writeAddressChain []).wellFormed 330 = true ∧ (Instr.writePayload []).wellFormed 330 = true ∧
      (Instr.tableLookup 0xFFFFFFFF).wellFormed 330 = true) ∧
    decode 330 [0x12, 0x01, 0x01, 0x7E, 0x8F, 0x13] = .cmd (.writeAddressChain [⟨[0x7E], 15, true⟩]) [0x13] := by
  decide

theorem witness_IllegalEncodingsAreExactlyTheRefused :
    (0x16#8 ∉ ([0x01, 0x02, 0x03, 0x10, 0x11, 0x12, 0x13, 0x14, 0x15, 0x20, 0x21, 0x30] : List Byte)) ∧
    9 ≤ (9#8).toNat ∧ 330 ≤ 256 * (0x01#8).toNat + (0x4A#8).toNat ∧
    (∃ recs : List RawRecord, recs.length ≤ 255 ∧ (∀ rec ∈ recs, rec.1.length ≤ 255) ∧
      ∃ rec ∈ recs, ∃ ch ∈ rec.1, ch.toNat < 0x20 ∨ 0x7E < ch.toNat) ∧
    (∃ recs : List RawRecord, recs.length ≤ 255 ∧ (∀ rec ∈ recs, rec.1.length ≤ 255) ∧
      ∃ rec ∈ recs, rec.2.toNat / 16 % 8 ≠ 0) ∧
    decode 330 [0x12, 0x01, 0x00, 0x70] = .refused .ssidBits [] ∧
    decode 330 [0x12, 0x01, 0x01, 0x7F, 0x00] = .refused .callsignByte [] :=
  ⟨by decide, by decide, by decide, ⟨[([0x7F], 0x00)], by decide⟩, ⟨[([], 0x70)], by decide⟩, by decide, by decide⟩

/-- For ReadRegReturnsTheRegister: the first reserved number and a lawful state. -/
theorem witness_ReadRegReturnsTheRegister : 9 ≤ (9#8).toNat ∧ ∃ s : State, s.Inv := ⟨by decide, _, inv_pending⟩

theorem witness_StatusWordHasItsLayout : ∃ s : State, s.Inv ∧ s.ones ≠ 0#3 := ⟨_, inv_pending, by decide +kernel⟩

/-- For ReadBufReadsTheFrameOrDraws: the last byte of each extent, the first outside it, and the end of BUF. -/
theorem witness_ReadBufReadsTheFrameOrDraws :
    (0 < pending.cfg.maxFrameBytes ∧ pending.fstate = .opened ∧ 0 < pending.bitlen.toNat / 8) ∧
    (1 < pending.cfg.maxFrameBytes ∧ pending.bitlen.toNat / 8 ≤ 1) ∧
    (3 < finished.cfg.maxFrameBytes ∧ finished.fstate = .finalized ∧ 3 < (finished.bitlen.toNat + 7) / 8) ∧
    (329 < finished.cfg.maxFrameBytes ∧ (finished.bitlen.toNat + 7) / 8 ≤ 329) ∧
    (power 330 2).fstate = .noFrame ∧ finished.cfg.maxFrameBytes ≤ (330#16).toNat := by decide +kernel

theorem witness_BeginFrameStartsANewFrame :
    failed.sstate ≠ .transmitting ∧ (sending.sstate = .transmitting ∧ sending.fault = none) := by decide +kernel

/-- For EmitBitFollowsThePseudocode: a full buffer, and one with room. -/
theorem witness_EmitBitFollowsThePseudocode :
    full.bitlen.toNat = full.cfg.capBits ∧ pending.bitlen.toNat ≤ pending.cfg.capBits := by decide +kernel

theorem witness_WriteFlagsAppendsFlagOctets : pending.Inv ∧ pending.Writable ∧ (1#8 ≠ 0#8) ∧ (255#8 ≠ 0#8) :=
  ⟨inv_pending, writable_pending, by decide, by decide⟩

theorem witness_WriteAddressChainAppendsTheAddresses : pending.Inv ∧ pending.Writable ∧
    ∃ chain : List Address, chain ≠ [] ∧
      ∀ (i : Nat) (a : Address), chain[i]? = some a → (a.last = true ↔ i + 1 = chain.length) := by
  refine ⟨inv_pending, writable_pending, [⟨[0x41], 0, false⟩, ⟨[], 15, true⟩], by decide, ?_⟩
  intro i a h
  match i, h with
  | 0, h => simp at h; subst h; simp
  | 1, h => simp at h; subst h; simp
  | i + 2, h => simp at h

theorem witness_BadAddressChainEmitsNothing : fresh.Writable ∧
    ∃ (chain : List Address) (i : Nat) (a : Address),
      chain[i]? = some a ∧ ¬(a.last = true ↔ i + 1 = chain.length) :=
  ⟨writable_fresh, [⟨[0x41], 0, false⟩], 0, ⟨[0x41], 0, false⟩, by decide⟩

/-- For the statements whose only hypotheses are the invariant and a writable frame: one with a bit pending, and one whose
buffer is full. -/
theorem witness_WriteControlAndPidAppendsTheTwoBytes : (pending.Inv ∧ pending.Writable) ∧ full.Inv ∧ full.Writable :=
  ⟨⟨inv_pending, writable_pending⟩, inv_full, writable_full⟩

theorem witness_WritePayloadAppendsTheBytes : (pending.Inv ∧ pending.Writable) ∧ full.Inv ∧ full.Writable :=
  ⟨⟨inv_pending, writable_pending⟩, inv_full, writable_full⟩

theorem witness_WriteFcsAndTrailerCompletesTheFrame : (pending.Inv ∧ pending.Writable) ∧ full.Inv ∧ full.Writable :=
  ⟨⟨inv_pending, writable_pending⟩, inv_full, writable_full⟩

theorem witness_FailedFrameIsFinalizedWithoutEmission :
    failed.Inv ∧ failed.sstate ≠ .transmitting ∧ failed.fstate = .opened ∧ failed.ferr ≠ .none :=
  ⟨inv_failed, by decide +kernel⟩

theorem witness_WriteAfterAnErrorReturnsItAgain :
    (Instr.writeAddressChain []).isFrameWrite = true ∧ Instr.writeAddressChain [] ≠ .writeFcsAndTrailer ∧
    failed.sstate ≠ .transmitting ∧ failed.fstate = .opened ∧ failed.ferr ≠ .none := by decide +kernel

theorem witness_FrameErrorIsSticky :
    (∃ t, exec .writeControlAndPid failed = .next t ∧ failed.ferr ≠ .none) ∧
    (∃ t, exec .beginFrame failed = .next t ∧ failed.ferr ≠ .none) := by
  obtain ⟨t, ht⟩ := next_of_isNext (o := exec .writeControlAndPid failed) (by decide +kernel)
  exact ⟨⟨t, ht, by decide +kernel⟩, _, rfl, by decide +kernel⟩

theorem witness_FrameBuilderCommandsKeepTheRest :
    (∃ t, pending.Inv ∧ Instr.writeFcsAndTrailer.isFrameCommand = true ∧ exec .writeFcsAndTrailer pending = .next t) ∧
    (∃ t, sending.Inv ∧ Instr.beginFrame.isFrameCommand = true ∧ exec .beginFrame sending = .next t) := by
  obtain ⟨t, ht⟩ := next_of_isNext (o := exec .writeFcsAndTrailer pending) (by decide +kernel)
  obtain ⟨u, hu⟩ := next_of_isNext (o := exec .beginFrame sending) (by decide +kernel)
  exact ⟨⟨t, inv_pending, rfl, ht⟩, u, inv_sending, rfl, hu⟩

theorem witness_CrcAfterTheFcsIsTheResidue : ∃ s t : State,
    s.Inv ∧ s.Writable ∧ exec .writeFcsAndTrailer s = .next t ∧ t.ferr = .none := by
  obtain ⟨t, h1, h2⟩ := next_field (o := exec .writeFcsAndTrailer pending) (f := State.ferr) (v := .none)
    (by decide +kernel)
  exact ⟨_, t, inv_pending, writable_pending, h1, h2⟩

theorem witness_StuffingIsUndoneAndBreaksRuns : pending.Inv ∧ pending.Writable ∧
    ∀ i ∈ ([.writeFlags 1, .writeAddressChain [⟨[0x7E], 15, true⟩], .writeControlAndPid, .writePayload [0xFF, 0x7E],
      .writeFcsAndTrailer] : List Instr),
      i.isFrameWrite = true ∧ ∃ t, exec i pending = .next t ∧ t.ferr = .none := by
  refine ⟨inv_pending, writable_pending, fun i hi => ?_⟩
  have h : i.isFrameWrite = true ∧ got (exec i pending) State.ferr = some .none := by
    revert i
    decide +kernel
  exact ⟨h.1, next_field h.2⟩

theorem witness_UiFrameIsFlagsStuffedContentFlags : failed.Inv ∧ failed.sstate ≠ .transmitting ∧ (2#8 ≠ 0#8) ∧
    ∃ chain : List Address, chain ≠ [] ∧ lastFlagsOk chain = true ∧
      (flagsBits 2 ++
        stuffFrom 0 (bytesBits (chainBytes chain ++ [0x03#8, 0xF0#8] ++ [0x54, 0x45, 0x53, 0x54]) ++
          bytesBits (fcsBytes ((bytesBits (chainBytes chain ++ [0x03#8, 0xF0#8] ++ [0x54, 0x45, 0x53, 0x54])).foldl
            crcStep 0xFFFF#16))) ++
        flagsBits failed.cfg.flagCount).length ≤ failed.cfg.capBits :=
  ⟨inv_failed, by decide +kernel, by decide, [⟨[0x43], 0, false⟩, ⟨[0x44], 7, true⟩], by decide, by decide,
    by decide +kernel⟩

theorem witness_TableLookupReturnsTheRebuiltPeriod : ∃ s : State, s.cfg.legal = true := ⟨_, inv_sending.legal⟩

theorem witness_LookupIsSymmetric : Config.t.legal = true ∧ 7 < 2 * Config.t.q ∧ 3 < Config.t.q := by decide +kernel

theorem witness_PreemphasisMapsCodesToCodes :
    (Config.t.legal = true ∧ 255 ≤ Config.t.maxv ∧ Config.t.preemph = .ratio 3 4) ∧
    (∃ c : Config, c.legal = true ∧ 255 ≤ c.maxv ∧ c.preemph = .midScale 3 4) ∧
    ∃ (c : Config) (values : List Nat), c.legal = true ∧ 255 ≤ c.maxv ∧ c.preemph = .codes values :=
  ⟨by decide +kernel, ⟨{ Config.t with preemph := .midScale 3 4 }, by decide +kernel⟩,
    { Config.t with preemph := .codes (List.range 256) }, List.range 256, by decide +kernel⟩

theorem witness_StartTxReportsTheFirstError :
    sending.sstate ≠ .idle ∧ (failed.sstate = .idle ∧ failed.ferr = .invalidChain) ∧
    (fresh.sstate = .idle ∧ fresh.ferr = .none ∧ fresh.fstate ≠ .finalized) ∧
    ∃ s : State, s.sstate = .idle ∧ s.ferr = .overflow :=
  ⟨by decide +kernel, by decide +kernel, by decide +kernel, after full [.writeFlags 1], by decide +kernel⟩

theorem witness_StartTxOpensASessionIfTheAdapterSettles :
    finished.sstate = .idle ∧ finished.ferr = .none ∧ finished.fstate = .finalized := by decide +kernel

theorem witness_TickWhileIdleDoesNothing : finished.sstate = .idle := by decide +kernel

theorem witness_TickInsideABitEmitsOneSample : ticking.Inv ∧ ticking.sstate = .transmitting ∧ ticking.budget ≠ 0#16 :=
  ⟨inv_ticking, by decide +kernel⟩

theorem witness_TickAtABitBoundaryFetchesTheNextBit :
    sending.Inv ∧ sending.sstate = .transmitting ∧ sending.budget = 0#16 ∧ sending.cursor ≠ sending.txlen :=
  ⟨inv_sending, by decide +kernel⟩

theorem witness_TickAfterTheLastBitEndsTheSession :
    sent.sstate = .transmitting ∧ sent.budget = 0#16 ∧ sent.cursor = sent.txlen := by decide +kernel

theorem witness_SessionEmitsSpbSamplesPerBitAndEnds :
    sending.Inv ∧ sending.sstate = .transmitting ∧ sending.budget = 0#16 ∧ sending.cursor = 0#20 ∧
      256 ≤ sending.txlen.toNat * sending.cfg.spb :=
  ⟨inv_sending, by decide +kernel⟩

theorem witness_ToneFollowsTheParityOfZeros :
    sending.Inv ∧ sending.sstate = .transmitting ∧ sending.budget = 0#16 ∧ sending.cursor = 0#20 ∧
      sending.tone = .mark ∧ 31 < sending.txlen.toNat ∧ 7 < sending.cfg.spb :=
  ⟨inv_sending, by decide +kernel⟩

theorem witness_EverySampleAdvancesThePhaseByTheIncrement : ∃ s t : State,
    s.Inv ∧ exec .tick s = .next t ∧ t.trace ≠ s.trace ∧ t.sstate = .transmitting := by
  obtain ⟨t, h1, h2⟩ := next_field (o := exec .tick sending) (f := fun t => (t.trace, t.sstate))
    (v := ([.sampleOut 253], .transmitting)) (by decide +kernel)
  simp only [Prod.mk.injEq] at h2
  exact ⟨_, t, inv_sending, h1, by rw [h2.1]; decide +kernel, h2.2⟩

theorem witness_NoStepChangesTheConfiguration : ∃ s t : State, step s = .next t := by
  obtain ⟨t, h⟩ := next_of_isNext (o := step { sending with turns := [.timer] }) (by decide +kernel)
  exact ⟨_, t, h⟩

theorem witness_SessionOwnsTheFrame : ∃ t, sending.sstate = .transmitting ∧ Instr.tick ≠ .reset ∧
    exec .tick sending = .next t := by
  obtain ⟨t, h⟩ := next_of_isNext (o := exec .tick sending) (by decide +kernel)
  exact ⟨t, by decide +kernel, by decide, h⟩

theorem witness_EveryCommandGetsExactlyOneResponse :
    (∃ t, Instr.writeControlAndPid ≠ .tick ∧ pending.fault = none ∧ exec .writeControlAndPid pending = .next t ∧
      t.fault = none) ∧
    (∃ t, exec .writeControlAndPid finished = .next t ∧ t.fault ≠ finished.fault) ∧
    (∃ t, exec .tick sent = .next t) ∧
    (∃ s : State, s.fault = none ∧ s.cfg.legal = true ∧ s.turns.head? ≠ some .timer ∧
      decode s.cfg.maxFrameBytes s.stream = .refused .opcode []) := by
  obtain ⟨t, h1, h2⟩ := next_field (o := exec .writeControlAndPid pending) (f := State.fault) (v := none)
    (by decide +kernel)
  obtain ⟨u, hu⟩ := next_of_isNext (o := exec .tick sent) (by decide +kernel)
  exact ⟨⟨t, by decide, by decide +kernel, h1, h2⟩,
    finished_is_faulted, ⟨u, hu⟩,
    { pending with stream := [0x00] }, by decide +kernel⟩

theorem witness_TxEnableChangesAreAnnounced : ∃ s t : State, step s = .next t ∧ t.txEn ≠ s.txEn := by
  obtain ⟨t, h1, h2⟩ := next_field (o := step { sent with turns := [.timer] }) (f := State.txEn) (v := false)
    (by decide +kernel)
  exact ⟨_, t, h1, by rw [h2]; decide +kernel⟩

theorem witness_SamplesComeFromTicksAlone :
    (∃ s t : State, step s = .next t ∧ .sampleOut 253 ∈ t.trace.drop s.trace.length) ∧
    (∃ s t : State, step s = .next t ∧ s.timerEn = false ∧ t.timerEn = true) := by
  obtain ⟨t, h1, h2⟩ := next_field (o := step { sending with turns := [.timer] }) (f := State.trace)
    (v := [.sampleOut 253]) (by decide +kernel)
  obtain ⟨u, h3, h4⟩ := next_field (o := step { finished with stream := [0x20], settle := [true] })
    (f := State.timerEn) (v := true) (by decide +kernel)
  exact ⟨⟨_, t, h1, by rw [h2]; decide +kernel⟩, _, u, h3, by decide +kernel, h4⟩

theorem witness_SamplesAreOutputCodes : ∃ s t : State,
    step s = .next t ∧ .sampleOut 253 ∈ t.trace.drop s.trace.length :=
  witness_SamplesComeFromTicksAlone.1

theorem witness_StoppedSessionWaitsForReset : ∃ s t : State,
    s.sstate = .transmitting ∧ s.timerEn = false ∧ step s = .next t := by
  obtain ⟨t, h⟩ := next_of_isNext (o := step { ticking with timerEn := false, stream := [0x20] }) (by decide +kernel)
  exact ⟨_, t, by decide +kernel, rfl, h⟩

theorem witness_UnspecifiedBytesAreInvisible : ∃ (s t : State) (buf : Memory), s.Inv ∧ State.Inv { s with buf := buf } ∧
    (∀ i, i < s.extent → buf.read i = s.buf.read i) ∧ buf ≠ s.buf ∧ step s = .next t := by
  obtain ⟨t, h⟩ := next_of_isNext (o := step { fresh with stream := [0x13] }) (by decide +kernel)
  refine ⟨{ fresh with stream := [0x13] }, t, [(0, 0xAA), (9, 0x55)], inv_fresh.withOwn _ _ _ _ _ _,
    State.inv_of_invCheck (by decide +kernel), fun i hi => ?_, by decide +kernel, h⟩
  have : State.extent { fresh with stream := [0x13] } = 0 := by decide +kernel
  omega

end Sys2Proof.Tests
end

section
/-! When a step is refused (00_scope.md R8): while no FAULT is set, for a configuration outside the ranges of R6 and for
nothing else (log 10). -/

namespace Sys2Proof.Config

@[simp] theorem preemphLegal_ratio {maxv num den : Nat} :
    preemphLegal maxv (.ratio num den) = true ↔ num < den ∧ den ≤ 65535 := decide_eq_true_iff

@[simp] theorem preemphLegal_midScale {maxv num den : Nat} :
    preemphLegal maxv (.midScale num den) = true ↔ num < den ∧ den ≤ 65535 := decide_eq_true_iff

@[simp] theorem preemphLegal_codes {maxv : Nat} {values : List Nat} :
    preemphLegal maxv (.codes values) = true ↔ values.length = maxv + 1 ∧ ∀ v ∈ values, v ≤ maxv := decide_eq_true_iff

end Sys2Proof.Config

namespace Sys2Proof.Machine

/-- The host's turn runs a command or passes. -/
theorem hostTurn_ne_refuse (s : State) (why : Refusal) : s.hostTurn ≠ .refuse why := by
  unfold State.hostTurn
  split <;> exact Arrival.noConfusion

/-- The timer's turn runs a TICK or passes. -/
theorem timerTurn_ne_refuse (s : State) (why : Refusal) : s.timerTurn ≠ .refuse why := by
  unfold State.timerTurn
  split <;> exact Arrival.noConfusion

/-- An arrival is refused for the configuration alone, and only while FAULT is not set (R8, R255). -/
theorem arrival_eq_refuse_iff {s : State} {why : Refusal} :
    s.arrival = .refuse why ↔ s.fault = none ∧ ¬ s.cfg.legal = true ∧ why = .illegalConfig := by
  unfold State.arrival
  split
  · next hf => simp [hf]
  · next hf =>
    split
    · next hl => split <;> simp [hl, hostTurn_ne_refuse, timerTurn_ne_refuse]
    · next hl => simp [hf, hl, eq_comm]

/-- The instructions refuse nothing, so a refused step is a refused arrival. -/
theorem step_eq_refused_iff_arrival {s : State} {why : Refusal} :
    step s = .refused why ↔ s.arrival = .refuse why := by
  unfold step
  split
  · next i u ha => simp [ha, exec_ne_refused]
  · next ha => simp [ha]
  · next ha => simp [ha]
  · next ha => simp [ha]

/-- What a step is refused for. -/
theorem step_eq_refused_iff {s : State} {why : Refusal} :
    step s = .refused why ↔ s.fault = none ∧ ¬ s.cfg.legal = true ∧ why = .illegalConfig :=
  step_eq_refused_iff_arrival.trans arrival_eq_refuse_iff

/-- Settles O9: with no FAULT a step is refused exactly when `Config.legal` fails, whose ranges are those of R6. -/
theorem illegalConfigurationIsRefused : Obligations.IllegalConfigurationIsRefused := by
  intro s hf
  have hstep : step s = .refused .illegalConfig ↔ ¬ s.cfg.legal = true := by simp [step_eq_refused_iff, hf]
  refine hstep.trans (not_congr (Config.legal_iff.trans ?_))
  cases s.cfg.preemph with
  | ratio num den => simp only [Config.preemphLegal_ratio, Config.maxv, Config.phaseMod, Config.p]
  | midScale num den => simp only [Config.preemphLegal_midScale, Config.maxv, Config.phaseMod, Config.p]
  | codes values => simp only [Config.preemphLegal_codes, Config.maxv, Config.phaseMod, Config.p]

end Sys2Proof.Machine
end

section
/-! 10_state.md: the reset values (R49), the layout of the status word (R42), the stickiness of FERR (R23) and the
announcements of TX_EN (R37). -/

namespace Sys2Proof.Machine

/-! ## Reset (R49) -/

/-- The RESET command installs the reset values and leaves FAULT alone. -/
theorem resetValues_of_reset {s t : State} (h : exec .reset s = .next t) : ResetValues t ∧ t.fault = s.fault := by
  rw [reset_next h]
  exact ⟨by constructor <;> rfl, rfl⟩

/-- Settles O1: power-on by evaluation, RESET by `reset_next` in every state. -/
theorem powerOnAndResetInstallTheTable : Obligations.PowerOnAndResetInstallTheTable :=
  ⟨by constructor <;> rfl, rfl, fun _ => ⟨_, rfl, resetValues_of_reset rfl⟩⟩

/-! ## The status word (R42) -/

/-- A field read at its own place in a word. -/
theorem extractLsb'_field {w k n : Nat} (x : BitVec k) (h : n + k ≤ w) :
    (x.setWidth w <<< n).extractLsb' n k = x := by
  ext i hi
  simp [show n + i < w by omega, BitVec.getLsbD_eq_getElem hi]

/-- A field adds nothing to the places below it. -/
theorem extractLsb'_field_below {w k n start len : Nat} (x : BitVec k) (h : start + len ≤ n) :
    (x.setWidth w <<< n).extractLsb' start len = 0#len := by
  ext i hi
  simp [show start + i < n by omega]

/-- A field adds nothing to the places above it. -/
theorem extractLsb'_field_above {w k n start len : Nat} (x : BitVec k) (h : n + k ≤ start) :
    (x.setWidth w <<< n).extractLsb' start len = 0#len := by
  ext i hi
  simp [BitVec.getLsbD_of_ge x (start + i - n) (by omega)]

/-- A field of one bit, as a bit. -/
theorem getLsbD_of_extractLsb' {w n : Nat} {x : BitVec w} {b : Bool} (h : x.extractLsb' n 1 = BitVec.ofBool b) :
    x.getLsbD n = b := by
  simpa using congrArg (BitVec.getLsbD · 0) h

theorem FState.num_eq_setWidth (f : FState) : f.num = (f.num.setWidth 2).setWidth 32 := by cases f <;> rfl
theorem FErr.num_eq_setWidth (e : FErr) : e.num = (e.num.setWidth 2).setWidth 32 := by cases e <;> rfl
theorem SState.num_eq_setWidth (m : SState) : m.num = (m.num.setWidth 2).setWidth 32 := by cases m <;> rfl
theorem Tone.num_eq_setWidth (t : Tone) : t.num = (BitVec.ofBool (t == .space)).setWidth 32 := by cases t <;> rfl
theorem flagNum_eq_setWidth (b : Bool) : flagNum b = (BitVec.ofBool b).setWidth 32 := by cases b <;> rfl

/-- The status word as fields of the widths R42 gives them, each shifted to its place. -/
theorem State.statusWord_eq_fields (s : State) :
    s.statusWord = s.ones.setWidth 32 <<< 10 ||| (BitVec.ofBool (s.tone == .space)).setWidth 32 <<< 9 |||
      (BitVec.ofBool s.timerEn).setWidth 32 <<< 8 ||| (BitVec.ofBool s.txEn).setWidth 32 <<< 7 |||
      (BitVec.ofBool s.active).setWidth 32 <<< 6 ||| (s.sstate.num.setWidth 2).setWidth 32 <<< 4 |||
      (s.ferr.num.setWidth 2).setWidth 32 <<< 2 ||| (s.fstate.num.setWidth 2).setWidth 32 <<< 0 := by
  rw [← Tone.num_eq_setWidth, ← SState.num_eq_setWidth, ← FErr.num_eq_setWidth, ← FState.num_eq_setWidth,
    BitVec.shiftLeft_zero]
  simp only [← flagNum_eq_setWidth]
  rfl

/-- The fields read back from their places; the bits above ONES are no field's. -/
theorem State.statusWord_fields (s : State) :
    s.statusWord.extractLsb' 0 2 = s.fstate.num.setWidth 2 ∧ s.statusWord.extractLsb' 2 2 = s.ferr.num.setWidth 2 ∧
    s.statusWord.extractLsb' 4 2 = s.sstate.num.setWidth 2 ∧
    s.statusWord.extractLsb' 6 1 = BitVec.ofBool s.active ∧ s.statusWord.extractLsb' 7 1 = BitVec.ofBool s.txEn ∧
    s.statusWord.extractLsb' 8 1 = BitVec.ofBool s.timerEn ∧
    s.statusWord.extractLsb' 9 1 = BitVec.ofBool (s.tone == .space) ∧
    s.statusWord.extractLsb' 10 3 = s.ones ∧ s.statusWord.extractLsb' 13 19 = 0#19 := by
  rw [State.statusWord_eq_fields]
  simp (disch := omega) only [BitVec.extractLsb'_or, extractLsb'_field, extractLsb'_field_below,
    extractLsb'_field_above, BitVec.or_zero, BitVec.zero_or, and_self]

/-- Under R46 SSTATE reads 0 or 1: DRAINING is never left behind by a step. -/
theorem SessionInv.sstate_num {s : State} (h : SessionInv s) :
    s.sstate.num.setWidth 2 = if s.sstate = .idle then 0#2 else 1#2 := by
  rcases h.sstate with hs | hs <;> simp [hs, SState.num]

/-- Settles O16: each field is read back from its place (`statusWord_fields`); R46 bounds SSTATE and ONES. -/
theorem statusWordHasItsLayout : Obligations.StatusWordHasItsLayout := by
  intro s h
  obtain ⟨hfstate, hferr, hsstate, hactive, htxEn, htimerEn, htone, hones, hreserved⟩ := s.statusWord_fields
  refine ⟨s.statusWord, rfl, ?_, ?_, hsstate.trans h.session.sstate_num, getLsbD_of_extractLsb' hactive,
    getLsbD_of_extractLsb' htxEn, getLsbD_of_extractLsb' htimerEn, getLsbD_of_extractLsb' htone, hones, h.frame.ones,
    hreserved⟩
  · rw [hfstate]
    cases s.fstate <;> rfl
  · rw [hferr]
    cases s.ferr <;> rfl

/-! ## What the other commands leave of the frame (R23, R153) -/

/-- Two states with the same frame: the Frame Builder's registers and BUF. -/
structure State.SameFrame (s t : State) : Prop where
  fstate : t.fstate = s.fstate
  ferr : t.ferr = s.ferr
  crc : t.crc = s.crc
  ones : t.ones = s.ones
  bitlen : t.bitlen = s.bitlen
  outb : t.outb = s.outb
  buf : t.buf = s.buf

/-- A TICK reads the frame and never changes it (R79, R194). -/
theorem tick_keeps_frame {s t : State} (h : exec .tick s = .next t) : s.SameFrame t := by
  rcases tick_cases h with ⟨-, rfl⟩ | ⟨-, -, -, rfl⟩ | ⟨-, -, -, u, hu, rfl⟩ | ⟨-, -, rfl⟩
  case inr.inr.inl =>
    obtain ⟨tone, rfl, -⟩ := fetchBit_eq hu
    constructor <;> simp
  all_goals constructor <;> simp

/-- START_TX takes the frame as it stands (R190). -/
theorem startTx_keeps_frame {s t : State} (h : exec .startTx s = .next t) : s.SameFrame t := by
  rcases startTx_cases h with ⟨_, -, rfl⟩ | ⟨-, -, -, _, _, rfl | rfl⟩
  all_goals exact ⟨rfl, rfl, rfl, rfl, rfl, rfl, rfl⟩

/-- Only RESET and the Frame Builder's own commands change the frame. -/
theorem exec_keeps_frame {i : Instr} {s t : State} (hi : i.isFrameCommand = false) (hr : i ≠ .reset)
    (h : exec i s = .next t) : s.SameFrame t := by
  obtain ⟨hb, hw⟩ : i ≠ .beginFrame ∧ i.isFrameWrite = false := by simpa [Instr.isFrameCommand] using hi
  rcases instr_cases i with hw' | hv | rfl | rfl | rfl | rfl | rfl
  · simp [hw] at hw'
  · obtain ⟨value, draws, rfl⟩ := read_cases hv h
    exact ⟨rfl, rfl, rfl, rfl, rfl, rfl, rfl⟩
  · exact absurd rfl hr
  · exact absurd rfl hb
  · exact startTx_keeps_frame h
  · rw [stopTimer_next h]
    exact ⟨rfl, rfl, rfl, rfl, rfl, rfl, rfl⟩
  · exact tick_keeps_frame h

/-- Settles O29: a write that finds an error emits nothing (`Wrote.sticky`), a fault and every other command keep the
frame, and BEGIN_FRAME and RESET clear the error. -/
theorem frameErrorIsSticky : Obligations.FrameErrorIsSticky := by
  intro i s t h he
  by_cases hw : i.isFrameWrite = true
  · rcases frameWrite_cases hw h with ⟨reason, -, rfl⟩ | ⟨-, hwrote, -⟩
    · simp
    · exact .inl (hwrote.sticky he)
  by_cases hb : i = .beginFrame
  · subst hb
    rcases beginFrame_cases h with ⟨-, rfl⟩ | ⟨-, rfl⟩
    · simp
    · exact .inr ⟨.inl rfl, rfl⟩
  by_cases hr : i = .reset
  · subst hr
    exact .inr ⟨.inr rfl, (resetValues_of_reset h).1.ferr⟩
  have hsame := exec_keeps_frame (by simp [Instr.isFrameCommand, hw, hb]) hr h
  exact .inl ⟨hsame.ferr, hsame.bitlen, hsame.crc, hsame.ones⟩

/-! ## The announcements of TX_EN (R37) -/

/-- TX_EN after one output, as the outputs tell it: a TxEnable gives its new value. -/
def Output.announced (on : Bool) : Output → Bool
  | .txEnable v => v
  | .sampleOut _ => on
  | .keyDelay => on
  | .resp _ _ => on

/-- TX_EN after a list of outputs, as the outputs tell it. -/
def announcedTxEn (on : Bool) (new : List Output) : Bool := new.foldl Output.announced on

theorem Output.announced_of_ne {e : Output} (h : ∀ w, e ≠ .txEnable w) (on : Bool) : e.announced on = on := by
  cases e
  case txEnable v => exact absurd rfl (h v)
  all_goals rfl

/-- Outputs without a TxEnable announce nothing. -/
theorem announcedTxEn_of_silent {new : List Output} (h : ∀ w, .txEnable w ∉ new) (on : Bool) :
    announcedTxEn on new = on := by
  induction new with
  | nil => rfl
  | cons e new ih =>
    have he : e.announced on = on := Output.announced_of_ne (fun w hw => h w (by simp [hw])) on
    rw [announcedTxEn, List.foldl_cons, he]
    exact ih fun w hw => h w (by simp [hw])

/-- The last TxEnable is the one that counts. -/
theorem announcedTxEn_last (on v : Bool) (before : List Output) {after : List Output}
    (h : ∀ w, .txEnable w ∉ after) : announcedTxEn on (before ++ .txEnable v :: after) = v := by
  rw [announcedTxEn, List.foldl_append, List.foldl_cons]
  exact announcedTxEn_of_silent h v

/-- A change is announced with the new value. -/
theorem txEnable_mem_of_announced {on : Bool} {new : List Output} (h : announcedTxEn on new ≠ on) :
    .txEnable (announcedTxEn on new) ∈ new := by
  induction new generalizing on with
  | nil => exact absurd rfl h
  | cons e new ih =>
    rw [announcedTxEn, List.foldl_cons, ← announcedTxEn] at h ⊢
    by_cases hc : announcedTxEn (e.announced on) new = e.announced on
    · cases e
      case txEnable v => rw [hc]; exact List.mem_cons_self
      all_goals exact absurd hc h
    · exact List.mem_cons_of_mem _ (ih hc)

/-- From `s` to `t` the outputs have only grown, and those added announce the TX_EN of `t`. -/
def State.Announces (s t : State) : Prop :=
  ∃ new : List Output, t.trace = s.trace ++ new ∧ t.txEn = announcedTxEn s.txEn new

/-- Where neither the outputs nor TX_EN change, there is nothing to announce. -/
theorem State.announces_of_silent {s t : State} (ht : t.trace = s.trace) (hx : t.txEn = s.txEn) : s.Announces t :=
  ⟨[], by simp [ht], hx⟩

/-- A Frame Builder write answers one response and leaves TX_EN alone. -/
theorem Wrote.announces {s t : State} (h : Wrote s t) : s.Announces t :=
  ⟨_, h.trace, by rw [h.only]; rfl⟩

theorem tick_announces {s t : State} (h : exec .tick s = .next t) : s.Announces t := by
  rcases tick_cases h with ⟨-, rfl⟩ | ⟨-, -, -, rfl⟩ | ⟨-, -, -, u, hu, rfl⟩ | ⟨-, -, rfl⟩
  · exact State.announces_of_silent rfl rfl
  · exact ⟨_, rfl, rfl⟩
  · obtain ⟨tone, rfl, -⟩ := fetchBit_eq hu
    exact ⟨_, rfl, rfl⟩
  · exact ⟨_, rfl, rfl⟩

/-- Every command and TICK announces the TX_EN it leaves. -/
theorem exec_announces {i : Instr} {s t : State} (h : exec i s = .next t) : s.Announces t := by
  rcases instr_cases i with hw | hv | rfl | rfl | rfl | rfl | rfl
  · rcases frameWrite_cases hw h with ⟨reason, -, rfl⟩ | ⟨-, hwrote, -⟩
    · exact State.announces_of_silent (by simp) (by simp)
    · exact hwrote.announces
  · obtain ⟨value, draws, rfl⟩ := read_cases hv h
    exact ⟨_, rfl, rfl⟩
  · rw [reset_next h]
    refine ⟨_, rfl, ?_⟩
    cases s.txEn <;> rfl
  · rcases beginFrame_cases h with ⟨-, rfl⟩ | ⟨-, rfl⟩
    · exact State.announces_of_silent (by simp) (by simp)
    · exact ⟨_, rfl, rfl⟩
  · rcases startTx_cases h with ⟨code, -, rfl⟩ | ⟨-, -, -, settle, draws, rfl | rfl⟩
    all_goals exact ⟨_, rfl, rfl⟩
  · rw [stopTimer_next h]
    exact ⟨_, rfl, rfl⟩
  · exact tick_announces h

/-- Every step announces the TX_EN it leaves: taking a command changes neither the outputs nor TX_EN. -/
theorem step_announces {s t : State} (h : step s = .next t) : s.Announces t := by
  rcases step_cases h with ⟨i, u, ha, he⟩ | hp
  · obtain ⟨-, -, hu, -⟩ := arrival_run ha
    obtain ⟨new, htrace, htx⟩ := exec_announces he
    rw [hu] at htrace htx
    exact ⟨new, htrace, htx⟩
  · obtain ⟨-, -, turns, stream, new, rfl | rfl, rfl⟩ := arrival_pass hp
    all_goals exact ⟨_, rfl, rfl⟩

/-- Settles O50: the TX_EN a step leaves is the one its outputs announce, which the last TxEnable tells. -/
theorem txEnableChangesAreAnnounced : Obligations.TxEnableChangesAreAnnounced := by
  intro s t h
  obtain ⟨new, htrace, htx⟩ := step_announces h
  refine ⟨new, htrace, ?_, ?_⟩
  · rw [htx]
    exact txEnable_mem_of_announced
  · rintro before after v rfl hafter
    rw [htx]
    exact announcedTxEn_last _ v before hafter

end Sys2Proof.Machine
end

section
/-! 20_memory.md and 10_state.md section 8: the invariant between steps (R46), who may change the frame during a session
(R75), and that the bytes of BUF outside the frame's extent are never seen (R63). -/

namespace Sys2Proof.Machine

/-! ## What a write command does -/

theorem State.writeGuard_eq_none_iff {s : State} :
    s.writeGuard = none ↔ s.sstate ≠ .transmitting ∧ s.fstate = .opened := by
  by_cases hs : s.sstate = .transmitting
  · simp [State.writeGuard_of_session hs, hs]
  · by_cases ho : s.fstate = .opened
    · simp [State.writeGuard_of_opened hs ho, hs, ho]
    · simp [State.writeGuard_of_notOpened hs ho, ho]

/-- A write command stopped by a guard raises its fault (R127). -/
theorem exec_of_writeGuard {i : Instr} {s : State} {reason : ModelFault} (hi : i.isFrameWrite = true)
    (hg : s.writeGuard = some reason) : exec i s = .next (s.raiseFault reason) := by
  cases i <;> simp only [Instr.isFrameWrite, Bool.false_eq_true] at hi <;>
    simp only [exec, execWriteFlags, execWriteAddressChain, execWriteControlAndPid, execWritePayload,
      execWriteFcsAndTrailer, hg]

/-- The state with another FERR. -/
def State.withFErr (s : State) (e : FErr) : State := { s with ferr := e }

/-- A write command but `WRITE_FCS_AND_TRAILER` sets FERR and emits bytes; both are chosen without a look at BUF. A
refused chain (R142) sets FERR and emits none. -/
theorem frameWrite_emits {i : Instr} {s : State} (hi : i.isFrameWrite = true) (hf : i ≠ .writeFcsAndTrailer)
    (hg : s.writeGuard = none) : ∃ (e : FErr) (bytes : List Byte) (subject : Bool), ∀ buf : Memory,
      exec i (s.withBuf buf) = .next (((s.withFErr e).withBuf buf).emitBytes bytes subject).respondFerr := by
  have hg' : ∀ buf, (s.withBuf buf).writeGuard = none := fun _ => hg
  cases i <;> simp only [Instr.isFrameWrite, Bool.false_eq_true] at hi
  case writeFlags n => exact ⟨s.ferr, _, _, fun buf => by simp only [exec, execWriteFlags, hg']; rfl⟩
  case writeControlAndPid => exact ⟨s.ferr, _, _, fun buf => by simp only [exec, execWriteControlAndPid, hg']; rfl⟩
  case writePayload bytes => exact ⟨s.ferr, _, _, fun buf => by simp only [exec, execWritePayload, hg']; rfl⟩
  case writeFcsAndTrailer => exact absurd rfl hf
  case writeAddressChain chain =>
    have hferr : ∀ buf, (s.withBuf buf).ferr = s.ferr := fun _ => rfl
    simp only [exec, execWriteAddressChain, hg', hferr]
    split
    · exact ⟨s.ferr, [], true, fun _ => rfl⟩
    · split
      · exact ⟨.invalidChain, [], true, fun _ => rfl⟩
      · split
        · exact ⟨.invalidChain, [], true, fun _ => rfl⟩
        · exact ⟨s.ferr, _, true, fun _ => rfl⟩

/-- The frame made final: the partial byte moved from OUTB to BUF (R147). -/
def State.finalize (t : State) : State :=
  { t with
    fstate := .finalized, outb := 0#8
    buf := if t.bitlen.toNat % 8 = 0 then t.buf else t.buf.write (t.bitlen.toNat / 8) t.outb }

/-- FCS and flags emitted (R146), before the final flush. -/
def State.emitFcsAndFlags (s : State) : State := (s.emitBytes (fcsBytes s.crc) true).emitFlags s.cfg.flagCount

/-- In an open lawful frame the final flush completes, and its outcome is `State.finalize`. -/
theorem finalFlush_finalize {t : State} (h : t.Building) :
    ∃ u, t.finalFlush? = some u ∧ { u with fstate := .finalized } = t.finalize := by
  obtain ⟨u, hu, hform, -⟩ := finalFlush_spec h
  exact ⟨u, hu, by rw [hform]; rfl⟩

/-! ## Open frames stay lawful -/

/-- The bits that bytes put into the frame, stuffed where they are subject to it (R121, R124). -/
def State.emission (s : State) (bytes : List Byte) (subject : Bool) : List Bool :=
  if subject then stuffFrom s.ones.toNat (bytesBits bytes) else bytesBits bytes

theorem emitBytes_emitted {s : State} (h : s.Building) (hn : s.ferr = .none) (bytes : List Byte) (subject : Bool) :
    Emitted s (s.emitBytes bytes subject) (s.emission bytes subject) := by
  rw [State.emitBytes_eq]
  cases subject
  · exact (emitBits_plain h hn _).1
  · exact (emitBits_content h hn _).1

namespace State.Building

variable {s : State}

theorem withFErr (h : s.Building) (e : FErr) : (s.withFErr e).Building := { h with mem := h.mem.congr rfl rfl }

/-- Emission keeps an open lawful frame, an error standing or not. -/
theorem emitBytes (h : s.Building) (bytes : List Byte) (subject : Bool) : (s.emitBytes bytes subject).Building := by
  by_cases hn : s.ferr = .none
  · exact (emitBytes_emitted h hn bytes subject).building
  · rw [State.emitBytes_of_error hn]
    exact h

theorem emitFcsAndFlags (h : s.Building) : s.emitFcsAndFlags.Building := (h.emitBytes _ _).emitBytes _ _

theorem frameInv (h : s.Building) : FrameInv s :=
  ⟨h.ones, h.bitlen, h.pad, fun hn => by simp [h.opened] at hn⟩

theorem finalize_memoryInv (h : s.Building) : MemoryInv s.finalize := by
  obtain ⟨u, -, hform, hmem, -⟩ := finalFlush_spec h
  exact hmem.congr (by rw [hform]; rfl) (by rw [hform]; rfl)

theorem finalize_frameInv (h : s.Building) : FrameInv s.finalize :=
  ⟨h.ones, h.bitlen, Nat.zero_mod _, fun hn => nomatch hn⟩

end State.Building

/-- `WRITE_FCS_AND_TRAILER` past its guards (R146). -/
theorem exec_writeFcsAndTrailer {s : State} (hg : s.writeGuard = none) (h : s.Building) :
    exec .writeFcsAndTrailer s = .next s.emitFcsAndFlags.finalize.respondFerr := by
  obtain ⟨u, hu, hfinal⟩ := finalFlush_finalize h.emitFcsAndFlags
  rw [State.emitFcsAndFlags] at hu
  simp only [exec, execWriteFcsAndTrailer, hg, hu, hfinal]

/-- A write command leaves a lawful frame. -/
theorem frameWrite_keeps_frameInv {i : Instr} {s t : State} (hi : i.isFrameWrite = true) (hg : s.writeGuard = none)
    (h : s.Building) (he : exec i s = .next t) : MemoryInv t ∧ FrameInv t := by
  by_cases hf : i = .writeFcsAndTrailer
  · subst hf
    rw [exec_writeFcsAndTrailer hg h] at he
    cases he
    exact ⟨h.emitFcsAndFlags.finalize_memoryInv.congr rfl rfl, { h.emitFcsAndFlags.finalize_frameInv with }⟩
  · obtain ⟨e, bytes, subject, hall⟩ := frameWrite_emits hi hf hg
    have ht := he.symm.trans (hall s.buf)
    cases ht
    have hB := (h.withFErr e).emitBytes bytes subject
    exact ⟨hB.mem.congr rfl rfl, { hB.frameInv with }⟩

/-! ## The invariant between steps (R46) -/

namespace State.SameFrame

variable {s t : State}

theorem memoryInv (h : s.SameFrame t) (hc : t.cfg = s.cfg) (hm : MemoryInv s) : MemoryInv t := hm.congr h.buf hc

theorem frameInv (h : s.SameFrame t) (hc : t.cfg = s.cfg) (hf : FrameInv s) : FrameInv t where
  ones := by rw [h.ones]; exact hf.ones
  bitlen := by rw [h.bitlen, hc]; exact hf.bitlen
  pad := by rw [h.outb, h.bitlen]; exact hf.pad
  noFrame := by rw [h.fstate, h.bitlen, h.ferr, h.crc, h.ones]; exact hf.noFrame

/-- The invariant of a state with the same frame needs a look at its session alone. -/
theorem inv (h : s.SameFrame t) (hc : t.cfg = s.cfg) (hi : s.Inv) (hs : SessionInv t) : t.Inv :=
  ⟨hc ▸ hi.legal, h.memoryInv hc hi.mem, h.frameInv hc hi.frame, hs⟩

end State.SameFrame

theorem SessionInv.of_idle {s : State} (hs : s.sstate = .idle) (ha : s.active = false) (h : IdleValues s) :
    SessionInv s :=
  ⟨.inl hs, by simp [hs, ha], fun _ => h, fun ht => by simp [hs] at ht⟩

theorem SessionInv.of_transmitting {s : State} (hs : s.sstate = .transmitting) (ha : s.active = true)
    (h : SessionValues s) : SessionInv s :=
  ⟨.inr hs, by simp [hs, ha], fun hi => by simp [hs] at hi, fun _ => h⟩

/-- Without a session the block is idle (R45, R46). -/
theorem SessionInv.idle_of_ne {s : State} (h : SessionInv s) (hs : s.sstate ≠ .transmitting) :
    s.sstate = .idle ∧ s.active = false ∧ IdleValues s := by
  have hidle := h.sstate.resolve_right hs
  exact ⟨hidle, Bool.eq_false_iff.mpr fun ha => hs (h.active.mp ha), h.idle hidle⟩

theorem State.Inv.raiseFault {s : State} (h : s.Inv) (reason : ModelFault) : (s.raiseFault reason).Inv := by
  cases hf : s.fault with
  | none =>
    rw [State.raiseFault_of_none reason hf]
    exact h.withOwn (some reason) s.trace s.stream s.turns s.settle s.draws
  | some old =>
    rw [State.raiseFault_of_some reason hf]
    exact h

theorem frameWrite_keeps_inv {i : Instr} {s t : State} (hi : i.isFrameWrite = true) (h : s.Inv)
    (he : exec i s = .next t) : t.Inv := by
  rcases frameWrite_cases hi he with ⟨reason, -, rfl⟩ | ⟨hg, hwrote, -⟩
  · exact h.raiseFault reason
  · obtain ⟨hs, ho⟩ := State.writeGuard_eq_none_iff.mp hg
    obtain ⟨hmem, hframe⟩ := frameWrite_keeps_frameInv hi hg (h.building ho) he
    obtain ⟨hidle, hactive, hv⟩ := h.session.idle_of_ne hs
    have hsession : SessionInv (s.withFrameOf t) := .of_idle hidle hactive { hv with }
    rw [← hwrote.only] at hsession
    exact ⟨by rw [hwrote.only]; exact h.legal, hmem, hframe, hsession⟩

theorem beginFrame_keeps_inv {s t : State} (h : s.Inv) (he : exec .beginFrame s = .next t) : t.Inv := by
  rcases beginFrame_cases he with ⟨-, rfl⟩ | ⟨hs, rfl⟩
  · exact h.raiseFault _
  · obtain ⟨hidle, hactive, hv⟩ := h.session.idle_of_ne hs
    exact ⟨h.legal, h.mem.congr rfl rfl, ⟨Nat.zero_le _, Nat.zero_le _, rfl, fun hn => nomatch hn⟩,
      .of_idle hidle hactive { hv with }⟩

theorem reset_keeps_inv {s t : State} (h : s.Inv) (he : exec .reset s = .next t) : t.Inv := by
  rw [reset_next he]
  exact ⟨h.legal, h.mem.congr rfl rfl, ⟨Nat.zero_le _, Nat.zero_le _, rfl, fun _ => ⟨rfl, rfl, rfl, rfl⟩⟩,
    .of_idle rfl rfl ⟨rfl, rfl, rfl, rfl, rfl, rfl, rfl, rfl⟩⟩

/-- The timer may be stopped in a session and is stopped without one (R199). -/
theorem stopTimer_keeps_inv {s t : State} (h : s.Inv) (he : exec .stopTimer s = .next t) : t.Inv := by
  rw [stopTimer_next he]
  refine ⟨h.legal, h.mem.congr rfl rfl, { h.frame with }, ?_⟩
  by_cases hs : s.sstate = .transmitting
  · exact .of_transmitting hs (h.session.active.mpr hs) { h.session.transmitting hs with }
  · obtain ⟨hidle, hactive, hv⟩ := h.session.idle_of_ne hs
    exact .of_idle hidle hactive { hv with timerEn := rfl }

/-- The increment a tone gives is the configured one: it has room in INC (R177). -/
theorem State.toneIncrement_toNat {s : State} (h : s.cfg.legal = true) (tone : Tone) :
    (s.toneIncrement tone).toNat = incOf s.cfg tone := by
  have hmod := Config.phaseMod_le h
  have hmark := Config.incMark_lt h
  have hspace := Config.incSpace_lt h
  cases tone <;> simp only [State.toneIncrement, incOf, BitVec.toNat_ofNat] <;> omega

theorem startTx_keeps_inv {s t : State} (h : s.Inv) (he : exec .startTx s = .next t) : t.Inv := by
  have hsame := startTx_keeps_frame he
  rcases startTx_cases he with ⟨code, -, rfl⟩ | ⟨hidle, hferr, hfinal, settle, draws, rfl | rfl⟩
  · exact h.withOwn _ _ _ _ _ _
  · obtain ⟨-, hactive, hv⟩ := h.session.idle_of_ne (by simp [hidle])
    exact hsame.inv rfl h (.of_idle hidle hactive { hv with txEn := rfl })
  · have hphase : 0 < s.cfg.phaseMod := by have := Config.incMark_lt h.legal; omega
    exact hsame.inv rfl h (.of_transmitting rfl rfl
      ⟨rfl, hfinal, hferr, rfl, Nat.zero_le _, Nat.zero_le _, hphase, State.toneIncrement_toNat h.legal .mark⟩)

/-- A sample counts one off the budget and advances the phase inside its range (R176, R195). -/
theorem SessionValues.sample {s : State} (h : SessionValues s) (hb : s.budget ≠ 0#16) : SessionValues s.sample where
  txEn := h.txEn
  fstate := h.fstate
  ferr := h.ferr
  txlen := h.txlen
  cursor := h.cursor
  budget := by
    have := h.budget
    have : (s.budget - 1#16).toNat ≤ s.budget.toNat := by bv_omega
    simp only [State.sample_budget, State.sample_cfg]
    omega
  phase := by
    have hlt := Nat.mod_lt (s.phase.toNat + s.inc.toNat) (Nat.zero_lt_of_lt h.phase)
    simp only [State.sample_phase, State.phaseAdvance_phase, State.sample_cfg, BitVec.toNat_ofNat]
    exact (Nat.mod_le _ _).trans_lt hlt
  inc := h.inc

/-- The next bit's fetch moves CURSOR towards TXLEN and fills the budget (R194). -/
theorem SessionValues.fetchBit {s u : State} (h : SessionValues s) (hl : s.cfg.legal = true) (hc : s.cursor ≠ s.txlen)
    (hu : s.fetchBit? = some u) : SessionValues u ∧ u.budget ≠ 0#16 := by
  obtain ⟨tone, rfl, -⟩ := fetchBit_eq hu
  have hspb := Config.spb_range hl
  have hbudget : (BitVec.ofNat 16 s.cfg.spb).toNat = s.cfg.spb := by
    rw [BitVec.toNat_ofNat]; omega
  have hcursor : (s.cursor + 1#20).toNat ≤ s.txlen.toNat := by
    have := h.cursor
    bv_omega
  refine ⟨⟨h.txEn, h.fstate, h.ferr, h.txlen, hcursor, hbudget.le, h.phase, State.toneIncrement_toNat hl tone⟩,
    fun h0 => ?_⟩
  have : (BitVec.ofNat 16 s.cfg.spb).toNat = 0 := congrArg BitVec.toNat h0
  omega

theorem tick_keeps_inv {s t : State} (h : s.Inv) (he : exec .tick s = .next t) : t.Inv := by
  have hsame := tick_keeps_frame he
  rcases tick_cases he with ⟨-, rfl⟩ | ⟨-, -, -, rfl⟩ | ⟨hs, -, hc, u, hu, rfl⟩ | ⟨hs, hb, rfl⟩
  · exact h
  · exact hsame.inv rfl h (.of_idle rfl rfl ⟨rfl, rfl, rfl, rfl, rfl, rfl, rfl, rfl⟩)
  · obtain ⟨hv, hb⟩ := (h.session.transmitting hs).fetchBit h.legal hc hu
    obtain ⟨tone, hform, -⟩ := fetchBit_eq hu
    have hactive := h.session.active.mpr hs
    exact hsame.inv (by rw [hform]; rfl) h
      (.of_transmitting (by rw [hform]; exact hs) (by rw [hform]; exact hactive) (hv.sample hb))
  · exact hsame.inv rfl h (.of_transmitting hs (h.session.active.mpr hs) ((h.session.transmitting hs).sample hb))

/-- Every command and TICK keeps the invariant. -/
theorem exec_keeps_inv {i : Instr} {s t : State} (h : s.Inv) (he : exec i s = .next t) : t.Inv := by
  rcases instr_cases i with hw | hv | rfl | rfl | rfl | rfl | rfl
  · exact frameWrite_keeps_inv hw h he
  · obtain ⟨value, draws, rfl⟩ := read_cases hv he
    exact h.withOwn _ _ _ _ _ _
  · exact reset_keeps_inv h he
  · exact beginFrame_keeps_inv h he
  · exact startTx_keeps_inv h he
  · exact stopTimer_keeps_inv h he
  · exact tick_keeps_inv h he

/-- Taking a command or a TICK from the outside keeps the invariant. -/
theorem State.Inv.arrival_run {s u : State} {i : Instr} (h : s.Inv) (ha : s.arrival = .run i u) : u.Inv := by
  obtain ⟨-, -, hu, -⟩ := Machine.arrival_run ha
  rw [hu]
  exact h.withOwn _ _ _ _ _ _

/-- Settles O3: taking a command touches none of the registers the invariant speaks of, and every command keeps it
(`exec_keeps_inv`). -/
theorem stepKeepsInvariant : Obligations.StepKeepsInvariant := by
  intro s t h hstep
  rcases step_cases hstep with ⟨i, u, ha, he⟩ | hp
  · exact exec_keeps_inv (h.arrival_run ha) he
  · obtain ⟨-, -, turns, stream, new, -, rfl⟩ := arrival_pass hp
    exact h.withOwn _ _ _ _ _ _

/-! ## The frame during a session (R75) -/

/-- A Frame Builder command in a session raises the race fault (R75, R127). -/
theorem frameCommand_of_session {i : Instr} {s t : State} (hi : i.isFrameCommand = true)
    (hs : s.sstate = .transmitting) (he : exec i s = .next t) : t = s.raiseFault .bufferRace := by
  simp only [Instr.isFrameCommand, Bool.or_eq_true, beq_iff_eq] at hi
  rcases hi with rfl | hw
  · rcases beginFrame_cases he with ⟨-, rfl⟩ | ⟨hn, -⟩
    · rfl
    · exact absurd hs hn
  · have hg := State.writeGuard_of_session hs
    rcases frameWrite_cases hw he with ⟨reason, hr, rfl⟩ | ⟨hn, -⟩
    · rw [hg] at hr
      cases hr
      rfl
    · simp [hg] at hn

/-- A fault leaves the frame as it is (R255). -/
theorem State.sameFrame_raiseFault (s : State) (reason : ModelFault) : s.SameFrame (s.raiseFault reason) := by
  constructor <;> simp

/-- Settles O48: the Frame Builder's commands fault in a session (`frameCommand_of_session`), and the others but RESET
never change the frame (`exec_keeps_frame`). -/
theorem sessionOwnsTheFrame : Obligations.SessionOwnsTheFrame := by
  intro i s t hs hr he
  have hsame : s.SameFrame t := by
    by_cases hi : i.isFrameCommand = true
    · rw [frameCommand_of_session hi hs he]
      exact s.sameFrame_raiseFault _
    · exact exec_keeps_frame (Bool.eq_false_iff.mpr hi) hr he
  exact ⟨hsame.fstate, hsame.ferr, hsame.crc, hsame.ones, hsame.bitlen, hsame.outb, hsame.buf⟩

/-! ## The bytes of BUF outside the frame's extent (R63) -/

namespace State

variable (s : State) (buf : Memory)

@[simp] theorem withBuf_cfg : (s.withBuf buf).cfg = s.cfg := rfl
@[simp] theorem withBuf_buf : (s.withBuf buf).buf = buf := rfl
@[simp] theorem withBuf_timerEn : (s.withBuf buf).timerEn = s.timerEn := rfl
@[simp] theorem withBuf_fault : (s.withBuf buf).fault = s.fault := rfl
@[simp] theorem withBuf_stream : (s.withBuf buf).stream = s.stream := rfl
@[simp] theorem withBuf_turns : (s.withBuf buf).turns = s.turns := rfl
@[simp] theorem withBuf_settle : (s.withBuf buf).settle = s.settle := rfl
@[simp] theorem withBuf_extent : (s.withBuf buf).extent = s.extent := rfl

end State

/-- Another BUF with the bytes of this state's frame. -/
def State.AgreesWith (s : State) (buf : Memory) : Prop := ∀ i, i < s.extent → buf.read i = s.buf.read i

/-- The agreement concerns BUF and the extent alone, and a shorter frame asks for less. -/
theorem State.AgreesWith.mono {s t : State} {buf : Memory} (h : s.AgreesWith buf) (hb : t.buf = s.buf)
    (hx : t.extent ≤ s.extent) : t.AgreesWith buf := fun i hi => by
  rw [hb]
  exact h i (hi.trans_le hx)

/-- The extent is FSTATE's and BITLEN's (R62). -/
theorem State.SameFrame.extent {s t : State} (h : s.SameFrame t) : t.extent = s.extent := by
  rw [State.extent, State.extent, h.fstate, h.bitlen]

theorem State.SameFrame.agreesWith {s t : State} {buf : Memory} (h : s.SameFrame t) (ha : s.AgreesWith buf) :
    t.AgreesWith buf := ha.mono h.buf h.extent.le

/-- In an open frame every byte of the extent is made of frame bits (R61, R63): the same bits are the same bytes. -/
theorem State.agreesWith_of_frameBits {s : State} {buf : Memory} (ho : s.fstate = .opened)
    (h : (s.withBuf buf).frameBits = s.frameBits) : s.AgreesWith buf := by
  intro i hi
  have hlt : ∀ {j}, j < 8 → 8 * i + j < s.bitlen.toNat := fun hj => by
    rw [State.extent_opened ho] at hi
    omega
  have hbits : ∀ k, k < s.bitlen.toNat → (s.withBuf buf).frameBit k = s.frameBit k := fun k hk =>
    List.map_inj_left.mp h k (List.mem_range.mpr hk)
  refine BitVec.eq_of_getMsbD_eq fun j hj => ?_
  have hbit := hbits (8 * i + j) (hlt hj)
  have hbyte : (8 * i + j) / 8 = i := by omega
  have hplace : (8 * i + j) % 8 = j := by omega
  rwa [State.frameBit_of_lt (by rw [hbyte]; exact hi), State.frameBit_of_lt (by rw [hbyte]; exact hi), hbyte,
    hplace] at hbit

/-- The frame's bits are read from its bytes, the last ones from OUTB (R27, R61). -/
theorem State.AgreesWith.frameBits {s : State} {buf : Memory} (h : s.AgreesWith buf) :
    (s.withBuf buf).frameBits = s.frameBits := by
  refine State.frameBits_congr rfl fun k _ => ?_
  by_cases hk : k / 8 < s.extent
  · rw [State.frameBit_of_lt (s := s.withBuf buf) hk, State.frameBit_of_lt hk]
    exact congrArg (BitVec.getMsbD · _) (h _ hk)
  · rw [State.frameBit_of_le (s := s.withBuf buf) (Nat.le_of_not_lt hk), State.frameBit_of_le (Nat.le_of_not_lt hk)]
    rfl

/-- Emission over two buffers that agree on the frame leaves two that do: its bits enter both frames alike. -/
theorem emitBytes_agreesWith {s : State} {buf : Memory} (h : s.Building) (h' : (s.withBuf buf).Building)
    (ha : s.AgreesWith buf) (bytes : List Byte) (subject : Bool) : ∃ buf',
      (s.withBuf buf).emitBytes bytes subject = (s.emitBytes bytes subject).withBuf buf' ∧
      (s.emitBytes bytes subject).AgreesWith buf' := by
  by_cases hn : s.ferr = .none
  · obtain ⟨buf', heq⟩ := s.emitBytes_withBuf buf bytes subject
    refine ⟨buf', heq, State.agreesWith_of_frameBits (h.emitBytes bytes subject).opened ?_⟩
    calc State.frameBits ((s.emitBytes bytes subject).withBuf buf')
        = ((s.withBuf buf).frameBits ++ s.emission bytes subject).take s.cfg.capBits := by
          rw [← heq]
          exact (emitBytes_emitted h' hn bytes subject).frame
      _ = (s.frameBits ++ s.emission bytes subject).take s.cfg.capBits := by rw [ha.frameBits]
      _ = (s.emitBytes bytes subject).frameBits := (emitBytes_emitted h hn bytes subject).frame.symm
  · rw [State.emitBytes_of_error hn, State.emitBytes_of_error (s := s.withBuf buf) hn]
    exact ⟨buf, rfl, ha⟩

/-- The same for FCS and flags: two emissions. -/
theorem emitFcsAndFlags_agreesWith {s : State} {buf : Memory} (h : s.Building) (h' : (s.withBuf buf).Building)
    (ha : s.AgreesWith buf) : ∃ buf',
      (s.withBuf buf).emitFcsAndFlags = s.emitFcsAndFlags.withBuf buf' ∧ s.emitFcsAndFlags.AgreesWith buf' := by
  obtain ⟨buf1, heq, ha1⟩ := emitBytes_agreesWith h h' ha (fcsBytes s.crc) true
  have hB' := h'.emitBytes (fcsBytes s.crc) true
  rw [heq] at hB'
  obtain ⟨buf2, heq2, ha2⟩ := emitBytes_agreesWith (h.emitBytes _ _) hB' ha1
    (List.replicate s.cfg.flagCount flagByte) false
  exact ⟨buf2, (congrArg (State.emitFlags · s.cfg.flagCount) heq).trans heq2, ha2⟩

/-- What a finished frame reads as, byte by byte: the bytes the open frame had completed, and the partial one. -/
theorem finalize_read {t : State} (h : t.Building) {i : Nat} (hi : i < t.finalize.extent) :
    t.finalize.buf.read i = if i < t.extent then t.buf.read i else t.outb := by
  have hx : t.finalize.extent = (t.bitlen.toNat + 7) / 8 := State.extent_finalized rfl
  obtain ⟨u, -, hform, -, -, hpartial, hwindow⟩ := finalFlush_spec h
  have hbuf : t.finalize.buf = u.buf := by rw [hform]; rfl
  rw [hbuf, State.extent_opened h.opened]
  split
  · exact hwindow i (.inl ‹_›)
  · have hlast : i = t.bitlen.toNat / 8 := by omega
    rw [hlast]
    exact hpartial (by omega)

/-- The final flush makes the last byte of the frame from OUTB alone. -/
theorem finalize_agreesWith {t : State} {buf : Memory} (h : t.Building) (h' : (t.withBuf buf).Building)
    (ha : t.AgreesWith buf) : ∃ buf', (t.withBuf buf).finalize = t.finalize.withBuf buf' ∧
      t.finalize.AgreesWith buf' := by
  refine ⟨(t.withBuf buf).finalize.buf, rfl, fun i hi => ?_⟩
  rw [finalize_read h hi, finalize_read h' hi, State.withBuf_extent]
  by_cases hx : i < t.extent
  · rw [if_pos hx, if_pos hx]
    exact ha i hx
  · rw [if_neg hx, if_neg hx]
    rfl

/-- The step of an instruction from `s` to `t` is taken from another BUF too, and the BUF it leaves there holds the same
frame: neither the outputs nor a register tell the two apart. -/
def UnseenBy (i : Instr) (s t : State) (buf : Memory) : Prop :=
  ∃ buf', exec i (s.withBuf buf) = .next (t.withBuf buf') ∧ t.AgreesWith buf'

theorem raiseFault_withBuf (s : State) (buf : Memory) (reason : ModelFault) :
    (s.withBuf buf).raiseFault reason = (s.raiseFault reason).withBuf buf := by
  unfold State.raiseFault
  rw [State.withBuf_fault]
  split <;> rfl

theorem frameWrite_unseen {i : Instr} {s t : State} {buf : Memory} (hi : i.isFrameWrite = true) (h : s.Inv)
    (h' : (s.withBuf buf).Inv) (ha : s.AgreesWith buf) (he : exec i s = .next t) : UnseenBy i s t buf := by
  cases hg : s.writeGuard with
  | some reason =>
    rw [exec_of_writeGuard hi hg] at he
    cases he
    refine ⟨buf, ?_, (s.sameFrame_raiseFault reason).agreesWith ha⟩
    rw [exec_of_writeGuard (s := s.withBuf buf) hi hg, raiseFault_withBuf]
  | none =>
    have ho := (State.writeGuard_eq_none_iff.mp hg).2
    have hB := h.building ho
    have hB' := h'.building ho
    by_cases hf : i = .writeFcsAndTrailer
    · subst hf
      obtain ⟨buf1, heq1, ha1⟩ := emitFcsAndFlags_agreesWith hB hB' ha
      have hE' := hB'.emitFcsAndFlags
      rw [heq1] at hE'
      obtain ⟨buf2, heq2, ha2⟩ := finalize_agreesWith hB.emitFcsAndFlags hE' ha1
      rw [exec_writeFcsAndTrailer hg hB] at he
      cases he
      refine ⟨buf2, ?_, ha2⟩
      rw [exec_writeFcsAndTrailer (s := s.withBuf buf) hg hB', heq1, heq2]
      rfl
    · obtain ⟨e, bytes, subject, hall⟩ := frameWrite_emits hi hf hg
      have ht := he.symm.trans (hall s.buf)
      cases ht
      obtain ⟨buf', heq, ha'⟩ := emitBytes_agreesWith (hB.withFErr e) (hB'.withFErr e) ha bytes subject
      exact ⟨buf', (hall buf).trans (congrArg (fun u => Host.Outcome.next (State.respondFerr u)) heq), ha'⟩

theorem beginFrame_unseen {s t : State} {buf : Memory} (ha : s.AgreesWith buf) (he : exec .beginFrame s = .next t) :
    UnseenBy .beginFrame s t buf := by
  rcases beginFrame_cases he with ⟨hs, rfl⟩ | ⟨hs, rfl⟩
  · refine ⟨buf, ?_, (s.sameFrame_raiseFault _).agreesWith ha⟩
    simp only [exec, execBeginFrame, State.raceGuard_of_session (s := s.withBuf buf) hs, raiseFault_withBuf]
  · refine ⟨buf, ?_, ha.mono rfl (by simp [State.extent])⟩
    simp only [exec, execBeginFrame, State.raceGuard_of_idle (s := s.withBuf buf) hs]
    rfl

/-- RESET leaves no frame (R231). -/
theorem reset_unseen {s t : State} {buf : Memory} (ha : s.AgreesWith buf) (he : exec .reset s = .next t) :
    UnseenBy .reset s t buf := by
  have hform := reset_next he
  have hform' := reset_next (s := s.withBuf buf) rfl
  rw [hform]
  exact ⟨buf, congrArg Host.Outcome.next hform', ha.mono rfl (Nat.zero_le _)⟩

/-- `READ_BUF` by its three cases (R234). -/
theorem exec_readBuf (idx : BitVec 16) (s : State) : exec (.readBuf idx) s =
    if idx.toNat < s.cfg.maxFrameBytes then
      if idx.toNat < s.extent then .next (s.respond .ok ((s.buf.read idx.toNat).setWidth 32))
      else .next (s.drawByte.2.respond .ok (s.drawByte.1.setWidth 32))
    else .fault (.noSuchByte idx.toNat) := by
  by_cases hm : idx.toNat < s.cfg.maxFrameBytes <;> simp [exec, execReadBuf, State.memRead?, hm]

/-- A read sees the frame's bytes and no other: outside the extent it draws (R63, R234). -/
theorem read_unseen {i : Instr} {s t : State} {buf : Memory} (hi : i.returnsValue = true) (ha : s.AgreesWith buf)
    (he : exec i s = .next t) : UnseenBy i s t buf := by
  have hagree : t.AgreesWith buf := by
    obtain ⟨value, draws, rfl⟩ := read_cases hi he
    exact ha
  refine ⟨buf, ?_, hagree⟩
  cases i <;> simp only [Instr.returnsValue, Bool.false_eq_true] at hi
  case tableLookup k => cases he; rfl
  case readReg reg => cases he; cases reg <;> rfl
  case readBuf idx =>
    rw [exec_readBuf] at he
    rw [exec_readBuf, State.withBuf_cfg, State.withBuf_extent, State.withBuf_buf]
    by_cases hm : idx.toNat < s.cfg.maxFrameBytes
    · rw [if_pos hm] at he ⊢
      by_cases hx : idx.toNat < s.extent
      · rw [if_pos hx] at he ⊢
        rw [ha _ hx]
        cases he
        rfl
      · rw [if_neg hx] at he ⊢
        cases he
        rfl
    · rw [if_neg hm] at he
      cases he

/-- Why START_TX opens no session, before the adapter is asked (R190). -/
def State.startRefusal (s : State) : Option RespCode :=
  if s.sstate ≠ .idle then some .sessionBusy
  else if s.ferr ≠ .none then some s.ferr.code
  else if s.fstate ≠ .finalized then some .frameNotReady
  else none

/-- START_TX keys the transmitter before it asks the adapter (R190). -/
def State.keyUp (s : State) : State := { s with txEn := true }.emit (.txEnable true)

theorem exec_startTx_of_refused {s : State} {code : RespCode} (h : s.startRefusal = some code) :
    exec .startTx s = .next (s.respond code 0#32) := by
  unfold State.startRefusal at h
  simp only [exec, execStartTx]
  split at h
  · next hs => cases h; rw [if_pos hs]
  next hs =>
  rw [if_neg hs]
  split at h
  · next hf => cases h; rw [if_pos hf]
  next hf =>
  rw [if_neg hf]
  split at h
  · next hn => cases h; rw [if_pos hn]
  · cases h

theorem exec_startTx_of_ready {s : State} (h : s.startRefusal = none) : exec .startTx s =
    if s.keyUp.drawSettle.1 then .next ((s.keyUp.drawSettle.2.emit .keyDelay).openSession.respond .ok 0#32)
    else .next
      (({ s.keyUp.drawSettle.2 with txEn := false }.emit (.txEnable false)).respond .configurationTimeout 0#32) := by
  obtain ⟨hs, hf, hn⟩ : s.sstate = .idle ∧ s.ferr = .none ∧ s.fstate = .finalized := by
    simpa [State.startRefusal, ite_eq_iff] using h
  simp only [exec, execStartTx, State.keyUp, hs, hf, hn, ne_eq, not_true_eq_false, if_false]

theorem drawSettle_withBuf (s : State) (buf : Memory) :
    (s.withBuf buf).drawSettle = (s.drawSettle.1, s.drawSettle.2.withBuf buf) := by
  unfold State.drawSettle
  rw [State.withBuf_settle]
  cases s.settle <;> rfl

/-- START_TX keeps the frame and does not look at BUF (R190). -/
theorem startTx_unseen {s t : State} {buf : Memory} (ha : s.AgreesWith buf) (he : exec .startTx s = .next t) :
    UnseenBy .startTx s t buf := by
  refine ⟨buf, ?_, (startTx_keeps_frame he).agreesWith ha⟩
  cases hr : s.startRefusal with
  | some code =>
    rw [exec_startTx_of_refused hr] at he
    cases he
    exact exec_startTx_of_refused (s := s.withBuf buf) hr
  | none =>
    rw [exec_startTx_of_ready hr] at he
    rw [exec_startTx_of_ready (s := s.withBuf buf) hr, show (s.withBuf buf).keyUp = s.keyUp.withBuf buf from rfl,
      drawSettle_withBuf]
    by_cases hok : s.keyUp.drawSettle.1 = true
    · rw [if_pos hok] at he ⊢
      cases he
      rfl
    · rw [if_neg hok] at he ⊢
      cases he
      rfl

/-! ### The four moves of a TICK (R192) -/

theorem tick_of_idle {s : State} (hs : s.sstate ≠ .transmitting) : exec .tick s = .next s := by
  simp [exec, execTick, hs]

theorem tick_of_end {s : State} (hs : s.sstate = .transmitting) (hb : s.budget = 0#16) (hc : s.cursor = s.txlen) :
    exec .tick s = .next s.endSession := by
  simp [exec, execTick, hs, hb, hc]

theorem tick_of_boundary {s u : State} (hs : s.sstate = .transmitting) (hb : s.budget = 0#16)
    (hc : s.cursor ≠ s.txlen) (hu : s.fetchBit? = some u) : exec .tick s = .next u.sample := by
  simp [exec, execTick, hs, hb, hc, hu]

theorem tick_of_inside {s : State} (hs : s.sstate = .transmitting) (hb : s.budget ≠ 0#16) :
    exec .tick s = .next s.sample := by
  simp [exec, execTick, hs, hb]

/-- The bit fetch sees one byte of BUF (R194). -/
theorem fetchBit_withBuf {s u : State} {buf : Memory}
    (hr : buf.read (s.cursor.toNat / 8) = s.buf.read (s.cursor.toNat / 8)) (hu : s.fetchBit? = some u) :
    (s.withBuf buf).fetchBit? = some (u.withBuf buf) := by
  unfold State.fetchBit? at hu ⊢
  have hm : (s.withBuf buf).memRead? ((s.withBuf buf).cursor.toNat / 8) = s.memRead? (s.cursor.toNat / 8) := by
    simp only [State.memRead?, State.withBuf, hr]
  rw [hm]
  split at hu
  · cases hu
  · cases hu; rfl

/-- A session fetches only bits before TXLEN, the end of a finished frame (R46, R194). -/
theorem SessionValues.cursor_byte_lt {s : State} (h : SessionValues s) (hc : s.cursor ≠ s.txlen) :
    s.cursor.toNat / 8 < s.extent := by
  have hle := h.cursor
  have hne : s.cursor.toNat ≠ s.txlen.toNat := fun he => hc (BitVec.eq_of_toNat_eq he)
  rw [h.txlen] at hle hne
  rw [State.extent_finalized h.fstate]
  omega

theorem tick_unseen {s t : State} {buf : Memory} (h : s.Inv) (ha : s.AgreesWith buf) (he : exec .tick s = .next t) :
    UnseenBy .tick s t buf := by
  refine ⟨buf, ?_, (tick_keeps_frame he).agreesWith ha⟩
  rcases tick_cases he with ⟨hs, rfl⟩ | ⟨hs, hb, hc, rfl⟩ | ⟨hs, hb, hc, u, hu, rfl⟩ | ⟨hs, hb, rfl⟩
  · exact tick_of_idle hs
  · exact tick_of_end hs hb hc
  · have hread := ha _ ((h.session.transmitting hs).cursor_byte_lt hc)
    exact tick_of_boundary (s := s.withBuf buf) (u := u.withBuf buf) hs hb hc (fetchBit_withBuf hread hu)
  · exact tick_of_inside hs hb

/-- No command and no TICK sees a byte outside the frame. -/
theorem exec_unseen {i : Instr} {s t : State} {buf : Memory} (h : s.Inv) (h' : (s.withBuf buf).Inv)
    (ha : s.AgreesWith buf) (he : exec i s = .next t) : UnseenBy i s t buf := by
  rcases instr_cases i with hw | hv | rfl | rfl | rfl | rfl | rfl
  · exact frameWrite_unseen hw h h' ha he
  · exact read_unseen hv ha he
  · exact reset_unseen ha he
  · exact beginFrame_unseen ha he
  · exact startTx_unseen ha he
  · cases he
    exact ⟨buf, rfl, ha⟩
  · exact tick_unseen h ha he

/-- What arrives, in a state with another BUF. -/
def Arrival.withBuf (buf : Memory) : Arrival → Arrival
  | .run i s => .run i (s.withBuf buf)
  | .pass s => .pass (s.withBuf buf)
  | .stop why => .stop why
  | .refuse why => .refuse why

theorem hostTurn_withBuf (s : State) (buf : Memory) : (s.withBuf buf).hostTurn = s.hostTurn.withBuf buf := by
  unfold State.hostTurn
  rw [State.withBuf_cfg, State.withBuf_stream]
  split <;> rfl

theorem timerTurn_withBuf (s : State) (buf : Memory) : (s.withBuf buf).timerTurn = s.timerTurn.withBuf buf := by
  unfold State.timerTurn
  rw [State.withBuf_timerEn]
  split <;> rfl

/-- Which command or TICK comes next does not depend on BUF. -/
theorem arrival_withBuf (s : State) (buf : Memory) : (s.withBuf buf).arrival = s.arrival.withBuf buf := by
  unfold State.arrival
  rw [State.withBuf_fault, State.withBuf_cfg, State.withBuf_turns]
  split
  · rfl
  · split
    · split
      · exact hostTurn_withBuf _ buf
      · next rest _ => exact hostTurn_withBuf { s with turns := rest } buf
      · next rest _ => exact timerTurn_withBuf { s with turns := rest } buf
    · rfl

/-- Settles O54: what arrives does not depend on BUF (`arrival_withBuf`), and no instruction sees a byte outside the
frame (`exec_unseen`). -/
theorem unspecifiedBytesAreInvisible : Obligations.UnspecifiedBytesAreInvisible := by
  intro s t buf h h' ha hstep
  change ∃ buf', step (s.withBuf buf) = .next (t.withBuf buf') ∧ t.AgreesWith buf'
  have harrival := arrival_withBuf s buf
  rcases step_cases hstep with ⟨i, u, hrun, he⟩ | hp
  · rw [hrun] at harrival
    obtain ⟨-, -, hu, -⟩ := arrival_run hrun
    have hagree : u.AgreesWith buf := by rw [hu]; exact ha
    obtain ⟨buf', heq, ha'⟩ := exec_unseen (h.arrival_run hrun) (State.Inv.arrival_run h' harrival) hagree he
    exact ⟨buf', by rw [step, harrival]; exact heq, ha'⟩
  · rw [hp] at harrival
    obtain ⟨-, -, turns, stream, new, -, rfl⟩ := arrival_pass hp
    exact ⟨buf, by rw [step, harrival]; rfl, ha⟩

end Sys2Proof.Machine
end

section
/-! 30_encoding.md: decode and encode are inverse (R100), a command takes the length its first bytes tell (R94 to R96), and
exactly the six illegal encodings are refused (R97). -/

namespace Sys2Proof

/-! ## The opcode byte (R80, R83) -/

@[simp] theorem decode_byte (m : Nat) (o : Opcode) (bs : List Byte) :
    decode m (o.byte :: bs) = decodeOperands m o bs := by
  simp [decode]

theorem decode_of_noOpcode (m : Nat) {op : Byte} (h : Opcode.ofByte? op = none) (bs : List Byte) :
    decode m (op :: bs) = .refused .opcode bs := by
  simp [decode, h]

/-- A stream is empty, begins with the byte of an opcode, or with a byte that is none's. -/
theorem stream_cases (bytes : List Byte) :
    bytes = [] ∨ (∃ (o : Opcode) (bs : List Byte), bytes = o.byte :: bs) ∨
    (∃ (op : Byte) (bs : List Byte), bytes = op :: bs ∧ Opcode.ofByte? op = none) := by
  rcases bytes with _ | ⟨op, bs⟩
  · exact .inl rfl
  · cases h : Opcode.ofByte? op with
    | some o => exact .inr (.inl ⟨o, bs, by rw [Opcode.byte_of_ofByte? h]⟩)
    | none => exact .inr (.inr ⟨op, bs, rfl, h⟩)

/-- The bytes outside the opcode map (R83, R97 item 1). -/
theorem Opcode.ofByte?_eq_none_iff (op : Byte) : Opcode.ofByte? op = none ↔
    op ∉ ([0x01, 0x02, 0x03, 0x10, 0x11, 0x12, 0x13, 0x14, 0x15, 0x20, 0x21, 0x30] : List Byte) := by
  revert op
  decide +kernel

/-! ## Decode and encode are inverse (R100) -/

/-- A counted payload is read back (R91). -/
theorem decodeOperands_payload (m : Nat) {bytes : List Byte} (h : bytes.length ≤ 65535) (rest : List Byte) :
    decodeOperands m .writePayload (bytesOf16 (BitVec.ofNat 16 bytes.length) ++ bytes ++ rest) =
      .cmd (.writePayload bytes) rest := by
  have hlen : (BitVec.ofNat 16 bytes.length).toNat = bytes.length := Nat.mod_eq_of_lt (by omega)
  simp only [bytesOf16, List.cons_append, List.nil_append, decodeOperands, append_bytesOf16, hlen, takeBytes_append]

section

variable {recs : List RawRecord} (m : Nat) (hn : recs.length ≤ 255) (hr : ∀ rec ∈ recs, rec.1.length ≤ 255)
  (rest : List Byte)

include hn hr

/-- Records that give a chain are read to the end of the last (R88, R94). -/
theorem decodeOperands_records_of_ok {chain : List Address} (h : addressesOfRecords recs = .ok chain) :
    decodeOperands m .writeAddressChain
      (BitVec.ofNat 8 recs.length :: (recs.flatMap Machine.recordBytes ++ rest)) = .cmd (.writeAddressChain chain) rest := by
  have hlen : (BitVec.ofNat 8 recs.length).toNat = recs.length := Nat.mod_eq_of_lt (by omega)
  simp only [decodeOperands, hlen, takeRecords_flatMap hr rest, h]

/-- Records with an illegal one among them are read to the end all the same, and refused (R96, R97). -/
theorem decodeOperands_records_of_error {why : RefuseReason} (h : addressesOfRecords recs = .error why) :
    decodeOperands m .writeAddressChain
      (BitVec.ofNat 8 recs.length :: (recs.flatMap Machine.recordBytes ++ rest)) = .refused why rest := by
  have hlen : (BitVec.ofNat 8 recs.length).toNat = recs.length := Nat.mod_eq_of_lt (by omega)
  simp only [decodeOperands, hlen, takeRecords_flatMap hr rest, h]

end

/-- A legal chain is read back (R88 to R90). -/
theorem decodeOperands_chain (m : Nat) {chain : List Address} (hn : chain.length ≤ 255)
    (hw : chain.all Address.wellFormed = true) (rest : List Byte) :
    decodeOperands m .writeAddressChain
      (BitVec.ofNat 8 chain.length :: (chain.flatMap encodeAddress ++ rest)) = .cmd (.writeAddressChain chain) rest := by
  have hr : ∀ rec ∈ chain.map fun a => (a.callsign, slByte a), rec.1.length ≤ 255 := by
    simp_all [Address.wellFormed]
  have h := decodeOperands_records_of_ok m (by simpa using hn) hr rest (addressesOfRecords_slByte hw)
  rwa [List.length_map, ← flatMap_encodeAddress] at h

/-- The decoder reads back what the encoder writes. -/
theorem decode_encode {m : Nat} {i : Instr} (hw : i.wellFormed m = true) (ht : i ≠ .tick) (rest : List Byte) :
    decode m (encode i ++ rest) = .cmd i rest := by
  cases i <;> simp only [encode, List.cons_append, List.nil_append, decode_byte]
  case tick => exact absurd rfl ht
  case readReg g => simp [decodeOperands]
  case readBuf idx =>
    have hidx : idx.toNat < m := by simpa [Instr.wellFormed] using hw
    simp [bytesOf16, decodeOperands, append_bytesOf16, hidx]
  case writeFlags n =>
    have hn : n ≠ 0#8 := by simpa [Instr.wellFormed] using hw
    simp [decodeOperands, hn]
  case writeAddressChain chain =>
    obtain ⟨hn, hall⟩ : chain.length ≤ 255 ∧ chain.all Address.wellFormed = true := by
      simpa [Instr.wellFormed] using hw
    exact decodeOperands_chain m hn hall rest
  case writePayload bytes => exact decodeOperands_payload m (by simpa [Instr.wellFormed] using hw) rest
  case tableLookup k => simp only [bytesOf32, List.cons_append, List.nil_append, decodeOperands, append_bytesOf32]
  all_goals rfl

/-- A decoded chain is legal, and its bytes are those it was read from. -/
theorem encode_of_decoded_chain {m : Nat} {bs rest : List Byte} {i : Instr}
    (h : decodeOperands m .writeAddressChain bs = .cmd i rest) :
    Opcode.writeAddressChain.byte :: bs = encode i ++ rest ∧ i.wellFormed m = true := by
  rcases bs with _ | ⟨k, bs⟩ <;> simp only [decodeOperands] at h
  · cases h
  · split at h
    · cases h
    · rename_i recs rest' hrecs
      obtain ⟨hlen, hr, hbs⟩ := takeRecords_eq_some hrecs
      split at h
      · cases h
      · rename_i chain hchain
        cases h
        obtain ⟨hmap, hall⟩ := addressesOfRecords_eq_ok hr hchain
        have hk : chain.length = k.toNat := by rw [← hlen, hmap, List.length_map]
        have := k.isLt
        refine ⟨?_, by simp only [Instr.wellFormed, hall, Bool.and_true, decide_eq_true_eq]; omega⟩
        rw [encode, hk, BitVec.ofNat_toNat, BitVec.setWidth_eq, flatMap_encodeAddress, ← hmap, hbs]
        rfl

/-- A decoded payload is legal, and its bytes are those it was read from. -/
theorem encode_of_decoded_payload {m : Nat} {bs rest : List Byte} {i : Instr}
    (h : decodeOperands m .writePayload bs = .cmd i rest) :
    Opcode.writePayload.byte :: bs = encode i ++ rest ∧ i.wellFormed m = true := by
  rcases bs with _ | ⟨hi, _ | ⟨lo, bs⟩⟩ <;> simp only [decodeOperands] at h
  · cases h
  · cases h
  · split at h
    · cases h
    · rename_i bytes rest' hbytes
      cases h
      obtain ⟨hbs, hlen⟩ := takeBytes_eq_some hbytes
      have := (hi ++ lo : BitVec 16).isLt
      refine ⟨?_, by simp only [Instr.wellFormed, decide_eq_true_eq]; omega⟩
      rw [encode, hlen, BitVec.ofNat_toNat, BitVec.setWidth_eq, bytesOf16_append, hbs]
      rfl

/-- The encoder writes what the decoder has read, and the command is legal. -/
theorem encode_of_decodeOperands {m : Nat} {o : Opcode} {bs rest : List Byte} {i : Instr}
    (h : decodeOperands m o bs = .cmd i rest) : o.byte :: bs = encode i ++ rest ∧ i.wellFormed m = true := by
  cases o
  case writeAddressChain => exact encode_of_decoded_chain h
  case writePayload => exact encode_of_decoded_payload h
  case readReg =>
    rcases bs with _ | ⟨b, bs⟩ <;> simp only [decodeOperands] at h
    · cases h
    · split at h
      · rename_i g hg
        cases h
        exact ⟨by rw [Reg.num_of_ofByte? hg]; rfl, rfl⟩
      · cases h
  case readBuf =>
    rcases bs with _ | ⟨hi, _ | ⟨lo, bs⟩⟩ <;> simp only [decodeOperands] at h
    · cases h
    · cases h
    · split at h <;> cases h
      exact ⟨by rw [encode, bytesOf16_append]; rfl, decide_eq_true ‹_›⟩
  case writeFlags =>
    rcases bs with _ | ⟨n, bs⟩ <;> simp only [decodeOperands] at h
    · cases h
    · split at h <;> cases h
      exact ⟨rfl, bne_iff_ne.mpr ‹_›⟩
  case tableLookup =>
    rcases bs with _ | ⟨b3, _ | ⟨b2, _ | ⟨b1, _ | ⟨b0, bs⟩⟩⟩⟩ <;> simp only [decodeOperands] at h <;> cases h
    exact ⟨by rw [encode, bytesOf32_append]; rfl, rfl⟩
  all_goals
    cases h
    exact ⟨rfl, rfl⟩

/-- Settles O10: forward by the constructor of the command (`decode_encode`), back by the opcode of the stream
(`encode_of_decodeOperands`); a TICK is never decoded. -/
theorem decodeAndEncodeAreInverse : Obligations.DecodeAndEncodeAreInverse := by
  refine ⟨fun m i rest hw ht => decode_encode hw ht rest, fun m bytes rest i h => ?_⟩
  have ht : i ≠ .tick := fun hi => decode_ne_tick (hi ▸ h)
  rcases stream_cases bytes with rfl | ⟨o, bs, rfl⟩ | ⟨op, bs, rfl, hop⟩
  · cases h
  · rw [decode_byte] at h
    obtain ⟨henc, hw⟩ := encode_of_decodeOperands h
    exact ⟨henc, hw, ht⟩
  · rw [decode_of_noOpcode m hop] at h
    cases h

/-! ## A command takes its length (R94 to R96) -/

/-- What the decoder made of a stream whose first command has `n` bytes: incomplete if the stream is shorter, else a
command or a refusal that leaves the bytes after these (R95, R96). -/
def Decoded.Takes (d : Decoded) (n : Nat) (bytes : List Byte) : Prop :=
  (bytes.length < n ∧ d = .incomplete) ∨
  (n ≤ bytes.length ∧ ((∃ i, d = .cmd i (bytes.drop n)) ∨ (∃ why, d = .refused why (bytes.drop n))))

namespace Decoded

variable {n : Nat} {bytes rest : List Byte}

theorem takes_incomplete (h : bytes.length < n) : Decoded.incomplete.Takes n bytes := .inl ⟨h, rfl⟩

theorem takes_cmd (i : Instr) (h : n ≤ bytes.length) (hr : rest = bytes.drop n) : (Decoded.cmd i rest).Takes n bytes :=
  .inr ⟨h, .inl ⟨i, by rw [hr]⟩⟩

theorem takes_refused (why : RefuseReason) (h : n ≤ bytes.length) (hr : rest = bytes.drop n) :
    (Decoded.refused why rest).Takes n bytes :=
  .inr ⟨h, .inr ⟨why, by rw [hr]⟩⟩

end Decoded

theorem decodeOperands_chain_takes (m : Nat) (bs : List Byte) :
    (decodeOperands m .writeAddressChain bs).Takes (commandLength (Opcode.writeAddressChain.byte :: bs))
      (Opcode.writeAddressChain.byte :: bs) := by
  simp only [commandLength, Opcode.ofByte?_byte]
  rcases bs with _ | ⟨k, bs⟩ <;> simp only [decodeOperands, List.headD_nil, List.headD_cons, List.tail_nil, List.tail_cons]
  · exact Decoded.takes_incomplete (by simp only [List.length_singleton]; omega)
  · cases hrecs : takeRecords k.toNat bs with
    | none =>
      have hshort : ¬ recordsLength k.toNat bs ≤ bs.length := by simp [← takeRecords_isSome_iff, hrecs]
      exact Decoded.takes_incomplete (by simp only [List.length_cons]; omega)
    | some found =>
      obtain ⟨recs, rest⟩ := found
      have hlong : recordsLength k.toNat bs ≤ bs.length := by simp [← takeRecords_isSome_iff, hrecs]
      have hlen : 2 + recordsLength k.toNat bs ≤ (Opcode.writeAddressChain.byte :: k :: bs).length := by
        simp only [List.length_cons]; omega
      have hrest : rest = (Opcode.writeAddressChain.byte :: k :: bs).drop (2 + recordsLength k.toNat bs) := by
        rw [takeRecords_rest hrecs, Nat.add_comm]
        rfl
      simp only
      split
      · exact Decoded.takes_refused _ hlen hrest
      · exact Decoded.takes_cmd _ hlen hrest

theorem decodeOperands_payload_takes (m : Nat) (bs : List Byte) :
    (decodeOperands m .writePayload bs).Takes (commandLength (Opcode.writePayload.byte :: bs))
      (Opcode.writePayload.byte :: bs) := by
  simp only [commandLength, Opcode.ofByte?_byte]
  rcases bs with _ | ⟨hi, _ | ⟨lo, bs⟩⟩ <;>
    simp only [decodeOperands, List.headD_nil, List.headD_cons, List.tail_nil, List.tail_cons]
  · exact Decoded.takes_incomplete (by simp)
  · exact Decoded.takes_incomplete (by simp; omega)
  · rw [takeBytes_eq]
    by_cases hlen : (hi ++ lo : BitVec 16).toNat ≤ bs.length
    · rw [if_pos hlen]
      exact Decoded.takes_cmd _ (by simp only [List.length_cons]; omega) (by simp [Nat.add_comm 3])
    · rw [if_neg hlen]
      exact Decoded.takes_incomplete (by simp only [List.length_cons]; omega)

/-- The operands of a command are taken to its length and no further. -/
theorem decodeOperands_takes (m : Nat) (o : Opcode) (bs : List Byte) :
    (decodeOperands m o bs).Takes (commandLength (o.byte :: bs)) (o.byte :: bs) := by
  cases o
  case writeAddressChain => exact decodeOperands_chain_takes m bs
  case writePayload => exact decodeOperands_payload_takes m bs
  all_goals simp only [commandLength, Opcode.ofByte?_byte]
  case readReg =>
    rcases bs with _ | ⟨b, bs⟩ <;> simp only [decodeOperands]
    · exact Decoded.takes_incomplete (by simp)
    · split
      · exact Decoded.takes_cmd _ (by simp) rfl
      · exact Decoded.takes_refused _ (by simp) rfl
  case readBuf =>
    rcases bs with _ | ⟨hi, _ | ⟨lo, bs⟩⟩ <;> simp only [decodeOperands]
    · exact Decoded.takes_incomplete (by simp)
    · exact Decoded.takes_incomplete (by simp)
    · split
      · exact Decoded.takes_cmd _ (by simp) rfl
      · exact Decoded.takes_refused _ (by simp) rfl
  case writeFlags =>
    rcases bs with _ | ⟨n, bs⟩ <;> simp only [decodeOperands]
    · exact Decoded.takes_incomplete (by simp)
    · split
      · exact Decoded.takes_refused _ (by simp) rfl
      · exact Decoded.takes_cmd _ (by simp) rfl
  case tableLookup =>
    rcases bs with _ | ⟨b3, _ | ⟨b2, _ | ⟨b1, _ | ⟨b0, bs⟩⟩⟩⟩ <;> simp only [decodeOperands]
    case cons.cons.cons.cons => exact Decoded.takes_cmd _ (by simp) rfl
    all_goals exact Decoded.takes_incomplete (by simp)
  all_goals exact Decoded.takes_cmd _ (by simp) rfl

/-- Settles O11: by the opcode of the stream (`decodeOperands_takes`); a byte that is no opcode is taken alone. -/
theorem decoderTakesExactlyTheCommandLength : Obligations.DecoderTakesExactlyTheCommandLength := by
  intro m bytes
  change (decode m bytes).Takes (commandLength bytes) bytes
  rcases stream_cases bytes with rfl | ⟨o, bs, rfl⟩ | ⟨op, bs, rfl, hop⟩
  · exact Decoded.takes_incomplete (Nat.zero_lt_one)
  · rw [decode_byte]
    exact decodeOperands_takes m o bs
  · have hlen : commandLength (op :: bs) = 1 := by simp [commandLength, hop]
    rw [decode_of_noOpcode m hop, hlen]
    exact Decoded.takes_refused _ (by simp) rfl

/-! ## The refused encodings (R97) -/

/-- An illegal byte of a callsign or of `sl` refuses a record, as a record (R96, R97 items 5 and 6). -/
theorem addressOfRecord_of_illegal {rec : RawRecord}
    (h : (∃ ch ∈ rec.1, ch.toNat < 0x20 ∨ 0x7E < ch.toNat) ∨ rec.2.toNat / 16 % 8 ≠ 0) :
    ∃ why, addressOfRecord rec = .error why := by
  simp only [← printable_eq_false_iff, ← slReserved_ne_zero_iff] at h
  by_cases hp : ∃ ch ∈ rec.1, printable ch = false
  · exact ⟨_, (addressOfRecord_eq_error_iff rec _).mpr (.inl ⟨rfl, hp⟩)⟩
  · refine ⟨_, (addressOfRecord_eq_error_iff rec _).mpr (.inr ⟨rfl, ?_, h.resolve_left hp⟩)⟩
    simpa using hp

/-- What R97 says of the bytes of a command refused for each reason, `rest` being the bytes after it. -/
def RefuseReason.Form (m : Nat) (bytes rest : List Byte) : RefuseReason → Prop
  | .opcode => ∃ op, bytes = op :: rest ∧
      op ∉ ([0x01, 0x02, 0x03, 0x10, 0x11, 0x12, 0x13, 0x14, 0x15, 0x20, 0x21, 0x30] : List Byte)
  | .register => ∃ r : Byte, bytes = 0x02 :: r :: rest ∧ 9 ≤ r.toNat
  | .index => ∃ hi lo : Byte, bytes = 0x03 :: hi :: lo :: rest ∧ m ≤ 256 * hi.toNat + lo.toNat
  | .zeroFlags => bytes = 0x11 :: 0x00 :: rest
  | .callsignByte => ∃ recs : List RawRecord, recs.length ≤ 255 ∧
      bytes = 0x12 :: BitVec.ofNat 8 recs.length :: (recs.flatMap Machine.recordBytes ++ rest) ∧
      ∃ rec ∈ recs, ∃ ch ∈ rec.1, ch.toNat < 0x20 ∨ 0x7E < ch.toNat
  | .ssidBits => ∃ recs : List RawRecord, recs.length ≤ 255 ∧
      bytes = 0x12 :: BitVec.ofNat 8 recs.length :: (recs.flatMap Machine.recordBytes ++ rest) ∧
      ∃ rec ∈ recs, rec.2.toNat / 16 % 8 ≠ 0

/-- An incomplete or a legal chain is not refused; the others are refused for a record of theirs. -/
theorem form_of_refused_chain {m : Nat} {bs rest : List Byte} {why : RefuseReason}
    (h : decodeOperands m .writeAddressChain bs = .refused why rest) :
    why.Form m (Opcode.writeAddressChain.byte :: bs) rest := by
  rcases bs with _ | ⟨k, bs⟩ <;> simp only [decodeOperands] at h
  · cases h
  · split at h
    · cases h
    · rename_i recs rest' hrecs
      obtain ⟨hlen, -, hbs⟩ := takeRecords_eq_some hrecs
      split at h
      · rename_i why' herror
        cases h
        have hk : k = BitVec.ofNat 8 recs.length := by rw [hlen, BitVec.ofNat_toNat, BitVec.setWidth_eq]
        have hn : recs.length ≤ 255 := by have := k.isLt; omega
        obtain ⟨rec, hmem, hrec⟩ := addressesOfRecords_eq_error herror
        rw [hbs, hk]
        rcases (addressOfRecord_eq_error_iff rec _).mp hrec with ⟨rfl, ch, hch, hp⟩ | ⟨rfl, -, hsl⟩
        · exact ⟨recs, hn, rfl, rec, hmem, ch, hch, (printable_eq_false_iff ch).mp hp⟩
        · exact ⟨recs, hn, rfl, rec, hmem, (slReserved_ne_zero_iff rec.2).mp hsl⟩
      · cases h

/-- Operands are refused in the forms of R97 alone. -/
theorem form_of_refused_operands {m : Nat} {o : Opcode} {bs rest : List Byte} {why : RefuseReason}
    (h : decodeOperands m o bs = .refused why rest) : why.Form m (o.byte :: bs) rest := by
  cases o
  case writeAddressChain => exact form_of_refused_chain h
  case readReg =>
    rcases bs with _ | ⟨b, bs⟩ <;> simp only [decodeOperands] at h
    · cases h
    · split at h
      · cases h
      · rename_i hg
        cases h
        exact ⟨b, rfl, (Reg.ofByte?_eq_none_iff b).mp hg⟩
  case readBuf =>
    rcases bs with _ | ⟨hi, _ | ⟨lo, bs⟩⟩ <;> simp only [decodeOperands, toNat_append_bytes] at h
    · cases h
    · cases h
    · split at h
      · cases h
      · rename_i hidx
        cases h
        exact ⟨hi, lo, rfl, Nat.le_of_not_lt hidx⟩
  case writeFlags =>
    rcases bs with _ | ⟨n, bs⟩ <;> simp only [decodeOperands] at h
    · cases h
    · split at h
      · rename_i hn
        cases h
        exact congrArg (fun n => Opcode.writeFlags.byte :: n :: rest) hn
      · cases h
  case writePayload =>
    rcases bs with _ | ⟨hi, _ | ⟨lo, bs⟩⟩ <;> simp only [decodeOperands] at h
    · cases h
    · cases h
    · split at h <;> cases h
  case tableLookup =>
    rcases bs with _ | ⟨b3, _ | ⟨b2, _ | ⟨b1, _ | ⟨b0, bs⟩⟩⟩⟩ <;> cases h
  all_goals cases h

/-- The refused encodings are those of R97. -/
theorem form_of_refused {m : Nat} {bytes rest : List Byte} {why : RefuseReason}
    (h : decode m bytes = .refused why rest) : why.Form m bytes rest := by
  rcases stream_cases bytes with rfl | ⟨o, bs, rfl⟩ | ⟨op, bs, rfl, hop⟩
  · cases h
  · rw [decode_byte] at h
    exact form_of_refused_operands h
  · rw [decode_of_noOpcode m hop] at h
    cases h
    exact ⟨op, rfl, (Opcode.ofByte?_eq_none_iff op).mp hop⟩

theorem decode_reservedRegister (m : Nat) {r : Byte} (h : 9 ≤ r.toNat) (bs : List Byte) :
    decode m (Opcode.readReg.byte :: r :: bs) = .refused .register bs := by
  simp [decodeOperands, (Reg.ofByte?_eq_none_iff r).mpr h]

theorem decode_indexBeyondBuf {m : Nat} {hi lo : Byte} (h : m ≤ 256 * hi.toNat + lo.toNat) (bs : List Byte) :
    decode m (Opcode.readBuf.byte :: hi :: lo :: bs) = .refused .index bs := by
  rw [decode_byte, decodeOperands, toNat_append_bytes, if_neg (by omega)]

/-- One illegal record refuses the whole chain, as a record (R97 items 5 and 6). -/
theorem decode_illegalRecord (m : Nat) {recs : List RawRecord} (hn : recs.length ≤ 255)
    (hr : ∀ rec ∈ recs, rec.1.length ≤ 255)
    (h : ∃ rec ∈ recs, (∃ ch ∈ rec.1, ch.toNat < 0x20 ∨ 0x7E < ch.toNat) ∨ rec.2.toNat / 16 % 8 ≠ 0)
    (bs : List Byte) : ∃ why, why.stage = .record ∧
      decode m (Opcode.writeAddressChain.byte :: BitVec.ofNat 8 recs.length ::
        (recs.flatMap Machine.recordBytes ++ bs)) = .refused why bs := by
  obtain ⟨rec, hmem, hillegal⟩ := h
  obtain ⟨_, herror⟩ := addressOfRecord_of_illegal hillegal
  obtain ⟨why, hwhy⟩ := addressesOfRecords_of_error hmem herror
  obtain ⟨rec', -, herror'⟩ := addressesOfRecords_eq_error hwhy
  refine ⟨why, ?_, by rw [decode_byte, decodeOperands_records_of_error m hn hr bs hwhy]⟩
  rcases (addressOfRecord_eq_error_iff rec' why).mp herror' with ⟨rfl, -⟩ | ⟨rfl, -⟩ <;> rfl

/-- Settles O12: each illegal encoding in turn, and back by the opcode of the refused stream (`form_of_refused`). -/
theorem illegalEncodingsAreExactlyTheRefused : Obligations.IllegalEncodingsAreExactlyTheRefused := by
  refine ⟨fun m op bytes h => decode_of_noOpcode m ((Opcode.ofByte?_eq_none_iff op).mpr h) bytes,
    fun m r bytes h => decode_reservedRegister m h bytes, fun m hi lo bytes h => decode_indexBeyondBuf h bytes,
    fun m bytes => rfl, fun m recs bytes hn hr h => decode_illegalRecord m hn hr h bytes, fun m bytes rest why h => ?_⟩
  have hform := form_of_refused h
  cases why <;> exact hform

/-! ## Worked encodings (R103) -/

/-- Settles O13: the decoder is run on each word. -/
theorem writtenOutWordsDecode : Obligations.WrittenOutWordsDecode := by
  unfold Obligations.WrittenOutWordsDecode
  decide

end Sys2Proof
end

section
/-! 30_encoding.md: what a step takes from the host's stream (R80, R95, R96), and the response of every command (R104). -/

namespace Sys2Proof.Machine

/-! ## The host's turn (R80, R95, R96) -/

section

variable {s : State} (hf : s.fault = none) (hl : s.cfg.legal = true)

include hf hl

theorem arrival_of_host {later : List Agent} (ht : s.turns = .host :: later) :
    s.arrival = State.hostTurn { s with turns := later } := by
  simp [State.arrival, hf, hl, ht]

/-- An empty turn list is the host's (log 2). -/
theorem arrival_of_noTurns (ht : s.turns = []) : s.arrival = s.hostTurn := by
  simp [State.arrival, hf, hl, ht]

end

theorem hostTurn_of_cmd {s : State} {i : Instr} {rest : List Byte}
    (h : decode s.cfg.maxFrameBytes s.stream = .cmd i rest) : s.hostTurn = .run i { s with stream := rest } := by
  simp only [State.hostTurn, h]

theorem hostTurn_of_refused {s : State} {why : RefuseReason} {rest : List Byte}
    (h : decode s.cfg.maxFrameBytes s.stream = .refused why rest) :
    s.hostTurn = .pass { s with stream := rest, trace := s.trace ++ [.resp .illegal 0#32] } := by
  simp only [State.hostTurn, h, State.respond, State.emit]

theorem hostTurn_of_incomplete {s : State} (h : decode s.cfg.maxFrameBytes s.stream = .incomplete) :
    s.hostTurn = .pass s := by
  simp only [State.hostTurn, h]

theorem step_of_run {s u : State} {i : Instr} (h : s.arrival = .run i u) : step s = exec i u := by
  simp only [step, h]

theorem step_of_pass {s t : State} (h : s.arrival = .pass t) : step s = .next t := by
  simp only [step, h]

/-- Settles O4: the arrival on either form of the host's turn is the decoded command. -/
theorem stepRunsTheDecodedCommand : Obligations.StepRunsTheDecodedCommand := by
  intro s i rest later hf hl hd
  exact ⟨fun ht => step_of_run ((arrival_of_host hf hl ht).trans (hostTurn_of_cmd hd)),
    fun ht => step_of_run ((arrival_of_noTurns hf hl ht).trans (hostTurn_of_cmd hd))⟩

/-- Settles O6: on either form of the host's turn the step passes, with or without the answer. -/
theorem refusedAndIncompleteBytesChangeNothing : Obligations.RefusedAndIncompleteBytesChangeNothing := by
  intro s hf hl
  refine ⟨fun why rest hd => ⟨fun later ht => ?_, fun ht => ?_⟩, fun hd => ⟨fun later ht => ?_, fun ht => ?_⟩⟩
  · exact step_of_pass ((arrival_of_host hf hl ht).trans (hostTurn_of_refused hd))
  · exact step_of_pass ((arrival_of_noTurns hf hl ht).trans (hostTurn_of_refused hd))
  · exact step_of_pass ((arrival_of_host hf hl ht).trans (hostTurn_of_incomplete hd))
  · exact step_of_pass ((arrival_of_noTurns hf hl ht).trans (hostTurn_of_incomplete hd))

/-! ## Responses (R104) -/

/-- Events alone: no output of the list is a response. -/
def NoResponse (events : List Output) : Prop := ∀ e ∈ events, ∀ c v, e ≠ .resp c v

/-- From `s` to `t` a command has put out its events and then one response, of a code and a value it may answer. -/
def Answered (i : Instr) (s t : State) : Prop :=
  ∃ (events : List Output) (code : RespCode) (value : BitVec 32),
    t.trace = s.trace ++ events ++ [.resp code value] ∧ NoResponse events ∧ code ≠ .illegal ∧
    (i.returnsValue = false → value = 0#32)

/-- A command that puts out its response alone. -/
theorem answered_of_response {i : Instr} {s t : State} {code : RespCode} {value : BitVec 32}
    (h : t.trace = s.trace ++ [.resp code value]) (hc : code ≠ .illegal)
    (hv : i.returnsValue = false → value = 0#32) : Answered i s t :=
  ⟨[], code, value, by rw [h, List.append_nil], by simp [NoResponse], hc, hv⟩

/-- A code of FERR is not ILLEGAL (R126, R250). -/
theorem FErr.code_ne_illegal (e : FErr) : e.code ≠ .illegal := by cases e <;> simp [FErr.code]

theorem reset_answers {s t : State} (h : exec .reset s = .next t) : Answered .reset s t := by
  rw [reset_next h]
  exact ⟨if s.txEn then [.txEnable false] else [], .ok, 0#32, (List.append_assoc ..).symm,
    by cases s.txEn <;> simp [NoResponse], by simp, fun _ => rfl⟩

theorem startTx_answers {s t : State} (h : exec .startTx s = .next t) : t.fault = s.fault ∧ Answered .startTx s t := by
  rcases startTx_cases h with ⟨code, hc, rfl⟩ | ⟨-, -, -, settle, draws, rfl | rfl⟩
  · exact ⟨rfl, answered_of_response rfl hc fun _ => rfl⟩
  · exact ⟨rfl, [.txEnable true, .txEnable false], .configurationTimeout, 0#32, by simp, by simp [NoResponse], by simp,
      fun _ => rfl⟩
  · exact ⟨rfl, [.txEnable true, .keyDelay], .ok, 0#32, by simp, by simp [NoResponse], by simp, fun _ => rfl⟩

/-- A TICK raises no fault and answers nothing (R104, R192). -/
theorem tick_outputs {s t : State} (h : exec .tick s = .next t) :
    t.fault = s.fault ∧ ∃ events, t.trace = s.trace ++ events ∧ NoResponse events := by
  rcases tick_cases h with ⟨-, rfl⟩ | ⟨-, -, -, rfl⟩ | ⟨-, -, -, u, hu, rfl⟩ | ⟨-, -, rfl⟩
  · exact ⟨rfl, [], by simp, by simp [NoResponse]⟩
  · exact ⟨rfl, _, rfl, by simp [NoResponse]⟩
  · obtain ⟨tone, rfl, -⟩ := fetchBit_eq hu
    exact ⟨rfl, _, rfl, by simp [NoResponse]⟩
  · exact ⟨rfl, _, rfl, by simp [NoResponse]⟩

/-- A command raises a fault and does nothing else, or leaves FAULT alone and answers. -/
theorem exec_raises_or_answers {i : Instr} {s t : State} (hi : i ≠ .tick) (h : exec i s = .next t) :
    (∃ reason, t = s.raiseFault reason) ∨ (t.fault = s.fault ∧ Answered i s t) := by
  rcases instr_cases i with hw | hv | rfl | rfl | rfl | rfl | rfl
  · rcases frameWrite_cases hw h with ⟨reason, -, rfl⟩ | ⟨-, hwrote, -⟩
    · exact .inl ⟨reason, rfl⟩
    · exact .inr ⟨by rw [hwrote.only]; rfl, answered_of_response hwrote.trace (FErr.code_ne_illegal _) fun _ => rfl⟩
  · obtain ⟨value, draws, rfl⟩ := read_cases hv h
    exact .inr ⟨rfl, answered_of_response rfl (by simp) fun hn => by simp [hv] at hn⟩
  · exact .inr ⟨(resetValues_of_reset h).2, reset_answers h⟩
  · rcases beginFrame_cases h with ⟨-, rfl⟩ | ⟨-, rfl⟩
    · exact .inl ⟨_, rfl⟩
    · exact .inr ⟨rfl, answered_of_response rfl (by simp) fun _ => rfl⟩
  · exact .inr (startTx_answers h)
  · rw [stopTimer_next h]
    exact .inr ⟨rfl, answered_of_response rfl (by simp) fun _ => rfl⟩
  · exact absurd rfl hi

/-- A step that raises a fault puts out nothing (R255). -/
theorem exec_silent_of_raised {i : Instr} {s t : State} (h : exec i s = .next t) (hf : t.fault ≠ s.fault) :
    t.trace = s.trace := by
  by_cases hi : i = .tick
  · subst hi
    exact absurd (tick_outputs h).1 hf
  · rcases exec_raises_or_answers hi h with ⟨reason, rfl⟩ | ⟨hsame, -⟩
    · simp
    · exact absurd hsame hf

/-- Refused bytes are answered on either form of the host's turn (R96). -/
theorem step_answers_illegal {s : State} {why : RefuseReason} {rest : List Byte} (hf : s.fault = none)
    (hl : s.cfg.legal = true) (ht : s.turns.head? ≠ some .timer)
    (hd : decode s.cfg.maxFrameBytes s.stream = .refused why rest) :
    ∃ t, step s = .next t ∧ t.trace = s.trace ++ [.resp .illegal 0#32] := by
  obtain ⟨hhost, hnone⟩ := (refusedAndIncompleteBytesChangeNothing s hf hl).1 why rest hd
  rcases hturns : s.turns with _ | ⟨_ | _, later⟩
  · exact ⟨_, hnone hturns, rfl⟩
  · exact ⟨_, hhost later hturns, rfl⟩
  · simp [hturns] at ht

/-- The bytes of a word by division (R82, R104). -/
theorem bytesOf32_eq (v : BitVec 32) : bytesOf32 v =
    [BitVec.ofNat 8 (v.toNat / 2 ^ 24), BitVec.ofNat 8 (v.toNat / 2 ^ 16), BitVec.ofNat 8 (v.toNat / 2 ^ 8),
      BitVec.ofNat 8 v.toNat] := by
  simp only [bytesOf32, BitVec.extractLsb', Nat.shiftRight_eq_div_pow, Nat.pow_zero, Nat.div_one]

/-- Settles O49: `exec_raises_or_answers` for the commands, `tick_outputs` for the TICK, `step_answers_illegal` for refused
bytes; the serial form is the definition of `responseBytes`. -/
theorem everyCommandGetsExactlyOneResponse : Obligations.EveryCommandGetsExactlyOneResponse := by
  refine ⟨fun i s t hi _ h hn => ?_, fun i s t h hf => exec_silent_of_raised h hf, fun s t h => (tick_outputs h).2,
    fun s why rest hf hl ht hd => step_answers_illegal hf hl ht hd, fun code value => ?_⟩
  · rcases exec_raises_or_answers hi h with ⟨reason, rfl⟩ | ⟨-, hanswered⟩
    · exact absurd hn (s.raiseFault_fault_ne_none reason)
    · exact hanswered
  · rw [responseBytes, bytesOf32_eq]
    cases code <;> rfl

end Sys2Proof.Machine
end

section
/-! 30_encoding.md R102: the frame of the six commands of BUILD_UI_FRAME, with the residue of its FCS (R150). -/

namespace Sys2Proof.Machine

/-! ## The FCS residue (R150) -/

/-- The FCS is emitted as the complement of CRC, its low bit first (R68, R146). -/
theorem bytesBits_fcsBytes (c : BitVec 16) : bytesBits (fcsBytes c) = (List.range 16).map fun i => c.getLsbD i ^^ true := by
  simp [bytesBits, fcsBytes, byteBits]
  rfl

/-- The register takes its own bits out of itself; what is left is the CRC of sixteen ones from 0 (R150). -/
theorem foldl_crcStep_fcs (c : BitVec 16) : (bytesBits (fcsBytes c)).foldl crcStep c = 0xF0B8#16 := by
  have hxor := foldl_crcStep_xor ((List.range 16).map fun i => (c.getLsbD i, true)) c 0#16
  simp only [List.map_map, Function.comp_def, BitVec.xor_zero, foldl_crcStep_own] at hxor
  have hown : c >>> 16 = 0#16 := BitVec.ushiftRight_eq_zero (Nat.le_refl 16)
  calc (bytesBits (fcsBytes c)).foldl crcStep c
      = c >>> 16 ^^^ ((List.range 16).map fun _ => true).foldl crcStep 0#16 := by rw [bytesBits_fcsBytes, hxor]
    _ = ((List.range 16).map fun _ => true).foldl crcStep 0#16 := by rw [hown, BitVec.zero_xor]
    _ = 0xF0B8#16 := by decide +kernel

/-! ## A frame under construction -/

theorem bytesBits_append (bytes more : List Byte) : bytesBits (bytes ++ more) = bytesBits bytes ++ bytesBits more :=
  List.flatMap_append

/-- Content that fits, stuffed, fits without its end. -/
theorem length_stuffFrom_le_append (n : Nat) (bits more : List Bool) :
    (stuffFrom n bits).length ≤ (stuffFrom n (bits ++ more)).length := by
  rw [stuffFrom_append, List.length_append]
  exact Nat.le_add_right _ _

/-- Emission that fits appends all its bits, and FERR stays NONE. -/
theorem Emitted.of_fit {s t : State} {bits : List Bool} (h : Emitted s t bits)
    (hfit : (s.frameBits ++ bits).length ≤ s.cfg.capBits) : t.ferr = .none ∧ t.frameBits = s.frameBits ++ bits := by
  refine ⟨h.ferr_none_iff.mpr ?_, by rw [h.frame, List.take_of_length_le hfit]⟩
  rwa [List.length_append, State.length_frameBits] at hfit

/-- `k` commands from `s` on, each answered OK, have brought the frame in `t` to `n` flags and then `content`, stuffed. -/
structure BuildsUi (s t : State) (n : Nat) (content : List Bool) (k : Nat) : Prop where
  building : t.Building
  sstate : t.sstate ≠ .transmitting
  cfg : t.cfg = s.cfg
  ferr : t.ferr = .none
  frame : t.frameBits = flagsBits n ++ stuffFrom 0 content
  crc : t.crc = content.foldl crcStep 0xFFFF#16
  ones : t.ones.toNat = onesAfter 0 content
  trace : t.trace = s.trace ++ List.replicate k (.resp .ok 0#32)

theorem State.Building.respondFerr {s : State} (h : s.Building) : s.respondFerr.Building :=
  { h with mem := h.mem.congr rfl rfl }

/-- `BEGIN_FRAME` without a session (R140). -/
theorem exec_beginFrame {s : State} (hs : s.sstate ≠ .transmitting) : exec .beginFrame s = .next
    { s with
      crc := crcSeed, ones := 0#3, bitlen := 0#20, outb := 0#8, ferr := .none, fstate := .opened
      trace := s.trace ++ [.resp .ok 0#32] } := by
  rw [exec, execBeginFrame, State.raceGuard_of_idle hs]
  rfl

section

variable {s : State} (hg : s.writeGuard = none)

include hg

theorem exec_writeFlags (n : Byte) : exec (.writeFlags n) s = .next (s.emitFlags n.toNat).respondFerr := by
  simp only [exec, execWriteFlags, hg]

theorem exec_writeControlAndPid :
    exec .writeControlAndPid s = .next (s.emitBytes [0x03#8, 0xF0#8] true).respondFerr := by
  simp only [exec, execWriteControlAndPid, hg]

theorem exec_writePayload (bytes : List Byte) :
    exec (.writePayload bytes) s = .next (s.emitBytes bytes true).respondFerr := by
  simp only [exec, execWritePayload, hg]

/-- A lawful chain, no error standing (R142). -/
theorem exec_writeAddressChain {chain : List Address} (hn : s.ferr = .none) (hc : chain ≠ [])
    (hlast : lastFlagsOk chain = true) :
    exec (.writeAddressChain chain) s = .next (s.emitBytes (chainBytes chain) true).respondFerr := by
  simp [exec, execWriteAddressChain, hg, hn, hc, hlast]

end

theorem beginFrame_builds {s : State} (h : s.Inv) (hs : s.sstate ≠ .transmitting) :
    ∃ t, exec .beginFrame s = .next t ∧ BuildsUi s t 0 [] 1 := by
  refine ⟨_, exec_beginFrame hs, ?_⟩
  exact
    { building := ⟨h.legal, h.mem.congr rfl rfl, rfl, Nat.zero_le _, Nat.zero_le _, rfl⟩
      sstate := hs, cfg := rfl, ferr := rfl, frame := rfl, crc := rfl, ones := rfl, trace := rfl }

/-- The final flush changes no frame bit (R147). -/
theorem finalize_frameBits {t : State} (h : t.Building) : t.finalize.frameBits = t.frameBits := by
  obtain ⟨u, -, hform, -, hbits, -⟩ := finalFlush_spec h
  rw [← hbits, hform]
  rfl

namespace BuildsUi

variable {s t : State} {n k : Nat} {content : List Bool}

theorem writeGuard (h : BuildsUi s t n content k) : t.writeGuard = none :=
  State.writeGuard_of_opened h.sstate h.building.opened

/-- One more command without an error is one more OK. -/
theorem trace_respondFerr {u : State} (h : BuildsUi s t n content k) (hu : u.trace = t.trace) (hn : u.ferr = .none) :
    u.respondFerr.trace = s.trace ++ List.replicate (k + 1) (.resp .ok 0#32) := by
  rw [State.respondFerr_trace, hn, hu, h.trace, List.append_assoc, List.replicate_succ']
  rfl

/-- The lead-in flags (R141). -/
theorem writeFlags {m : Byte} (h : BuildsUi s t 0 [] k) (hm : m ≠ 0#8) (hfit : 8 * m.toNat ≤ s.cfg.capBits) :
    ∃ u, exec (.writeFlags m) t = .next u ∧ BuildsUi s u m.toNat [] (k + 1) := by
  have hm0 : m.toNat ≠ 0 := fun h0 => hm (BitVec.eq_of_toNat_eq h0)
  have hempty : t.bitlen.toNat = 0 := by rw [← State.length_frameBits, h.frame]; rfl
  obtain ⟨he, hcrc, hones⟩ := emitFlags_emitted h.building h.ferr m.toNat
  obtain ⟨hferr, hframe⟩ := he.of_fit (by simpa [h.cfg, hempty] using hfit)
  refine ⟨_, exec_writeFlags h.writeGuard m, ?_⟩
  exact
    { building := he.building.respondFerr
      sstate := by rw [he.only]; exact h.sstate
      cfg := he.cfg.trans h.cfg
      ferr := hferr
      frame := by rw [State.frameBits_respondFerr, hframe, h.frame]; simp [flagsBits, stuffFrom]
      crc := hcrc.trans h.crc
      ones := by
        rw [State.respondFerr_ones, hones hm0, if_pos (by rw [hempty, h.cfg]; omega)]
        rfl
      trace := h.trace_respondFerr (by rw [he.only]) hferr }

/-- More content (R123, R124). -/
theorem emitBytes (h : BuildsUi s t n content k) (bytes : List Byte)
    (hfit : 8 * n + (stuffFrom 0 (content ++ bytesBits bytes)).length ≤ s.cfg.capBits) :
    BuildsUi s (t.emitBytes bytes true).respondFerr n (content ++ bytesBits bytes) (k + 1) := by
  obtain ⟨he, hcrc, hones⟩ := emitBytes_content h.building h.ferr bytes
  have hgrown : t.frameBits ++ stuffFrom t.ones.toNat (bytesBits bytes) =
      flagsBits n ++ stuffFrom 0 (content ++ bytesBits bytes) := by
    rw [h.frame, h.ones, stuffFrom_append, List.append_assoc]
  obtain ⟨hferr, hframe⟩ := he.of_fit (by rw [hgrown, h.cfg, List.length_append, length_flagsBits]; exact hfit)
  have hall := he.fitting_eq hferr
  exact
    { building := he.building.respondFerr
      sstate := by rw [he.only]; exact h.sstate
      cfg := he.cfg.trans h.cfg
      ferr := hferr
      frame := hframe.trans hgrown
      crc := by rw [State.respondFerr_crc, hcrc, hall, h.crc, List.foldl_append]
      ones := by rw [State.respondFerr_ones, hones, hall, h.ones, onesAfter_append]
      trace := h.trace_respondFerr (by rw [he.only]) hferr }

/-- The address chain (R142). -/
theorem writeAddressChain {chain : List Address} (h : BuildsUi s t n content k) (hc : chain ≠ [])
    (hlast : lastFlagsOk chain = true)
    (hfit : 8 * n + (stuffFrom 0 (content ++ bytesBits (chainBytes chain))).length ≤ s.cfg.capBits) :
    ∃ u, exec (.writeAddressChain chain) t = .next u ∧
      BuildsUi s u n (content ++ bytesBits (chainBytes chain)) (k + 1) :=
  ⟨_, exec_writeAddressChain h.writeGuard h.ferr hc hlast, h.emitBytes _ hfit⟩

/-- Control and PID (R144). -/
theorem writeControlAndPid (h : BuildsUi s t n content k)
    (hfit : 8 * n + (stuffFrom 0 (content ++ bytesBits [0x03#8, 0xF0#8])).length ≤ s.cfg.capBits) :
    ∃ u, exec .writeControlAndPid t = .next u ∧ BuildsUi s u n (content ++ bytesBits [0x03#8, 0xF0#8]) (k + 1) :=
  ⟨_, exec_writeControlAndPid h.writeGuard, h.emitBytes _ hfit⟩

/-- The payload (R145). -/
theorem writePayload (h : BuildsUi s t n content k) (payload : List Byte)
    (hfit : 8 * n + (stuffFrom 0 (content ++ bytesBits payload)).length ≤ s.cfg.capBits) :
    ∃ u, exec (.writePayload payload) t = .next u ∧ BuildsUi s u n (content ++ bytesBits payload) (k + 1) :=
  ⟨_, exec_writePayload h.writeGuard payload, h.emitBytes _ hfit⟩

/-- The FCS of the content and the trailer end the frame (R146, R147). -/
theorem writeFcsAndTrailer (h : BuildsUi s t n content k)
    (hfit : (flagsBits n ++ stuffFrom 0 (content ++ bytesBits (fcsBytes (content.foldl crcStep 0xFFFF#16))) ++
      flagsBits s.cfg.flagCount).length ≤ s.cfg.capBits) :
    ∃ u, exec .writeFcsAndTrailer t = .next u ∧
      u.frameBits = flagsBits n ++ stuffFrom 0 (content ++ bytesBits (fcsBytes (content.foldl crcStep 0xFFFF#16))) ++
        flagsBits s.cfg.flagCount ∧
      u.ferr = .none ∧ u.fstate = .finalized ∧ u.crc = 0xF0B8#16 ∧
      u.trace = s.trace ++ List.replicate (k + 1) (.resp .ok 0#32) := by
  obtain ⟨he, hcrc, -⟩ : Emitted t t.emitFcsAndFlags t.fcsAndTrailerBits ∧
      t.emitFcsAndFlags.crc = (t.fitting (bytesBits (fcsBytes t.crc))).foldl crcStep t.crc ∧ _ :=
    emitFcsAndTrailer h.building h.ferr
  have hgrown : t.frameBits ++ t.fcsAndTrailerBits =
      flagsBits n ++ stuffFrom 0 (content ++ bytesBits (fcsBytes (content.foldl crcStep 0xFFFF#16))) ++
        flagsBits s.cfg.flagCount := by
    simp only [State.fcsAndTrailerBits, State.fcsBits, h.frame, h.ones, h.crc, h.cfg, stuffFrom_append,
      List.append_assoc]
  obtain ⟨hferr, hframe⟩ := he.of_fit (by rw [hgrown, h.cfg]; exact hfit)
  obtain ⟨hall, -⟩ := he.fcs_fits hferr h.building.legal
  refine ⟨_, exec_writeFcsAndTrailer h.writeGuard h.building, ?_, hferr, rfl, ?_, ?_⟩
  · rw [State.frameBits_respondFerr, finalize_frameBits he.building]
    exact hframe.trans hgrown
  · rw [hall, foldl_crcStep_fcs] at hcrc
    exact hcrc
  · have hsilent : t.emitFcsAndFlags.trace = t.trace := by rw [he.only]
    exact h.trace_respondFerr (u := t.emitFcsAndFlags.finalize) hsilent hferr

end BuildsUi

/-- Settles O33: the frame is followed over the six commands (`BuildsUi`); what fits at the end fits before it. -/
theorem uiFrameIsFlagsStuffedContentFlags : Obligations.UiFrameIsFlagsStuffedContentFlags := by
  intro s n chain payload h hs hn hc hlast content fcs bits hfit
  have hcontent : content = bytesBits (chainBytes chain) ++ bytesBits [0x03#8, 0xF0#8] ++ bytesBits payload := by
    simp only [content, bytesBits_append]
  have hroom : 8 * n.toNat + (stuffFrom 0 content).length ≤ s.cfg.capBits := by
    have := length_stuffFrom_le_append 0 content fcs
    simp only [bits, List.length_append, length_flagsBits] at hfit
    omega
  rw [hcontent] at hroom
  have hroom2 := length_stuffFrom_le_append 0 (bytesBits (chainBytes chain) ++ bytesBits [0x03#8, 0xF0#8])
    (bytesBits payload)
  have hroom1 := length_stuffFrom_le_append 0 (bytesBits (chainBytes chain)) (bytesBits [0x03#8, 0xF0#8])
  obtain ⟨s1, e1, b1⟩ := beginFrame_builds h hs
  obtain ⟨s2, e2, b2⟩ := b1.writeFlags hn (by omega)
  obtain ⟨s3, e3, b3⟩ := b2.writeAddressChain hc hlast (by rw [List.nil_append]; omega)
  obtain ⟨s4, e4, b4⟩ := b3.writeControlAndPid (by rw [List.nil_append]; omega)
  obtain ⟨s5, e5, b5⟩ := b4.writePayload payload (by rw [List.nil_append]; exact hroom)
  rw [List.nil_append, ← hcontent] at b5
  obtain ⟨t, e6, hbits, hferr, hfinal, hcrc, htrace⟩ := b5.writeFcsAndTrailer hfit
  exact ⟨t, by simp only [execAll, e1, e2, e3, e4, e5, e6], hbits, hferr, hfinal, hcrc, htrace⟩

end Sys2Proof.Machine
end

section
/-! 40_frame_builder.md: the guards and the response (R126, R127), `crc_step` and `emit_bit` as their rules give them
(R120, R122), what each command appends to the frame (R140 to R147), and the laws of stuffing over a command (R151). -/

namespace Sys2Proof.Machine

/-! ## A write command past its guards (R126, R127) -/

theorem State.Writable.writeGuard {s : State} (h : s.Writable) : s.writeGuard = none :=
  State.writeGuard_of_opened h.sstate h.fstate

/-- Past its guards a write command raises no fault: it writes. -/
theorem wrote_of_frameWrite {i : Instr} {s t : State} (hi : i.isFrameWrite = true) (hg : s.writeGuard = none)
    (he : exec i s = .next t) :
    Wrote s t ∧ t.fstate = if i = .writeFcsAndTrailer then .finalized else s.fstate := by
  rcases frameWrite_cases hi he with ⟨reason, hr, -⟩ | ⟨-, hwrote⟩
  · rw [hg] at hr
    cases hr
  · exact hwrote

/-- In an open lawful frame a write command completes. -/
theorem frameWrite_completes {i : Instr} {s : State} (hi : i.isFrameWrite = true) (hg : s.writeGuard = none)
    (h : s.Building) : ∃ t, exec i s = .next t := by
  by_cases hf : i = .writeFcsAndTrailer
  · subst hf
    exact ⟨_, exec_writeFcsAndTrailer hg h⟩
  · obtain ⟨e, bytes, subject, hall⟩ := frameWrite_emits hi hf hg
    exact ⟨_, hall s.buf⟩

/-- What a write command leaves is told by its registers, BUF and the response. -/
theorem Wrote.eq_withFrameOf {s t : State} (h : Wrote s t) {f : FState} (hf : t.fstate = f) :
    t = { s.withFrameOf t with fstate := f, trace := s.trace ++ [.resp t.ferr.code 0#32] } := by
  rw [← hf, ← h.trace]
  exact h.only

/-- A write command but `WRITE_FCS_AND_TRAILER` leaves the frame open. -/
theorem State.Writable.opened_after {i : Instr} {s t : State} (h : s.Writable) (hi : i.isFrameWrite = true)
    (hf : i ≠ .writeFcsAndTrailer) (he : exec i s = .next t) :
    t = { s.withFrameOf t with fstate := .opened, trace := s.trace ++ [.resp t.ferr.code 0#32] } := by
  obtain ⟨hwrote, hfstate⟩ := wrote_of_frameWrite hi h.writeGuard he
  rw [if_neg hf, h.fstate] at hfstate
  exact hwrote.eq_withFrameOf hfstate

theorem exec_beginFrame_of_session {s : State} (hs : s.sstate = .transmitting) :
    exec .beginFrame s = .next (s.raiseFault .bufferRace) := by
  rw [exec, execBeginFrame, State.raceGuard_of_session hs]

/-- Settles O8: `BEGIN_FRAME` has the race guard alone; a write command is stopped by the guard that applies first
(`exec_of_writeGuard`) or completes, and then answers its FERR (`Wrote`). -/
theorem guardsThenCodeOfFerr : Obligations.GuardsThenCodeOfFerr := by
  intro i s h hf hi
  simp only [Instr.isFrameCommand, Bool.or_eq_true, beq_iff_eq] at hi
  rcases hi with rfl | hi
  · refine ⟨fun hs => ?_, fun _ hw => by simp [Instr.isFrameWrite] at hw, fun hs _ => ?_⟩
    · rw [exec_beginFrame_of_session hs, State.raiseFault_of_none _ hf]
    · exact ⟨_, exec_beginFrame hs, hf, rfl⟩
  · refine ⟨fun hs => ?_, fun hs _ ho => ?_, fun hs ho => ?_⟩
    · rw [exec_of_writeGuard hi (State.writeGuard_of_session hs), State.raiseFault_of_none _ hf]
    · rw [exec_of_writeGuard hi (State.writeGuard_of_notOpened hs ho), State.raiseFault_of_none _ hf]
    · have hg := State.writeGuard_of_opened hs (ho hi)
      obtain ⟨t, he⟩ := frameWrite_completes hi hg (h.building (ho hi))
      obtain ⟨hwrote, -⟩ := wrote_of_frameWrite hi hg he
      exact ⟨t, he, by rw [hwrote.only]; exact hf, hwrote.trace⟩

/-- Settles O18: both outcomes of the race guard, the only one `BEGIN_FRAME` has. -/
theorem beginFrameStartsANewFrame : Obligations.BeginFrameStartsANewFrame := fun s =>
  ⟨exec_beginFrame, fun hs hf => by rw [exec_beginFrame_of_session hs, State.raiseFault_of_none _ hf]⟩

/-! ## `crc_step` and `emit_bit` (R120, R122) -/

/-- Settles O19: the last bit of a number is its remainder by 2, and a shift by one its quotient. -/
theorem crcStepFollowsItsRule : Obligations.CrcStepFollowsItsRule := by
  intro c b
  have hbit : (c.getLsbD 0 ^^ b) = true ↔ ¬ c.toNat % 2 = b.toNat := by
    rw [BitVec.getLsbD, Nat.testBit_zero]
    cases b <;> simp
  have hshift : (c >>> 1).toNat = c.toNat / 2 := by rw [BitVec.toNat_ushiftRight, Nat.shiftRight_eq_div_pow, pow_one]
  by_cases h : c.toNat % 2 = b.toNat
  · rw [crcStep, if_neg (by rw [hbit]; exact not_not.mpr h), if_pos h, hshift]
  · rw [crcStep, if_pos (hbit.mpr h), if_neg h, BitVec.toNat_xor, hshift]
    rfl

/-- The masks of step 2 of `emit_bit`, on numbers. -/
theorem bitMask_eq : ∀ i < 8, 0x80#8 >>> i = BitVec.ofNat 8 (2 ^ (7 - i)) ∧
    ~~~(0x80#8 >>> i) = BitVec.ofNat 8 (255 - 2 ^ (7 - i)) := by decide

/-- Step 2 of `emit_bit`, on numbers: the bit is cleared, then set to `v`. -/
theorem setMsb_eq_ofNat (b : Byte) (v : Bool) {i : Nat} (hi : i < 8) :
    setMsb b i v = BitVec.ofNat 8 (b.toNat &&& (255 - 2 ^ (7 - i)) ||| v.toNat * 2 ^ (7 - i)) := by
  obtain ⟨hset, hclear⟩ := bitMask_eq i hi
  rw [BitVec.ofNat_or, BitVec.ofNat_and, BitVec.ofNat_toNat, BitVec.setWidth_eq, ← hclear]
  cases v
  · simp [setMsb]
  · rw [Bool.toNat_true, Nat.one_mul, ← hset, setMsb, if_pos rfl]
    ext k hk
    simp only [BitVec.getElem_or, BitVec.getElem_and, BitVec.getElem_not]
    cases b[k] <;> simp

/-- Step 2 of `emit_bit` as R120 writes it, on numbers. -/
def State.packByRule (a : State) (v : Bool) : State :=
  let b := { a with
    outb := BitVec.ofNat 8 (a.outb.toNat &&& (255 - 2 ^ (7 - a.bitlen.toNat % 8)) |||
      v.toNat * 2 ^ (7 - a.bitlen.toNat % 8)) }
  let c := { b with bitlen := b.bitlen + 1#20 }
  if c.bitlen.toNat % 8 = 0 then { c with buf := c.buf.write (c.bitlen.toNat / 8 - 1) c.outb, outb := 0#8 } else c

theorem State.pack_eq_packByRule (a : State) (v : Bool) : a.pack v = a.packByRule v := by
  rw [State.pack, setMsb_eq_ofNat _ _ (Nat.mod_lt _ (by omega))]
  rfl

/-- Settles O20: packing is step 2 (`State.pack_eq_packByRule`), and the recursive call is that of a plain bit. -/
theorem emitBitFollowsThePseudocode : Obligations.EmitBitFollowsThePseudocode := by
  intro s v subject hlen
  have hfull : s.full = true ↔ s.bitlen.toNat = s.cfg.capBits := by
    rw [s.full_iff]
    omega
  cases subject
  · rw [State.emitBit, if_neg (by simp), State.emitPlain_eq, State.pack_eq_packByRule]
    simp only [hfull]
    cases v <;> rfl
  · rw [State.emitBit, if_pos rfl, State.emitContent_eq, State.pack_eq_packByRule]
    simp only [hfull]
    cases v <;> rfl

/-! ## What the commands append (R141 to R146) -/

/-- What emission has appended, the response appends no more. -/
theorem Emitted.appendsBits {s t : State} {bits : List Bool} (h : Emitted s t bits) :
    AppendsBits s t.respondFerr bits := ⟨h.frame, h.ferr⟩

/-- Settles O21: the flags are emitted unstuffed (`emitFlags_emitted`). -/
theorem writeFlagsAppendsFlagOctets : Obligations.WriteFlagsAppendsFlagOctets := by
  intro s n h hw hn
  have hn0 : n.toNat ≠ 0 := fun h0 => hn (BitVec.eq_of_toNat_eq h0)
  obtain ⟨hem, hcrc, hones⟩ := emitFlags_emitted (h.building hw.fstate) hw.ferr n.toNat
  have he := exec_writeFlags hw.writeGuard n
  refine ⟨_, he, hem.appendsBits, hcrc, hones hn0, fun hferr => ?_, hw.opened_after rfl (by simp) he⟩
  have hfit := hem.ferr_none_iff.mp hferr
  rw [length_flagsBits] at hfit
  exact (hones hn0).trans (if_pos (by omega))

/-- Bytes emitted as content and answered (R123, R124, R126). -/
theorem emitBytes_appendsContent {s : State} (h : s.Inv) (hw : s.Writable) (bytes : List Byte) :
    AppendsContent s (s.emitBytes bytes true).respondFerr (bytesBits bytes) := by
  obtain ⟨hem, hcrc, hones⟩ := emitBytes_content (h.building hw.fstate) hw.ferr bytes
  exact ⟨hem.appendsBits, hcrc, hones, hem.fitting_eq⟩

/-- Settles O25: the payload is emitted as content (`emitBytes_appendsContent`). -/
theorem writePayloadAppendsTheBytes : Obligations.WritePayloadAppendsTheBytes := by
  intro s bytes h hw
  have he := exec_writePayload hw.writeGuard bytes
  exact ⟨_, he, emitBytes_appendsContent h hw bytes, hw.opened_after rfl (by simp) he⟩

/-- Control and PID end in four ones after a 0, so four are counted whatever came before. -/
theorem onesAfter_controlAndPid : ∀ n ≤ 4, onesAfter n (bytesBits [0x03#8, 0xF0#8]) = 4 := by decide

/-- Settles O24: the two bytes are emitted as content (`emitBytes_appendsContent`). -/
theorem writeControlAndPidAppendsTheTwoBytes : Obligations.WriteControlAndPidAppendsTheTwoBytes := by
  intro s h hw
  have happ := emitBytes_appendsContent h hw [0x03#8, 0xF0#8]
  have he := exec_writeControlAndPid hw.writeGuard
  refine ⟨_, he, happ, fun hferr => BitVec.eq_of_toNat_eq ?_, hw.opened_after rfl (by simp) he⟩
  rw [happ.ones, happ.whole hferr]
  exact onesAfter_controlAndPid _ h.frame.ones

/-! ### The address chain (R142, R143) -/

/-- R142's condition on a chain: its `last` flags mark exactly its final address. -/
def MarksFinal (chain : List Address) : Prop :=
  ∀ (i : Nat) (a : Address), chain[i]? = some a → (a.last = true ↔ i + 1 = chain.length)

theorem lastFlagsOk_iff (chain : List Address) : lastFlagsOk chain = true ↔ MarksFinal chain := by
  induction chain with
  | nil => simp [lastFlagsOk, MarksFinal]
  | cons a rest ih =>
    cases rest with
    | nil =>
      constructor
      · intro ha i b hb
        obtain ⟨rfl, rfl⟩ : i = 0 ∧ a = b := by cases i <;> simp_all
        exact ⟨fun _ => rfl, fun _ => ha⟩
      · exact fun h => (h 0 a rfl).mpr rfl
    | cons b rest =>
      rw [lastFlagsOk, Bool.and_eq_true, ih]
      constructor
      · rintro ⟨ha, hrest⟩ i c hc
        cases i with
        | zero => cases hc; simpa using ha
        | succ i => simpa using hrest i c hc
      · intro h
        exact ⟨by simpa using h 0 a rfl, fun i c hc => by simpa using h (i + 1) c hc⟩

theorem callsignByte_eq_ofNat (ch : Byte) : callsignByte ch = BitVec.ofNat 8 (2 * ch.toNat) := by
  apply BitVec.eq_of_toNat_eq
  rw [callsignByte, BitVec.toNat_shiftLeft, BitVec.toNat_ofNat, Nat.shiftLeft_eq, pow_one, Nat.mul_comm]

theorem ssidByte_eq_ofNat : ∀ (ssid : BitVec 4) (final : Bool),
    ssidByte ssid final = BitVec.ofNat 8 (2 * (0x30 + ssid.toNat) + if final = true then 1 else 0) := by decide

/-- The six characters by their places. -/
theorem callsignChars_eq (cs : List Byte) : callsignChars cs = (List.range 6).map fun j => cs.getD j 0x20#8 := by
  refine List.ext_getElem (by simp [callsignChars]) fun j hj _ => ?_
  have hj6 : j < 6 := by simpa [callsignChars] using hj
  simp only [callsignChars, spaceChar, List.getElem_take, List.getElem_append, List.getElem_replicate, List.getElem_map,
    List.getElem_range]
  by_cases h : j < cs.length
  · rw [dif_pos h, List.getD_eq_getElem _ _ h]
  · rw [dif_neg h, List.getD_eq_default _ _ (by omega)]

/-- The bytes of an address as R142 and R143 give them. -/
theorem addressBytes_eq (a : Address) (final : Bool) : addressBytes a final =
    ((List.range 6).map fun j => BitVec.ofNat 8 (2 * (a.callsign.getD j 0x20#8).toNat)) ++
      [BitVec.ofNat 8 (2 * (0x30 + a.ssid.toNat) + if final = true then 1 else 0)] := by
  rw [addressBytes, callsignChars_eq, List.map_map, ssidByte_eq_ofNat]
  simp only [Function.comp_def, callsignByte_eq_ofNat]

/-- The bytes of a chain by the places of its addresses. -/
theorem chainBytes_eq (chain : List Address) : chainBytes chain =
    (List.range chain.length).flatMap fun i =>
      addressBytes (chain.getD i ⟨[], 0#4, false⟩) (decide (i + 1 = chain.length)) := by
  induction chain with
  | nil => rfl
  | cons a rest ih =>
    cases rest with
    | nil => simp [chainBytes]
    | cons b rest =>
      rw [chainBytes, ih, List.length_cons (a := a), List.range_succ_eq_map, List.flatMap_cons, List.flatMap_map]
      simp

/-- Settles O22: a chain that marks its final address is emitted (`lastFlagsOk_iff`), and its bytes are those of R142
and R143 (`chainBytes_eq`, `addressBytes_eq`). -/
theorem writeAddressChainAppendsTheAddresses : Obligations.WriteAddressChainAppendsTheAddresses := by
  intro s chain h hw hc hmarks
  have he := exec_writeAddressChain hw.writeGuard hw.ferr hc ((lastFlagsOk_iff chain).mpr hmarks)
  refine ⟨_, he, ?_, hw.opened_after rfl (by simp) he⟩
  have happ := emitBytes_appendsContent h hw (chainBytes chain)
  simp only [chainBytes_eq, addressBytes_eq, decide_eq_true_eq] at happ ⊢
  exact happ

/-- A chain that is empty or does not mark its final address (R142). -/
theorem exec_writeAddressChain_of_bad {s : State} {chain : List Address} (hw : s.Writable)
    (hbad : chain = [] ∨ ¬ lastFlagsOk chain = true) : exec (.writeAddressChain chain) s =
      .next { s with ferr := .invalidChain, trace := s.trace ++ [.resp .invalidAddressChain 0#32] } := by
  simp only [exec, execWriteAddressChain, hw.writeGuard, hw.ferr]
  rcases hbad with rfl | hn
  · rfl
  · simp [hn, State.respond, State.emit]

/-- Settles O23: the chain is answered before any emission (`exec_writeAddressChain_of_bad`). -/
theorem badAddressChainEmitsNothing : Obligations.BadAddressChainEmitsNothing := by
  intro s chain hw hbad
  refine exec_writeAddressChain_of_bad hw (hbad.imp_right ?_)
  rintro ⟨i, a, ha, hn⟩ hok
  exact hn ((lastFlagsOk_iff chain).mp hok i a ha)

/-! ### FCS and trailer (R146, R147) -/

/-- The FCS on numbers. -/
theorem fcsBytes_eq_ofNat (crc : BitVec 16) :
    fcsBytes crc = [BitVec.ofNat 8 (65535 - crc.toNat), BitVec.ofNat 8 ((65535 - crc.toNat) / 256)] := by
  have hnot : (~~~crc).toNat = 65535 - crc.toNat := BitVec.toNat_not
  simp only [fcsBytes, BitVec.extractLsb', hnot, Nat.shiftRight_eq_div_pow, pow_zero, Nat.div_one, Nat.reducePow]

/-- The partial last byte of a final frame is the output byte of the open one (R62, R147). -/
theorem finalize_read_partial {t : State} (h : t.Building) (hp : t.bitlen.toNat % 8 ≠ 0) :
    t.finalize.buf.read (t.bitlen.toNat / 8) = t.outb := by
  obtain ⟨u, -, hform, -, -, hread, -⟩ := finalFlush_spec h
  rw [← hread hp, hform]
  rfl

/-- Settles O26: FCS and flags are emitted (`emitFcsAndTrailer`), and the flush moves the output byte to BUF
(`finalize_frameBits`, `finalize_read_partial`). -/
theorem writeFcsAndTrailerCompletesTheFrame : Obligations.WriteFcsAndTrailerCompletesTheFrame := by
  intro s h hw fcs
  have hfcs : fcs = bytesBits (fcsBytes s.crc) := by rw [fcsBytes_eq_ofNat]
  have hB := h.building hw.fstate
  obtain ⟨hem, hcrc, hones⟩ : Emitted s s.emitFcsAndFlags s.fcsAndTrailerBits ∧
      s.emitFcsAndFlags.crc = _ ∧ s.emitFcsAndFlags.ones.toNat = _ := emitFcsAndTrailer hB hw.ferr
  have he := exec_writeFcsAndTrailer hw.writeGuard hB
  obtain ⟨hwrote, hfinal⟩ := wrote_of_frameWrite rfl hw.writeGuard he
  rw [hfcs]
  refine ⟨_, he, ⟨(finalize_frameBits hem.building).trans hem.frame, hem.ferr⟩, hcrc, hones, fun hferr => ?_, rfl,
    fun hp => ?_, hwrote.eq_withFrameOf (hfinal.trans (if_pos rfl))⟩
  · obtain ⟨hall, hroom⟩ := hem.fcs_fits hferr h.legal
    exact ⟨hall, BitVec.eq_of_toNat_eq (hones.trans (if_pos hroom))⟩
  · refine Eq.trans ?_ hem.building.pad
    exact congrArg (·.toNat % _) (finalize_read_partial hem.building hp)

/-! ## Frames with an error (R120, R126, R146) -/

theorem State.emitFcsAndFlags_of_error {s : State} (h : s.ferr ≠ .none) : s.emitFcsAndFlags = s := by
  rw [State.emitFcsAndFlags, State.emitBytes_of_error h, State.emitFlags_of_error h]

/-- Settles O27: nothing is emitted, and the flush and the response remain. -/
theorem failedFrameIsFinalizedWithoutEmission : Obligations.FailedFrameIsFinalizedWithoutEmission := by
  intro s h hs ho hn
  rw [exec_writeFcsAndTrailer (State.writeGuard_of_opened hs ho) (h.building ho), State.emitFcsAndFlags_of_error hn]
  rfl

/-- Settles O28: for each write command the error stops every emission, and the response is left. -/
theorem writeAfterAnErrorReturnsItAgain : Obligations.WriteAfterAnErrorReturnsItAgain := by
  intro i s hi hf hs ho hn
  have hg := State.writeGuard_of_opened hs ho
  have hresponse : exec i s = .next s.respondFerr := by
    cases i <;> simp only [Instr.isFrameWrite, Bool.false_eq_true] at hi
    case writeFlags n => rw [exec_writeFlags hg, State.emitFlags_of_error hn]
    case writeAddressChain chain => simp only [exec, execWriteAddressChain, hg, if_pos hn]
    case writeControlAndPid => rw [exec_writeControlAndPid hg, State.emitBytes_of_error hn]
    case writePayload bytes => rw [exec_writePayload hg, State.emitBytes_of_error hn]
    case writeFcsAndTrailer => exact absurd rfl hf
  exact hresponse

/-! ## The bytes of BUF a command may write (R153) -/

/-- From `s` to `t` no byte of BUF has changed but those from the one BITLEN pointed into up to byte `stop`. -/
def State.KeepsBufOutside (s t : State) (stop : Nat) : Prop :=
  ∀ idx, idx < s.bitlen.toNat / 8 ∨ stop ≤ idx → t.buf.read idx = s.buf.read idx

/-- Emission writes the bytes it completes; after an error it writes none. -/
theorem emitBytes_keepsBuf {s : State} (h : s.Building) (bytes : List Byte) (subject : Bool) :
    s.KeepsBufOutside (s.emitBytes bytes subject) ((s.emitBytes bytes subject).bitlen.toNat / 8) := by
  by_cases hn : s.ferr = .none
  · exact (emitBytes_emitted h hn bytes subject).window
  · rw [State.emitBytes_of_error hn]
    exact fun _ _ => rfl

/-- `WRITE_FCS_AND_TRAILER` writes the partial byte too. -/
theorem finalize_keepsBuf {s : State} (h : s.Building) :
    s.KeepsBufOutside s.emitFcsAndFlags.finalize ((s.emitFcsAndFlags.bitlen.toNat + 7) / 8) := by
  intro idx hidx
  have hB := h.emitFcsAndFlags
  have hflush : ∀ j, j < s.emitFcsAndFlags.bitlen.toNat / 8 ∨ (s.emitFcsAndFlags.bitlen.toNat + 7) / 8 ≤ j →
      s.emitFcsAndFlags.finalize.buf.read j = s.emitFcsAndFlags.buf.read j := by
    obtain ⟨u, -, hform, -, -, -, hread⟩ := finalFlush_spec hB
    rw [hform] at hread
    exact hread
  by_cases hn : s.ferr = .none
  · obtain ⟨hem, -⟩ : Emitted s s.emitFcsAndFlags s.fcsAndTrailerBits ∧ _ := emitFcsAndTrailer h hn
    have hgrown : s.bitlen.toNat ≤ s.emitFcsAndFlags.bitlen.toNat := by
      rw [hem.length]
      exact le_min h.bitlen (Nat.le_add_right _ _)
    rw [hflush idx (by omega), hem.window idx (by omega)]
  · rw [State.emitFcsAndFlags_of_error hn] at hflush hidx ⊢
    exact hflush idx hidx

/-- A write command in an open lawful frame. -/
theorem frameWrite_keepsBuf {i : Instr} {s t : State} (hi : i.isFrameWrite = true) (hg : s.writeGuard = none)
    (h : s.Building) (he : exec i s = .next t) :
    s.KeepsBufOutside t ((t.bitlen.toNat + if i = .writeFcsAndTrailer then 7 else 0) / 8) := by
  by_cases hf : i = .writeFcsAndTrailer
  · subst hf
    rw [exec_writeFcsAndTrailer hg h] at he
    cases he
    exact finalize_keepsBuf h
  · obtain ⟨e, bytes, subject, hall⟩ := frameWrite_emits hi hf hg
    cases he.symm.trans (hall s.buf)
    rw [if_neg hf]
    exact emitBytes_keepsBuf (h.withFErr e) bytes subject

/-- Settles O30: a guard raises its fault alone; else `BEGIN_FRAME` writes no byte, and the writes keep BUF outside
their window (`frameWrite_keepsBuf`). -/
theorem frameBuilderCommandsKeepTheRest : Obligations.FrameBuilderCommandsKeepTheRest := by
  intro i s t h hi he
  simp only [Instr.isFrameCommand, Bool.or_eq_true, beq_iff_eq] at hi
  rcases hi with rfl | hi
  · rcases beginFrame_cases he with ⟨-, rfl⟩ | ⟨-, rfl⟩
    · exact .inl (.inl rfl)
    · exact .inr ⟨rfl, ⟨_, rfl⟩, fun _ => rfl, fun _ _ => rfl⟩
  · rcases frameWrite_cases hi he with ⟨reason, -, rfl⟩ | ⟨hg, hwrote, -⟩
    · cases reason
      · exact .inl (.inl rfl)
      · exact .inl (.inr rfl)
    · obtain ⟨-, ho⟩ := State.writeGuard_eq_none_iff.mp hg
      refine .inr ⟨hwrote.only, ⟨_, hwrote.trace⟩, ?_, frameWrite_keepsBuf hi hg (h.building ho) he⟩
      rintro rfl
      simp [Instr.isFrameWrite] at hi

/-! ## Stuffing over a write command (R121, R151) -/

/-- A write command that fits appends its content, stuffed, and then its flags. -/
theorem frameWrite_appends {i : Instr} {s : State} (h : s.Inv) (hw : s.Writable) (hi : i.isFrameWrite = true) :
    ∃ t, exec i s = .next t ∧
      (t.ferr = .none → AppendsBits s t (stuffFrom s.ones.toNat (s.contentOf i) ++ s.flagsOf i)) := by
  have hB := h.building hw.fstate
  have hcontent := fun bytes => (emitBytes_appendsContent h hw bytes).appends
  cases i <;> simp only [Instr.isFrameWrite, Bool.false_eq_true] at hi <;>
    simp only [State.contentOf, State.flagsOf, List.append_nil]
  case writeFlags n =>
    exact ⟨_, exec_writeFlags hw.writeGuard n, fun _ => (emitFlags_emitted hB hw.ferr n.toNat).1.appendsBits⟩
  case writeAddressChain chain =>
    by_cases hbad : chain = [] ∨ ¬ lastFlagsOk chain = true
    · exact ⟨_, exec_writeAddressChain_of_bad hw hbad, fun hn => nomatch hn⟩
    · obtain ⟨hc, hok⟩ : chain ≠ [] ∧ lastFlagsOk chain = true := by simpa using hbad
      exact ⟨_, exec_writeAddressChain hw.writeGuard hw.ferr hc hok, fun _ => hcontent _⟩
  case writeControlAndPid => exact ⟨_, exec_writeControlAndPid hw.writeGuard, fun _ => hcontent _⟩
  case writePayload bytes => exact ⟨_, exec_writePayload hw.writeGuard bytes, fun _ => hcontent _⟩
  case writeFcsAndTrailer =>
    obtain ⟨t, he, happ, -⟩ := writeFcsAndTrailerCompletesTheFrame s h hw
    rw [← fcsBytes_eq_ofNat] at happ
    exact ⟨t, he, fun _ => happ⟩

/-- A frame that fits has lost no bit. -/
theorem AppendsBits.frame_of_fit {s t : State} {bits : List Bool} (h : AppendsBits s t bits) (hn : t.ferr = .none) :
    t.frameBits = s.frameBits ++ bits := by
  have hfit : s.bitlen.toNat + bits.length ≤ s.cfg.capBits := by
    by_contra hover
    simp [h.ferr, hover] at hn
  rw [h.frame, List.take_of_length_le (by simpa using hfit)]

/-- Settles O32: what is appended is the content, stuffed (`frameWrite_appends`); stuffing is undone
(`destuffFrom_stuffFrom`) and breaks the runs (`no_six_ones_stuffFrom`). -/
theorem stuffingIsUndoneAndBreaksRuns : Obligations.StuffingIsUndoneAndBreaksRuns := by
  intro i s t h hw hi he hn
  obtain ⟨u, hu, happ⟩ := frameWrite_appends h hw hi
  cases he.symm.trans hu
  refine ⟨stuffFrom s.ones.toNat (s.contentOf i), ?_, destuffFrom_stuffFrom _ h.frame.ones _,
    no_six_ones_stuffFrom _ h.frame.ones _⟩
  rw [(happ hn).frame_of_fit hn, List.append_assoc]

end Sys2Proof.Machine
end

section
/-! The Tone Table: `lookup` quarter by quarter (41_tone_table.md R171), and TABLE_LOOKUP (R172). -/

namespace Sys2Proof.Machine

variable {c : Config} {k : Nat}

/-! ## The four quarters of the rebuilt period (R171) -/

/-- The first quarter is `QTABLE` itself. -/
theorem lookup_firstQuarter (hj : k % c.p < c.q) : lookup c k = quarter c (k % c.p) := if_pos hj

/-- The second quarter is `QTABLE` mirrored. -/
theorem lookup_secondQuarter (hl : c.q ≤ k % c.p) (hu : k % c.p < 2 * c.q) :
    lookup c k = quarter c (2 * c.q - 1 - k % c.p) := by
  simp [lookup, hl.not_gt, hu]

/-- The third quarter is the first, inverted. -/
theorem lookup_thirdQuarter (hl : 2 * c.q ≤ k % c.p) (hu : k % c.p < 3 * c.q) :
    lookup c k = c.maxv - quarter c (k % c.p - 2 * c.q) := by
  have hq : ¬ k % c.p < c.q := by omega
  simp [lookup, hq, hl.not_gt, hu]

/-- The fourth quarter is the second, inverted. -/
theorem lookup_fourthQuarter (hl : 3 * c.q ≤ k % c.p) :
    lookup c k = c.maxv - quarter c (4 * c.q - 1 - k % c.p) := by
  have hq : ¬ k % c.p < c.q := by omega
  have h2q : ¬ k % c.p < 2 * c.q := by omega
  simp [lookup, hq, h2q, hl.not_gt]

/-- The period's indices of a legal table are below P = 4 × Q (R6). -/
theorem mod_p_lt (h : c.legal = true) (k : Nat) : k % c.p < 4 * c.q :=
  Nat.mod_lt _ (Nat.mul_pos (by decide) (Config.q_range h).1)

/-! ## TABLE_LOOKUP (R172) -/

/-- TABLE_LOOKUP answers with the looked-up value and does nothing else, whatever the state. -/
theorem exec_tableLookup (k : BitVec 32) (s : State) :
    exec (.tableLookup k) s = .next (s.respond .ok (BitVec.ofNat 32 (lookup s.cfg k.toNat))) := rfl

/-- Settles O34: the value is `lookup` of the index; each quarter of the period has its equation, and the entry it names
stands in the table (`quarter_spec`). -/
theorem tableLookupReturnsTheRebuiltPeriod : Obligations.TableLookupReturnsTheRebuiltPeriod := by
  intro s k h
  have hp := mod_p_lt h k.toNat
  refine ⟨lookup s.cfg k.toNat, exec_tableLookup k s, lookup_le h _, fun hj => ?_, fun hl hu => ?_, fun hl hu => ?_,
    fun hl => ?_⟩
  · rw [lookup_firstQuarter hj]
    exact (quarter_spec h hj).1
  · rw [lookup_secondQuarter hl hu]
    exact (quarter_spec h (by omega)).1
  · exact ⟨_, (quarter_spec h (by omega)).1, lookup_thirdQuarter hl hu⟩
  · exact ⟨_, (quarter_spec h (by omega)).1, lookup_fourthQuarter hl⟩

end Sys2Proof.Machine
end

section
/-! 42_synthesizer.md: the pre-emphasis maps (R200), START_TX and STOP_TIMER (R190, R199), the four moves of a TICK (R192
to R196), that every sample is an output code (R195), and that a stopped session waits for RESET (R312). -/

namespace Sys2Proof.Config

variable {c : Config}

theorem preemphLegal_of_legal (h : c.legal = true) : preemphLegal c.maxv c.preemph = true := by
  obtain ⟨-, -, -, -, -, -, -, -, hp, -⟩ := legal_iff.mp h
  exact hp

theorem phaseMod_pos (h : c.legal = true) : 0 < c.phaseMod := Nat.zero_lt_of_lt (incMark_lt h)

end Sys2Proof.Config

namespace Sys2Proof.Machine

/-! ## The pre-emphasis maps (R200) -/

section

variable {c : Config} {num den v : Nat} {values : List Nat}

theorem preemphasise_ratio (hp : c.preemph = .ratio num den) : preemphasise c v = v * num / den := by
  simp only [preemphasise, hp]

theorem preemphasise_midScale (hp : c.preemph = .midScale num den) :
    preemphasise c v = (c.maxv * (den - num) + 2 * v * num) / (2 * den) := by
  simp only [preemphasise, hp]

theorem preemphasise_codes (hp : c.preemph = .codes values) : preemphasise c v = values.getD v 0 := by
  simp only [preemphasise, hp]

/-- A legal ratio is below one, so it raises no code. -/
theorem preemphasise_ratio_le (hl : c.legal = true) (hp : c.preemph = .ratio num den) : preemphasise c v ≤ v := by
  have hlegal := Config.preemphLegal_of_legal hl
  rw [hp, Config.preemphLegal_ratio] at hlegal
  rw [preemphasise_ratio hp]
  exact Nat.div_le_of_le_mul ((Nat.mul_le_mul_left v hlegal.1.le).trans_eq (Nat.mul_comm v den))

/-- The mid-scale reading draws a code towards MID, so not past MAXV. -/
theorem preemphasise_midScale_le (hl : c.legal = true) (hp : c.preemph = .midScale num den) (hv : v ≤ c.maxv) :
    preemphasise c v ≤ c.maxv := by
  have hlegal := Config.preemphLegal_of_legal hl
  rw [hp, Config.preemphLegal_midScale] at hlegal
  rw [preemphasise_midScale hp]
  refine Nat.div_le_of_le_mul ?_
  calc c.maxv * (den - num) + 2 * v * num
      ≤ c.maxv * (den - num) + 2 * c.maxv * num := by gcongr
    _ = c.maxv * ((den - num) + num + num) := by ring
    _ ≤ c.maxv * (2 * den) := Nat.mul_le_mul_left _ (by omega)
    _ = 2 * den * c.maxv := Nat.mul_comm _ _

/-- The model's integer division is the floor of the rational reading: both sides over the denominator 2 × den. -/
theorem preemphasise_midScale_eq_floor (hl : c.legal = true) (hp : c.preemph = .midScale num den) :
    (preemphasise c v : Int) = ⌊(c.maxv : ℚ) / 2 + ((v : ℚ) - (c.maxv : ℚ) / 2) * num / den⌋ := by
  have hlegal := Config.preemphLegal_of_legal hl
  rw [hp, Config.preemphLegal_midScale] at hlegal
  have hden : (den : ℚ) ≠ 0 := Nat.cast_ne_zero.mpr (by omega)
  have hover : (c.maxv : ℚ) / 2 + ((v : ℚ) - (c.maxv : ℚ) / 2) * num / den =
      ((c.maxv * (den - num) + 2 * v * num : ℕ) : ℚ) / ((2 * den : ℕ) : ℚ) := by
    push_cast [Nat.cast_sub hlegal.1.le]
    field_simp
    ring
  rw [hover, Rat.floor_natCast_div_natCast, preemphasise_midScale hp, Int.natCast_ediv]

/-- A legal list has an entry for each code. -/
theorem preemphasise_codes_getElem? (hl : c.legal = true) (hp : c.preemph = .codes values) (hv : v ≤ c.maxv) :
    values[v]? = some (preemphasise c v) := by
  have hlegal := Config.preemphLegal_of_legal hl
  rw [hp, Config.preemphLegal_codes] at hlegal
  have hlen : v < values.length := by omega
  simp [preemphasise_codes hp, hlen]

theorem preemphasise_codes_le (hl : c.legal = true) (hp : c.preemph = .codes values) (hv : v ≤ c.maxv) :
    preemphasise c v ≤ c.maxv := by
  have hlegal := Config.preemphLegal_of_legal hl
  rw [hp, Config.preemphLegal_codes] at hlegal
  exact hlegal.2 _ (List.mem_of_getElem? (preemphasise_codes_getElem? hl hp hv))

/-- Every legal map takes codes to codes (R6, R200). -/
theorem preemphasise_le (hl : c.legal = true) (hv : v ≤ c.maxv) : preemphasise c v ≤ c.maxv := by
  cases hp : c.preemph with
  | ratio num den => exact (preemphasise_ratio_le hl hp).trans hv
  | midScale num den => exact preemphasise_midScale_le hl hp hv
  | codes values => exact preemphasise_codes_le hl hp hv

end

/-- Settles O36: each form of the map has its equation, and a legal map stays within the codes (`preemphasise_le`). -/
theorem preemphasisMapsCodesToCodes : Obligations.PreemphasisMapsCodesToCodes := fun _ _ hl hv =>
  ⟨preemphasise_le hl hv, fun _ _ hp => ⟨preemphasise_ratio hp, preemphasise_ratio_le hl hp⟩,
    fun _ _ hp => preemphasise_midScale_eq_floor hl hp, fun _ hp => preemphasise_codes_getElem? hl hp hv⟩

/-! ## START_TX and STOP_TIMER (R190, R199) -/

/-- A draw of the adapter's answer changes the answers that stand ready and the draw counter alone (log 4). -/
theorem State.drawSettle_only (s : State) :
    s.drawSettle.2 = { s with settle := s.drawSettle.2.settle, draws := s.drawSettle.2.draws } := by
  unfold State.drawSettle
  split <;> rfl

/-- Settles O38: the answer and what it leaves are `drawSettle`'s on the keyed block; `exec_startTx_of_ready` gives the
outcome of each answer. -/
theorem startTxOpensASessionIfTheAdapterSettles : Obligations.StartTxOpensASessionIfTheAdapterSettles := by
  intro s hs he hf
  have hready : s.startRefusal = none := by simp [State.startRefusal, hs, he, hf]
  have hexec := exec_startTx_of_ready hready
  refine ⟨s.keyUp.drawSettle.1, s.keyUp.drawSettle.2.settle, s.keyUp.drawSettle.2.draws, fun answer later ha => ?_,
    fun hn => ?_, fun hok => ?_, fun hok => ?_⟩
  · simp [State.drawSettle, State.keyUp, ha]
  · simp [State.drawSettle, State.keyUp, hn]
  · rw [hexec, if_pos hok, State.drawSettle_only]
    simp [State.keyUp, State.openSession, State.emit, State.respond]
  · rw [hexec, if_neg (by simp [hok]), State.drawSettle_only]
    simp [State.keyUp, State.emit, State.respond]

/-- Settles O39: STOP_TIMER has one meaning in every state. -/
theorem stopTimerClearsTimerEnOnly : Obligations.StopTimerClearsTimerEnOnly := fun _ => rfl

/-! ## The four moves of a TICK (R192 to R196) -/

/-- Settles O40: an idle block is in no session. -/
theorem tickWhileIdleDoesNothing : Obligations.TickWhileIdleDoesNothing := fun _ hs => tick_of_idle (by simp [hs])

/-- Settles O43: the move of `tick_of_end`, whose `endSession` is R196's. -/
theorem tickAfterTheLastBitEndsTheSession : Obligations.TickAfterTheLastBitEndsTheSession := fun _ hs hb hc =>
  tick_of_end hs hb hc

/-- The code put out at a phase while a tone stands: the looked-up value, pre-emphasised on Mark (R195). -/
def sampleCode (c : Config) (tone : Tone) (phase : Nat) : Nat :=
  if tone = .mark then preemphasise c (lookup c (phase / 2 ^ c.f)) else lookup c (phase / 2 ^ c.f)

/-- Both branches are codes: the table's values and their pre-emphasis (R195, R263). -/
theorem sampleCode_le {c : Config} (h : c.legal = true) (tone : Tone) (phase : Nat) :
    sampleCode c tone phase ≤ c.maxv := by
  unfold sampleCode
  split
  · exact preemphasise_le h (lookup_le h _)
  · exact lookup_le h _

theorem State.sample_emits (s : State) :
    s.sample.trace = s.trace ++ [.sampleOut (sampleCode s.cfg s.tone s.phaseAdvance.phase.toNat)] := rfl

/-- The advanced phase has room in PHASE (R32, R176). -/
theorem State.phaseAdvance_toNat {s : State} (h : s.cfg.legal = true) :
    s.phaseAdvance.phase.toNat = (s.phase.toNat + s.inc.toNat) % s.cfg.phaseMod := by
  have hlt := Nat.mod_lt (s.phase.toNat + s.inc.toNat) (Config.phaseMod_pos h)
  exact Nat.mod_eq_of_lt (hlt.trans_le (Config.phaseMod_le h))

/-- Steps 2 to 4 of a TICK with budget left, on numbers (R192, R195). -/
theorem State.sample_eq {s : State} (h : s.cfg.legal = true) (hb : s.budget ≠ 0#16) : s.sample =
    { s with
      phase := BitVec.ofNat 32 ((s.phase.toNat + s.inc.toNat) % s.cfg.phaseMod)
      budget := BitVec.ofNat 16 (s.budget.toNat - 1)
      trace := s.trace ++ [.sampleOut (sampleCode s.cfg s.tone ((s.phase.toNat + s.inc.toNat) % s.cfg.phaseMod))] } := by
  have hbudget : s.budget - 1#16 = BitVec.ofNat 16 (s.budget.toNat - 1) := by bv_omega
  have hform : s.sample =
      { s with
        phase := s.phaseAdvance.phase, budget := s.budget - 1#16
        trace := s.trace ++ [.sampleOut (sampleCode s.cfg s.tone s.phaseAdvance.phase.toNat)] } := rfl
  rw [hform, State.phaseAdvance_toNat h, State.phaseAdvance_phase, hbudget]

/-- Settles O41: inside a bit the TICK is `sample`, on numbers `sample_eq`. -/
theorem tickInsideABitEmitsOneSample : Obligations.TickInsideABitEmitsOneSample := by
  intro s h hs hb
  refine ⟨_, _, rfl, rfl, ?_⟩
  rw [tick_of_inside hs hb, State.sample_eq h.legal hb]
  rfl

/-- A session with bits left finds the byte of the next one in BUF (R46, R64). -/
theorem State.Inv.fetchBit?_isSome {s : State} (h : s.Inv) (hs : s.sstate = .transmitting) (hc : s.cursor ≠ s.txlen) :
    ∃ u, s.fetchBit? = some u := by
  have hv := h.session.transmitting hs
  have hbyte := hv.cursor_byte_lt hc
  have hcap := h.frame.bitlen
  rw [State.extent_finalized hv.fstate] at hbyte
  have hinside : s.cursor.toNat / 8 < s.cfg.maxFrameBytes := by
    simp only [Config.capBits] at hcap
    omega
  simp [State.fetchBit?, State.memRead?, hinside]

/-- The bit `fetchBit?` reads from BUF is frame bit CURSOR (R61, R194). -/
theorem SessionValues.frameBits_cursor {s : State} (h : SessionValues s) (hc : s.cursor ≠ s.txlen) :
    s.frameBits[s.cursor.toNat]? = some ((s.buf.read (s.cursor.toNat / 8)).getMsbD (s.cursor.toNat % 8)) := by
  have hlt : s.cursor.toNat < s.bitlen.toNat := by
    rw [← h.txlen]
    exact lt_of_le_of_ne h.cursor fun he => hc (BitVec.eq_of_toNat_eq he)
  rw [← State.frameBit_of_lt (h.cursor_byte_lt hc)]
  simp [State.frameBits, hlt]

theorem State.toneIncrement_eq (s : State) (tone : Tone) :
    s.toneIncrement tone = BitVec.ofNat 32 (incOf s.cfg tone) := by
  cases tone <;> rfl

/-- Settles O42: `fetchBit_eq` gives the state after the fetch, whose bit is frame bit CURSOR (`frameBits_cursor`), and
`sample_eq` the bit's first sample from there. -/
theorem tickAtABitBoundaryFetchesTheNextBit : Obligations.TickAtABitBoundaryFetchesTheNextBit := by
  intro s h hs hb hc
  have hv := h.session.transmitting hs
  obtain ⟨u, hu⟩ := h.fetchBit?_isSome hs hc
  obtain ⟨tone, hform, htone⟩ := fetchBit_eq hu
  have hsample := State.sample_eq (s := u) (by rw [hform]; exact h.legal) (hv.fetchBit h.legal hc hu).2
  subst hform
  refine ⟨_, tone, incOf s.cfg tone, _, _, hv.frameBits_cursor hc, htone, rfl, rfl, rfl, ?_⟩
  have hspb := Config.spb_range h.legal
  have hinc : (BitVec.ofNat 32 (incOf s.cfg tone)).toNat = incOf s.cfg tone := by
    rw [← State.toneIncrement_eq, State.toneIncrement_toNat h.legal]
  have hfull : (BitVec.ofNat 16 s.cfg.spb).toNat = s.cfg.spb := Nat.mod_eq_of_lt (by omega)
  have hcursor : s.cursor + 1#20 = BitVec.ofNat 20 (s.cursor.toNat + 1) := by bv_omega
  rw [tick_of_boundary hs hb hc hu, hsample]
  simp only [State.toneIncrement_eq, hinc, hfull, hcursor, sampleCode]

/-! ## Every sample is an output code (R195, R263) -/

/-- Only a TICK puts out samples: a command adds none to the outputs. -/
theorem command_adds_no_sample {i : Instr} {s t : State} (hi : i ≠ .tick) (h : exec i s = .next t) :
    ∃ new : List Output, t.trace = s.trace ++ new ∧ ∀ v, .sampleOut v ∉ new := by
  rcases instr_cases i with hw | hv | rfl | rfl | rfl | rfl | rfl
  · rcases frameWrite_cases hw h with ⟨reason, -, rfl⟩ | ⟨-, hwrote, -⟩
    · exact ⟨[], by simp⟩
    · exact ⟨_, hwrote.trace, by simp⟩
  · obtain ⟨value, draws, rfl⟩ := read_cases hv h
    exact ⟨_, rfl, by simp⟩
  · rw [reset_next h]
    exact ⟨_, rfl, by cases s.txEn <;> simp⟩
  · rcases beginFrame_cases h with ⟨-, rfl⟩ | ⟨-, rfl⟩
    · exact ⟨[], by simp⟩
    · exact ⟨_, rfl, by simp⟩
  · rcases startTx_cases h with ⟨code, -, rfl⟩ | ⟨-, -, -, settle, draws, rfl | rfl⟩
    all_goals exact ⟨_, rfl, by simp⟩
  · rw [stopTimer_next h]
    exact ⟨_, rfl, by simp⟩
  · exact absurd rfl hi

/-- From `s` to `t` the outputs have only grown, and every sample added is a code. -/
def State.AddsCodes (s t : State) : Prop :=
  ∃ new : List Output, t.trace = s.trace ++ new ∧ ∀ v, .sampleOut v ∈ new → v ≤ s.cfg.maxv

theorem State.addsCodes_sample {s : State} (h : s.cfg.legal = true) : s.AddsCodes s.sample :=
  ⟨_, s.sample_emits, fun v hv => by
    obtain rfl : v = _ := by simpa using hv
    exact sampleCode_le h _ _⟩

theorem tick_addsCodes {s t : State} (hl : s.cfg.legal = true) (h : exec .tick s = .next t) : s.AddsCodes t := by
  rcases tick_cases h with ⟨-, rfl⟩ | ⟨-, -, -, rfl⟩ | ⟨-, -, -, u, hu, rfl⟩ | ⟨-, -, rfl⟩
  · exact ⟨[], by simp⟩
  · exact ⟨_, rfl, by simp⟩
  · obtain ⟨tone, rfl, -⟩ := fetchBit_eq hu
    exact State.addsCodes_sample hl
  · exact State.addsCodes_sample hl

theorem exec_addsCodes {i : Instr} {s t : State} (hl : s.cfg.legal = true) (h : exec i s = .next t) :
    s.AddsCodes t := by
  by_cases hi : i = .tick
  · subst hi
    exact tick_addsCodes hl h
  · obtain ⟨new, htrace, hnone⟩ := command_adds_no_sample hi h
    exact ⟨new, htrace, fun v hv => absurd hv (hnone v)⟩

/-- A step that runs something has a legal configuration (log 10); one that passes puts out no sample. -/
theorem step_addsCodes {s t : State} (h : step s = .next t) : s.AddsCodes t := by
  rcases step_cases h with ⟨i, u, ha, he⟩ | hp
  · obtain ⟨-, hl, hu, -⟩ := arrival_run ha
    rw [hu] at he
    exact exec_addsCodes (s := { s with turns := u.turns, stream := u.stream }) hl he
  · obtain ⟨-, -, turns, stream, new, rfl | rfl, rfl⟩ := arrival_pass hp
    all_goals exact ⟨_, rfl, by simp⟩

/-- Settles O52: the outputs a step adds are those of `step_addsCodes`. -/
theorem samplesAreOutputCodes : Obligations.SamplesAreOutputCodes := by
  intro s t h v hv
  obtain ⟨new, htrace, hcodes⟩ := step_addsCodes h
  rw [htrace, List.drop_left] at hv
  exact hcodes v hv

/-! ## A stopped session (R199, R312) -/

/-- Two states with the same session: the Synthesizer's registers and the timer. -/
structure State.SameSession (s t : State) : Prop where
  sstate : t.sstate = s.sstate
  timerEn : t.timerEn = s.timerEn
  txEn : t.txEn = s.txEn
  active : t.active = s.active
  cursor : t.cursor = s.cursor
  phase : t.phase = s.phase
  budget : t.budget = s.budget
  tone : t.tone = s.tone
  txlen : t.txlen = s.txlen
  inc : t.inc = s.inc

/-- In a session whose timer is stopped the Frame Builder's commands fault, START_TX is refused and STOP_TIMER finds
nothing to stop: of the commands only RESET reaches the session. -/
theorem command_keeps_stopped_session {i : Instr} {s t : State} (hr : i ≠ .reset) (hk : i ≠ .tick)
    (hs : s.sstate = .transmitting) (ht : s.timerEn = false) (h : exec i s = .next t) : s.SameSession t := by
  by_cases hf : i.isFrameCommand = true
  · rw [frameCommand_of_session hf hs h]
    constructor <;> simp
  rcases instr_cases i with hw | hv | rfl | rfl | rfl | rfl | rfl
  · exact absurd (by simp [Instr.isFrameCommand, hw]) hf
  · obtain ⟨value, draws, rfl⟩ := read_cases hv h
    exact ⟨rfl, rfl, rfl, rfl, rfl, rfl, rfl, rfl, rfl, rfl⟩
  · exact absurd rfl hr
  · exact absurd rfl hf
  · rcases startTx_cases h with ⟨code, -, rfl⟩ | ⟨hidle, -⟩
    · exact ⟨rfl, rfl, rfl, rfl, rfl, rfl, rfl, rfl, rfl, rfl⟩
    · simp [hs] at hidle
  · rw [stopTimer_next h]
    exact ⟨rfl, ht.symm, rfl, rfl, rfl, rfl, rfl, rfl, rfl, rfl⟩
  · exact absurd rfl hk

/-- A step of a stopped session is a RESET or keeps the session: with TIMER_EN = 0 no TICK arrives (R258). -/
theorem step_of_stopped_session {s t : State} (hs : s.sstate = .transmitting) (ht : s.timerEn = false)
    (h : step s = .next t) : (∃ u, s.arrival = .run .reset u) ∨ s.SameSession t := by
  rcases step_cases h with ⟨i, u, ha, he⟩ | hp
  · by_cases hr : i = .reset
    · exact .inl ⟨u, hr ▸ ha⟩
    · obtain ⟨-, -, hu, htick | ⟨hk, -⟩⟩ := arrival_run ha
      · simp [ht] at htick
      · rw [hu] at he
        have hsame :=
          command_keeps_stopped_session (s := { s with turns := u.turns, stream := u.stream }) hr hk hs ht he
        exact .inr { hsame with }
  · obtain ⟨-, -, turns, stream, new, -, rfl⟩ := arrival_pass hp
    exact .inr ⟨rfl, rfl, rfl, rfl, rfl, rfl, rfl, rfl, rfl, rfl⟩

/-- Settles O53: by `step_of_stopped_session`, register by register. -/
theorem stoppedSessionWaitsForReset : Obligations.StoppedSessionWaitsForReset := by
  intro s t hs ht h
  refine (step_of_stopped_session hs ht h).imp_right fun hsame => ?_
  exact ⟨hsame.sstate.trans hs, hsame.timerEn.trans ht, hsame.txEn, hsame.active, hsame.cursor, hsame.phase,
    hsame.budget, hsame.tone, hsame.txlen, hsame.inc⟩

end Sys2Proof.Machine
end

section
/-! 43_system.md: RESET (R231), READ_REG (R233) and READ_BUF (R234). -/

namespace Sys2Proof

/-- The numbers of the registers are their places in the order of R41. -/
theorem Reg.all_map_num : Reg.all.map Reg.num = (List.range 9).map (BitVec.ofNat 8) := by decide

/-- The register at place `n` has the number `n`. -/
theorem Reg.num_of_all_getElem? {n : Nat} {g : Reg} (h : Reg.all[n]? = some g) : g.num = BitVec.ofNat 8 n := by
  have hn : n < 9 := (List.getElem?_eq_some_iff.mp h).1
  simpa [h, hn] using congrArg (·[n]?) Reg.all_map_num

/-- READ_REG decodes to the register its number names. -/
theorem decode_register (m : Nat) (g : Reg) (bs : List Byte) :
    decode m (Opcode.readReg.byte :: g.num :: bs) = .cmd (.readReg g) bs :=
  decode_encode (i := .readReg g) rfl (by simp) bs

namespace Machine

/-! ## RESET (R231) -/

/-- Settles O14: RESET answers a next state, and `reset_next` says which. -/
theorem resetCommandTakesFrameAndSessionBack : Obligations.ResetCommandTakesFrameAndSessionBack := fun _ =>
  congrArg Host.Outcome.next (reset_next rfl)

/-! ## READ_REG (R233) -/

/-- READ_REG answers with the register's value and does nothing else, whatever the state. -/
theorem exec_readReg (g : Reg) (s : State) : exec (.readReg g) s = .next (s.respond .ok (s.regValue g)) := rfl

/-- Under R46 the status word never shows DRAINING, nor a count of ones beyond 4. -/
theorem State.Inv.statusWord_bounds {s : State} (h : s.Inv) :
    s.statusWord.extractLsb' 4 2 ≠ 2#2 ∧ s.statusWord.extractLsb' 10 3 ≤ 4#3 := by
  obtain ⟨-, -, hsstate, -, -, -, -, hones, -⟩ := s.statusWord_fields
  rw [hsstate, h.session.sstate_num, hones]
  refine ⟨?_, h.frame.ones⟩
  split <;> decide

/-- Settles O15: the listed values are those of `regValue`, the listed registers stand at their numbers
(`Reg.num_of_all_getElem?`), and R46 bounds SSTATE and ONES. -/
theorem readRegReturnsTheRegister : Obligations.ReadRegReturnsTheRegister := by
  refine ⟨fun s m bytes => ⟨fun g v hmem => ?_, fun n g hg => ?_, fun r hr => decode_reservedRegister m hr bytes⟩,
    fun s h => h.statusWord_bounds⟩
  · change (g, v) ∈ Reg.all.map fun g => (g, s.regValue g) at hmem
    obtain ⟨_, -, hpair⟩ := List.mem_map.mp hmem
    cases hpair
    exact exec_readReg g s
  · rw [← Reg.num_of_all_getElem? hg]
    exact decode_register m g bytes

/-! ## READ_BUF (R234) -/

section

variable {s : State} {idx : BitVec 16}

/-- Inside the frame's extent READ_BUF answers with the byte of BUF. -/
theorem exec_readBuf_inside (hm : idx.toNat < s.cfg.maxFrameBytes) (hx : idx.toNat < s.extent) :
    exec (.readBuf idx) s = .next (s.respond .ok ((s.buf.read idx.toNat).setWidth 32)) := by
  rw [exec_readBuf, if_pos hm, if_pos hx]

/-- Outside the frame's extent READ_BUF answers with a drawn byte. -/
theorem exec_readBuf_outside (hm : idx.toNat < s.cfg.maxFrameBytes) (hx : s.extent ≤ idx.toNat) :
    exec (.readBuf idx) s = .next (s.drawByte.2.respond .ok (s.drawByte.1.setWidth 32)) := by
  rw [exec_readBuf, if_pos hm, if_neg hx.not_gt]

/-- The indices inside the frame's extent, by FSTATE (R62, R63). -/
theorem State.lt_extent_iff {i : Nat} : i < s.extent ↔
    s.fstate = .opened ∧ i < s.bitlen.toNat / 8 ∨ s.fstate = .finalized ∧ i < (s.bitlen.toNat + 7) / 8 := by
  cases hf : s.fstate <;> simp [State.extent, hf]

/-- The indices outside the frame's extent, by FSTATE (R62, R63). -/
theorem State.extent_le_iff {i : Nat} : s.extent ≤ i ↔
    s.fstate = .noFrame ∨ s.fstate = .opened ∧ s.bitlen.toNat / 8 ≤ i ∨
      s.fstate = .finalized ∧ (s.bitlen.toNat + 7) / 8 ≤ i := by
  cases hf : s.fstate <;> simp [State.extent, hf]

/-- The bytes of an index beyond BUF are refused (R97 item 3). -/
theorem decode_readBuf_beyond {m : Nat} (h : m ≤ idx.toNat) (bs : List Byte) :
    decode m (encode (.readBuf idx) ++ bs) = .refused .index bs :=
  decode_indexBeyondBuf (by rw [← toNat_append_bytes, append_bytesOf16]; exact h) bs

end

/-- Settles O17: the cases by FSTATE are the inside and the outside of the extent (`State.lt_extent_iff`,
`State.extent_le_iff`). -/
theorem readBufReadsTheFrameOrDraws : Obligations.ReadBufReadsTheFrameOrDraws := fun _ _ =>
  ⟨fun hm => ⟨fun hin => exec_readBuf_inside hm (State.lt_extent_iff.mpr hin),
    fun hout => ⟨_, exec_readBuf_outside hm (State.extent_le_iff.mpr hout)⟩⟩, decode_readBuf_beyond⟩

end Machine
end Sys2Proof
end

section
/-! 60_exceptions.md: the two model faults (R255), the timer's turn (R258), where samples and TIMER_EN come from (R258,
R263, R38), and the errors of START_TX (R253). -/

namespace Sys2Proof.Machine

/-! ## The two model faults (R127, R255) -/

/-- A guard of R127 stops the instruction, with the reason it raises. -/
def State.GuardStops (s : State) (i : Instr) : ModelFault → Prop
  | .bufferRace => i.isFrameCommand = true ∧ s.sstate = .transmitting
  | .sequenceViolation => i.isFrameWrite = true ∧ s.sstate ≠ .transmitting ∧ s.fstate ≠ .opened

theorem Instr.isFrameCommand_of_write {i : Instr} (h : i.isFrameWrite = true) : i.isFrameCommand = true := by
  simp [Instr.isFrameCommand, h]

/-- What the guards of the write commands find is a guard's stop. -/
theorem State.guardStops_of_writeGuard {s : State} {i : Instr} {reason : ModelFault} (hi : i.isFrameWrite = true)
    (h : s.writeGuard = some reason) : s.GuardStops i reason := by
  by_cases hs : s.sstate = .transmitting
  · rw [State.writeGuard_of_session hs] at h
    cases h
    exact ⟨Instr.isFrameCommand_of_write hi, hs⟩
  · have ho : s.fstate ≠ .opened := fun ho => by simp [State.writeGuard_of_opened hs ho] at h
    rw [State.writeGuard_of_notOpened hs ho] at h
    cases h
    exact ⟨hi, hs, ho⟩

/-- A stopped instruction raises its reason and does nothing else. -/
theorem exec_of_guardStops {i : Instr} {s : State} {reason : ModelFault} (h : s.GuardStops i reason) :
    exec i s = .next (s.raiseFault reason) := by
  cases reason with
  | bufferRace =>
    obtain ⟨hi, hs⟩ := h
    simp only [Instr.isFrameCommand, Bool.or_eq_true, beq_iff_eq] at hi
    rcases hi with rfl | hw
    · exact exec_beginFrame_of_session hs
    · exact exec_of_writeGuard hw (State.writeGuard_of_session hs)
  | sequenceViolation =>
    obtain ⟨hw, hs, ho⟩ := h
    exact exec_of_writeGuard hw (State.writeGuard_of_notOpened hs ho)

/-- An instruction leaves FAULT alone, or a guard has stopped it. -/
theorem exec_keeps_fault_or_guardStops {i : Instr} {s t : State} (h : exec i s = .next t) :
    t.fault = s.fault ∨ ∃ reason, s.GuardStops i reason ∧ t = s.raiseFault reason := by
  rcases instr_cases i with hw | hv | rfl | rfl | rfl | rfl | rfl
  · rcases frameWrite_cases hw h with ⟨reason, hg, ht⟩ | ⟨-, hwrote, -⟩
    · exact .inr ⟨reason, State.guardStops_of_writeGuard hw hg, ht⟩
    · exact .inl (by rw [hwrote.only]; rfl)
  · obtain ⟨value, draws, rfl⟩ := read_cases hv h
    exact .inl rfl
  · exact .inl (resetValues_of_reset h).2
  · rcases beginFrame_cases h with ⟨hs, ht⟩ | ⟨-, rfl⟩
    · exact .inr ⟨.bufferRace, ⟨rfl, hs⟩, ht⟩
    · exact .inl rfl
  · exact .inl (startTx_answers h).1
  · rw [stopTimer_next h]
    exact .inl rfl
  · exact .inl (tick_outputs h).1

/-- FAULT changes from none alone, and to the reason of the guard that stops the instruction. -/
theorem guardStops_of_fault_ne {i : Instr} {s t : State} (h : exec i s = .next t) (hf : t.fault ≠ s.fault) :
    s.fault = none ∧ ∃ reason, s.GuardStops i reason ∧ t.fault = some reason := by
  rcases exec_keeps_fault_or_guardStops h with hsame | ⟨reason, hg, rfl⟩
  · exact absurd hsame hf
  · cases hs : s.fault with
    | some old => exact absurd (congrArg State.fault (State.raiseFault_of_some reason hs)) hf
    | none => exact ⟨rfl, reason, hg, by simp [hs]⟩

/-- No step follows a fault (R255). -/
theorem step_of_fault {s : State} {reason : ModelFault} (h : s.fault = some reason) :
    step s = .fault (.stopped reason) := by
  simp only [step, State.arrival, h]

/-- Settles O7: a guard's stop raises its reason (`exec_of_guardStops`), nothing else does (`guardStops_of_fault_ne`), and
it ends the run (`step_of_fault`). -/
theorem modelFaultsComeFromTheGuards : Obligations.ModelFaultsComeFromTheGuards := by
  refine ⟨fun i s hi hs hf => ?_, fun i s hi hs ho hf => ?_, fun i s t h hf => ?_, fun s reason h => step_of_fault h⟩
  · rw [exec_of_guardStops (reason := .bufferRace) ⟨hi, hs⟩, State.raiseFault_of_none _ hf]
  · rw [exec_of_guardStops (reason := .sequenceViolation) ⟨hi, hs, ho⟩, State.raiseFault_of_none _ hf]
  · obtain ⟨hnone, reason, hg, ht⟩ := guardStops_of_fault_ne h hf
    refine ⟨hnone, ?_⟩
    cases reason with
    | bufferRace => exact .inl ⟨ht, hg⟩
    | sequenceViolation => exact .inr ⟨ht, hg⟩

/-! ## The timer's turn (R258) -/

theorem arrival_of_timer {s : State} {later : List Agent} (hf : s.fault = none) (hl : s.cfg.legal = true)
    (ht : s.turns = .timer :: later) : s.arrival = State.timerTurn { s with turns := later } := by
  simp [State.arrival, hf, hl, ht]

theorem timerTurn_of_enabled {s : State} (h : s.timerEn = true) : s.timerTurn = .run .tick s := if_pos h

theorem timerTurn_of_disabled {s : State} (h : s.timerEn = false) : s.timerTurn = .pass s := if_neg (by simp [h])

/-- Settles O5: the arrival on the timer's turn runs a TICK or passes, by TIMER_EN. -/
theorem timerTurnTicksWhileEnabled : Obligations.TimerTurnTicksWhileEnabled := fun _ _ hf hl ht =>
  ⟨fun he => step_of_run ((arrival_of_timer hf hl ht).trans (timerTurn_of_enabled he)),
    fun hd => step_of_pass ((arrival_of_timer hf hl ht).trans (timerTurn_of_disabled hd))⟩

/-! ## Where samples come from (R258, R263) -/

/-- From `s` to `t` the outputs have only grown; a sample among those added is the only one added, and `s` was in a
session. -/
def State.SamplesOnce (s t : State) : Prop :=
  ∃ new : List Output, t.trace = s.trace ++ new ∧
    ∀ v, .sampleOut v ∈ new → s.sstate = .transmitting ∧ new = [.sampleOut v]

theorem State.samplesOnce_sample {s : State} (hs : s.sstate = .transmitting) : s.SamplesOnce s.sample :=
  ⟨_, s.sample_emits, fun v hv => ⟨hs, by simpa [eq_comm] using hv⟩⟩

theorem tick_samplesOnce {s t : State} (h : exec .tick s = .next t) : s.SamplesOnce t := by
  rcases tick_cases h with ⟨-, rfl⟩ | ⟨-, -, -, rfl⟩ | ⟨hs, -, -, u, hu, rfl⟩ | ⟨hs, -, rfl⟩
  · exact ⟨[], by simp⟩
  · exact ⟨_, s.endSession_trace, by simp⟩
  · obtain ⟨tone, rfl, -⟩ := fetchBit_eq hu
    exact State.samplesOnce_sample hs
  · exact State.samplesOnce_sample hs

/-- A step puts out no sample, or is a delivered TICK of a session that puts out that one alone. -/
theorem step_samples {s t : State} (h : step s = .next t) :
    ∃ new : List Output, t.trace = s.trace ++ new ∧ ∀ v, .sampleOut v ∈ new →
      s.timerEn = true ∧ s.sstate = .transmitting ∧ (∃ later, s.turns = .timer :: later) ∧ new = [.sampleOut v] := by
  rcases step_cases h with ⟨i, u, ha, he⟩ | hp
  · obtain ⟨-, -, hu, ⟨rfl, hen, hturns⟩ | ⟨hi, -⟩⟩ := arrival_run ha
    · obtain ⟨new, htrace, hsample⟩ := tick_samplesOnce he
      rw [hu] at htrace hsample
      exact ⟨new, htrace, fun v hv => ⟨hen, (hsample v hv).1, ⟨_, hturns⟩, (hsample v hv).2⟩⟩
    · obtain ⟨new, htrace, hnone⟩ := command_adds_no_sample hi he
      rw [hu] at htrace
      exact ⟨new, htrace, fun v hv => absurd hv (hnone v)⟩
  · obtain ⟨-, -, turns, stream, new, rfl | rfl, rfl⟩ := arrival_pass hp
    all_goals exact ⟨_, rfl, by simp⟩

/-! ## Where TIMER_EN comes from (R38) -/

/-- A TICK leaves TIMER_EN as it is, or ends the session and clears it (R192, R196). -/
theorem tick_timerEn {s t : State} (h : exec .tick s = .next t) : t.timerEn = s.timerEn ∨ t.timerEn = false := by
  rcases tick_cases h with ⟨-, rfl⟩ | ⟨-, -, -, rfl⟩ | ⟨-, -, -, u, hu, rfl⟩ | ⟨-, -, rfl⟩
  · exact .inl rfl
  · exact .inr rfl
  · obtain ⟨tone, rfl, -⟩ := fetchBit_eq hu
    exact .inl rfl
  · exact .inl rfl

/-- Every instruction but START_TX leaves TIMER_EN as it is or clears it. -/
theorem exec_timerEn {i : Instr} {s t : State} (hi : i ≠ .startTx) (h : exec i s = .next t) :
    t.timerEn = s.timerEn ∨ t.timerEn = false := by
  rcases instr_cases i with hw | hv | rfl | rfl | rfl | rfl | rfl
  · rcases frameWrite_cases hw h with ⟨reason, -, rfl⟩ | ⟨-, hwrote, -⟩
    · exact .inl (s.raiseFault_timerEn reason)
    · exact .inl (by rw [hwrote.only]; rfl)
  · obtain ⟨value, draws, rfl⟩ := read_cases hv h
    exact .inl rfl
  · exact .inr (resetValues_of_reset h).1.timerEn
  · rcases beginFrame_cases h with ⟨-, rfl⟩ | ⟨-, rfl⟩
    · exact .inl (s.raiseFault_timerEn _)
    · exact .inl rfl
  · exact absurd rfl hi
  · rw [stopTimer_next h]
    exact .inr rfl
  · exact tick_timerEn h

/-- A step that sets TIMER_EN runs START_TX. -/
theorem arrival_of_timerEn_set {s t : State} (h : step s = .next t) (hs : s.timerEn = false) (ht : t.timerEn = true) :
    ∃ u, s.arrival = .run .startTx u := by
  rcases step_cases h with ⟨i, u, ha, he⟩ | hp
  · by_cases hi : i = .startTx
    · exact ⟨u, hi ▸ ha⟩
    · obtain ⟨-, -, hu, -⟩ := arrival_run ha
      have huoff : u.timerEn = false := by rw [hu]; exact hs
      rcases exec_timerEn hi he with hsame | hoff
      · simp [hsame, huoff] at ht
      · simp [hoff] at ht
  · obtain ⟨-, -, turns, stream, new, -, rfl⟩ := arrival_pass hp
    simp [hs] at ht

/-- Settles O51: the outputs a step adds are those of `step_samples`; TIMER_EN is `arrival_of_timerEn_set`. -/
theorem samplesComeFromTicksAlone : Obligations.SamplesComeFromTicksAlone := by
  intro s t h
  refine ⟨fun v hv => ?_, arrival_of_timerEn_set h⟩
  obtain ⟨new, htrace, hsample⟩ := step_samples h
  rw [htrace, List.drop_left] at hv
  obtain ⟨hen, hs, hturns, rfl⟩ := hsample v hv
  exact ⟨hen, hs, hturns, htrace⟩

/-! ## The errors of START_TX (R190, R253) -/

/-- Settles O37: each error is the first that `startRefusal` finds, and a refused START_TX answers it and does nothing
else. -/
theorem startTxReportsTheFirstError : Obligations.StartTxReportsTheFirstError := fun s =>
  ⟨fun hs => exec_startTx_of_refused (by simp [State.startRefusal, hs]),
    fun hs he => exec_startTx_of_refused (by simp [State.startRefusal, hs, he, FErr.code]),
    fun hs he => exec_startTx_of_refused (by simp [State.startRefusal, hs, he, FErr.code]),
    fun hs he hf => exec_startTx_of_refused (by simp [State.startRefusal, hs, he, hf])⟩

end Sys2Proof.Machine
end

section
/-! 70_reset_and_hazards.md: the configuration is fixed when the block is built (R292, R6). -/

namespace Sys2Proof.Machine

/-- A TICK keeps the configuration; what the bit fetch reads of it, it leaves as it is (R194). -/
theorem tick_keeps_cfg {s t : State} (h : exec .tick s = .next t) : t.cfg = s.cfg := by
  rcases tick_cases h with ⟨-, rfl⟩ | ⟨-, -, -, rfl⟩ | ⟨-, -, -, u, hu, rfl⟩ | ⟨-, -, rfl⟩
  · rfl
  · exact s.endSession_cfg
  · obtain ⟨tone, rfl, -⟩ := fetchBit_eq hu
    exact State.sample_cfg _
  · exact s.sample_cfg

/-- Every command and TICK keeps the configuration, RESET and the faulting ones too (R292). -/
theorem exec_keeps_cfg {i : Instr} {s t : State} (h : exec i s = .next t) : t.cfg = s.cfg := by
  rcases instr_cases i with hw | hv | rfl | rfl | rfl | rfl | rfl
  · rcases frameWrite_cases hw h with ⟨reason, -, rfl⟩ | ⟨-, hwrote, -⟩
    · exact s.raiseFault_cfg reason
    · rw [hwrote.only]
      exact s.withFrameOf_cfg t
  · obtain ⟨value, draws, rfl⟩ := read_cases hv h
    rfl
  · rw [reset_next h]
    exact s.resetRegisters_cfg
  · rcases beginFrame_cases h with ⟨-, rfl⟩ | ⟨-, rfl⟩
    · exact s.raiseFault_cfg _
    · rfl
  · rcases startTx_cases h with ⟨code, -, rfl⟩ | ⟨-, -, -, settle, draws, rfl | rfl⟩
    · rfl
    · rfl
    · exact s.openSession_cfg
  · rw [stopTimer_next h]
  · exact tick_keeps_cfg h

/-- Settles O47: taking a command or a TICK keeps the configuration, and so does running it (`exec_keeps_cfg`); a step
that runs nothing touches only the turns, the stream and the outputs. -/
theorem noStepChangesTheConfiguration : Obligations.NoStepChangesTheConfiguration := by
  intro s t h
  rcases step_cases h with ⟨i, u, ha, he⟩ | hp
  · obtain ⟨-, -, hu, -⟩ := arrival_run ha
    calc t.cfg = u.cfg := exec_keeps_cfg he
      _ = s.cfg := by rw [hu]
  · obtain ⟨-, -, turns, stream, new, -, rfl⟩ := arrival_pass hp
    rfl

end Sys2Proof.Machine
end

section
/-! 10_state.md: the power-on state meets the invariant between steps (R46, R49). -/

namespace Sys2Proof.Machine

/-- Settles O2: an empty BUF, the reset values of an idle block, and a configuration in the ranges of R6 (log 1). -/
theorem resetStateMeetsInvariant : Obligations.ResetStateMeetsInvariant where
  legal := by decide +kernel
  mem := ⟨⟨.nil, nofun⟩, nofun⟩
  frame := ⟨Nat.zero_le _, Nat.zero_le _, rfl, fun _ => ⟨rfl, rfl, rfl, rfl⟩⟩
  session := .of_idle rfl rfl ⟨rfl, rfl, rfl, rfl, rfl, rfl, rfl, rfl⟩

end Sys2Proof.Machine
end

section
/-! 40_frame_builder.md: the residue that `WRITE_FCS_AND_TRAILER` leaves in CRC (R150). -/

namespace Sys2Proof.Machine

/-- Settles O31: without an overflow the whole FCS has entered CRC (`Emitted.fcs_fits`), and the FCS of any register
takes it to the residue (`foldl_crcStep_fcs`); flags and flush leave CRC alone. -/
theorem crcAfterTheFcsIsTheResidue : Obligations.CrcAfterTheFcsIsTheResidue := by
  intro s t h hw he hferr
  have hB := h.building hw.fstate
  rw [exec_writeFcsAndTrailer hw.writeGuard hB] at he
  cases he
  obtain ⟨hem, hcrc, -⟩ : Emitted s s.emitFcsAndFlags s.fcsAndTrailerBits ∧ s.emitFcsAndFlags.crc = _ ∧ _ :=
    emitFcsAndTrailer hB hw.ferr
  obtain ⟨hall, -⟩ := hem.fcs_fits hferr h.legal
  rw [hall, foldl_crcStep_fcs] at hcrc
  exact hcrc

end Sys2Proof.Machine
end

section
/-! 41_tone_table.md: the symmetry of the rebuilt period (R173), and the phase that runs on over the bits (R179). -/

namespace Sys2Proof.Machine

variable {c : Config} {j : Nat}

/-- Half a period on stands the inverted value: third quarter against first, fourth against second. -/
theorem lookup_add_half (h : c.legal = true) (hj : j < 2 * c.q) :
    lookup c j + lookup c (j + 2 * c.q) = c.maxv := by
  have hmod : j % c.p = j := Nat.mod_eq_of_lt (by simp only [Config.p]; omega)
  have hmod2 : (j + 2 * c.q) % c.p = j + 2 * c.q := Nat.mod_eq_of_lt (by simp only [Config.p]; omega)
  by_cases hq : j < c.q
  · have hle := (quarter_spec h hq).2
    rw [lookup_firstQuarter (by omega), lookup_thirdQuarter (by omega) (by omega), hmod, hmod2, Nat.add_sub_cancel]
    omega
  · have hmirror : 4 * c.q - 1 - (j + 2 * c.q) = 2 * c.q - 1 - j := by omega
    have hle := (quarter_spec h (i := 2 * c.q - 1 - j) (by omega)).2
    rw [lookup_secondQuarter (by omega) (by omega), lookup_fourthQuarter (by omega), hmod, hmod2, hmirror]
    omega

/-- The second quarter is the first, read backwards. -/
theorem lookup_mirror (hj : j < c.q) : lookup c (2 * c.q - 1 - j) = lookup c j := by
  have hmod : j % c.p = j := Nat.mod_eq_of_lt (by simp only [Config.p]; omega)
  have hmod2 : (2 * c.q - 1 - j) % c.p = 2 * c.q - 1 - j := Nat.mod_eq_of_lt (by simp only [Config.p]; omega)
  have hback : 2 * c.q - 1 - (2 * c.q - 1 - j) = j := by omega
  rw [lookup_secondQuarter (by omega) (by omega), lookup_firstQuarter (by omega), hmod, hmod2, hback]

/-- The table is read modulo its period (R171). -/
theorem lookup_add_period (c : Config) (k : Nat) : lookup c (k + c.p) = lookup c k := by
  simp only [lookup, Nat.add_mod_right]

/-- Settles O35: inversion, mirror and period of `lookup`. -/
theorem lookupIsSymmetric : Obligations.LookupIsSymmetric := fun c h =>
  ⟨fun _ => lookup_add_half h, fun _ => lookup_mirror, lookup_add_period c⟩

/-- Settles O46: of the moves of a TICK only those that take a sample stay in the session with a new output; the fetch
before the sample leaves PHASE alone (R194), and R46 names the increment. -/
theorem everySampleAdvancesThePhaseByTheIncrement : Obligations.EverySampleAdvancesThePhaseByTheIncrement := by
  intro s t h he htrace ht
  refine ⟨?_, ?_⟩
  · rcases tick_cases he with ⟨-, rfl⟩ | ⟨-, -, -, rfl⟩ | ⟨-, -, -, u, hu, rfl⟩ | ⟨-, -, rfl⟩
    · exact absurd rfl htrace
    · simp at ht
    · obtain ⟨tone, rfl, -⟩ := fetchBit_eq hu
      exact State.phaseAdvance_toNat h.legal
    · exact State.phaseAdvance_toNat h.legal
  · rw [← tick_keeps_cfg he]
    exact ((tick_keeps_inv h he).session.transmitting ht).inc

end Sys2Proof.Machine
end

section
/-! 42_synthesizer.md section 3: a session over its TICKs: a sample at each, the tone by the zeros so far, and the end
(R197, R198). -/

namespace Sys2Proof.Machine

/-! ## NRZI over a list of bits (R194) -/

/-- The tone of a bit after a tone: a 1 keeps it, a 0 toggles it. -/
def Tone.afterBit (tone : Tone) (b : Bool) : Tone := if b then tone else tone.toggle

/-- The tone after bits in a row. -/
def Tone.afterBits (tone : Tone) (bits : List Bool) : Tone := bits.foldl Tone.afterBit tone

theorem Tone.afterBits_concat (tone : Tone) (bits : List Bool) (b : Bool) :
    tone.afterBits (bits ++ [b]) = (tone.afterBits bits).afterBit b := List.foldl_append

/-- Two toggles undo each other, so the parity of the zeros tells the tone. -/
theorem Tone.afterBits_mark (bits : List Bool) :
    Tone.afterBits .mark bits = if bits.count false % 2 = 0 then .mark else .space := by
  induction bits using List.reverseRecOn with
  | nil => rfl
  | append_singleton bits b ih =>
    rw [Tone.afterBits_concat, ih, List.count_append]
    cases b with
    | true => rfl
    | false =>
      rcases Nat.mod_two_eq_zero_or_one (bits.count false) with h | h <;>
        simp [Tone.afterBit, Tone.toggle, h, Nat.add_mod]

/-! ## Runs of TICKs -/

/-- A command after a run that has completed. -/
theorem execAll_concat {is : List Instr} {s t : State} (h : execAll is s = .next t) (i : Instr) :
    execAll (is ++ [i]) s = exec i t := by
  induction is generalizing s with
  | nil =>
    cases h
    rw [List.nil_append, execAll]
    cases exec i t <;> rfl
  | cons j is ih =>
    rw [execAll] at h
    rw [List.cons_append, execAll]
    cases he : exec j s with
    | next u =>
      rw [he] at h
      exact ih h
    | fault why => simp [he] at h
    | refused why => simp [he] at h

/-- One TICK more is a TICK of the state the run has reached. -/
theorem ticks_succ {n : Nat} {s t : State} (h : ticks n s = .next t) : ticks (n + 1) s = exec .tick t := by
  rw [ticks, List.replicate_succ']
  exact execAll_concat h .tick

/-! ## A session over its TICKs (R197, R198) -/

/-- `n` TICKs of the session that starts in `s` have led to `t`: it is still in flight, `n` samples are out, the bits
fetched so far have set the tone, and of their samples only BUDGET are left. -/
structure SessionAfter (s : State) (n : Nat) (t : State) : Prop where
  inv : t.Inv
  sstate : t.sstate = .transmitting
  cfg : t.cfg = s.cfg
  txlen : t.txlen = s.txlen
  frameBits : t.frameBits = s.frameBits
  progress : t.cursor.toNat * s.cfg.spb = n + t.budget.toNat
  budget : t.budget.toNat < s.cfg.spb
  tone : t.tone = s.tone.afterBits (s.frameBits.take t.cursor.toNat)
  samples : ∃ samples : List Nat, samples.length = n ∧ t.trace = s.trace ++ samples.map .sampleOut

/-- A session just started. -/
theorem SessionAfter.start {s : State} (h : s.Inv) (hs : s.sstate = .transmitting) (hb : s.budget = 0#16)
    (hc : s.cursor = 0#20) : SessionAfter s 0 s where
  inv := h
  sstate := hs
  cfg := rfl
  txlen := rfl
  frameBits := rfl
  progress := by simp [hb, hc]
  budget := by rw [hb]; exact (Config.spb_range h.legal).1
  tone := by simp [hc, Tone.afterBits]
  samples := ⟨[], rfl, by simp⟩

/-- One output more is one sample more. -/
theorem concat_sample {trace : List Output} {n : Nat} {before after : List Output} {v : Nat}
    (h : ∃ samples : List Nat, samples.length = n ∧ before = trace ++ samples.map .sampleOut)
    (ha : after = before ++ [.sampleOut v]) :
    ∃ samples : List Nat, samples.length = n + 1 ∧ after = trace ++ samples.map .sampleOut := by
  obtain ⟨samples, hlen, rfl⟩ := h
  exact ⟨samples ++ [v], by simp [hlen], by simp [ha]⟩

namespace SessionAfter

variable {s t : State} {n : Nat}

/-- Inside a bit the TICK counts its sample off BUDGET (R195). -/
theorem tick_inside (h : SessionAfter s n t) (hb : t.budget ≠ 0#16) :
    ∃ u, exec .tick t = .next u ∧ SessionAfter s (n + 1) u := by
  obtain ⟨p, v, -, -, he⟩ := tickInsideABitEmitsOneSample t h.inv h.sstate hb
  have hbudget : (BitVec.ofNat 16 (t.budget.toNat - 1)).toNat = t.budget.toNat - 1 := by bv_omega
  have hpos : t.budget.toNat ≠ 0 := fun h0 => hb (BitVec.eq_of_toNat_eq h0)
  have hprogress := h.progress
  have hlt := h.budget
  exact ⟨_, he,
    { inv := tick_keeps_inv h.inv he
      sstate := h.sstate
      cfg := h.cfg
      txlen := h.txlen
      frameBits := h.frameBits
      progress := by simp only [hbudget]; omega
      budget := by simp only [hbudget]; omega
      tone := h.tone
      samples := concat_sample h.samples rfl }⟩

/-- At a bit boundary the TICK fetches the next bit, takes its tone and puts out its first sample (R194). -/
theorem tick_boundary (h : SessionAfter s n t) (hb : t.budget = 0#16) (hc : t.cursor ≠ t.txlen) :
    ∃ u, exec .tick t = .next u ∧ SessionAfter s (n + 1) u := by
  obtain ⟨b, tone, inc, p, v, hbit, htone, -, -, -, he⟩ :=
    tickAtABitBoundaryFetchesTheNextBit t h.inv h.sstate hb hc
  have hspb := Config.spb_range h.inv.legal
  rw [h.cfg] at hspb
  have hbudget : (BitVec.ofNat 16 (t.cfg.spb - 1)).toNat = s.cfg.spb - 1 := by
    rw [h.cfg, BitVec.toNat_ofNat]
    omega
  have hcursor : (BitVec.ofNat 20 (t.cursor.toNat + 1)).toNat = t.cursor.toNat + 1 := by
    have := (h.inv.session.transmitting h.sstate).cursor
    bv_omega
  have hprogress := h.progress
  rw [hb] at hprogress
  have hbit : s.frameBits[t.cursor.toNat]? = some b := h.frameBits ▸ hbit
  exact ⟨_, he,
    { inv := tick_keeps_inv h.inv he
      sstate := h.sstate
      cfg := h.cfg
      txlen := h.txlen
      frameBits := h.frameBits
      progress := by
        simp only [hbudget, hcursor, Nat.add_mul, hprogress, BitVec.toNat_zero]
        omega
      budget := by simp only [hbudget]; omega
      tone := by
        simp only [hcursor]
        rw [List.take_add_one, hbit, Option.toList_some, Tone.afterBits_concat, ← h.tone, htone]
        rfl
      samples := concat_sample h.samples rfl }⟩

/-- With all samples of the bits fetched put out, the count of TICKs tells CURSOR. -/
theorem cursor_of_budget (h : SessionAfter s n t) (hb : t.budget = 0#16) : t.cursor.toNat * s.cfg.spb = n := by
  rw [h.progress, hb]
  rfl

/-- Before TXLEN × SPB TICKs the session takes one more. -/
theorem tick (h : SessionAfter s n t) (hn : n < s.txlen.toNat * s.cfg.spb) :
    ∃ u, exec .tick t = .next u ∧ SessionAfter s (n + 1) u := by
  by_cases hb : t.budget = 0#16
  · refine h.tick_boundary hb fun hc => ?_
    rw [← h.cursor_of_budget hb, hc, h.txlen] at hn
    exact lt_irrefl _ hn
  · exact h.tick_inside hb

/-- After TXLEN × SPB TICKs the last bit is out. -/
theorem at_end (h : SessionAfter s (s.txlen.toNat * s.cfg.spb) t) : t.budget = 0#16 ∧ t.cursor = t.txlen := by
  have hle := (h.inv.session.transmitting h.sstate).cursor
  rw [h.txlen] at hle
  have hmul := Nat.mul_le_mul_right s.cfg.spb hle
  have hprogress := h.progress
  have hb : t.budget = 0#16 := BitVec.eq_of_toNat_eq (by simp only [BitVec.toNat_zero]; omega)
  refine ⟨hb, BitVec.eq_of_toNat_eq ?_⟩
  rw [h.txlen]
  exact Nat.eq_of_mul_eq_mul_right (Nat.zero_lt_of_lt h.budget) (h.cursor_of_budget hb)

/-- TICK `i` × SPB + `j` + 1 puts out sample `j` of bit `i`. -/
theorem cursor_budget {i j : Nat} (h : SessionAfter s (i * s.cfg.spb + j + 1) t) (hj : j < s.cfg.spb) :
    t.cursor.toNat = i + 1 ∧ t.budget.toNat = s.cfg.spb - 1 - j := by
  have hprogress := h.progress
  have hlt := h.budget
  have hcursor : t.cursor.toNat = i + 1 := by
    have hlow : i * s.cfg.spb < t.cursor.toNat * s.cfg.spb := by omega
    have hhigh : t.cursor.toNat * s.cfg.spb < (i + 2) * s.cfg.spb := by rw [Nat.add_mul]; omega
    have := Nat.lt_of_mul_lt_mul_right hlow
    have := Nat.lt_of_mul_lt_mul_right hhigh
    omega
  refine ⟨hcursor, ?_⟩
  rw [hcursor, Nat.add_mul] at hprogress
  omega

end SessionAfter

/-- A session just started takes TXLEN × SPB TICKs. -/
theorem ticks_of_session {s : State} (h : s.Inv) (hs : s.sstate = .transmitting) (hb : s.budget = 0#16)
    (hc : s.cursor = 0#20) {n : Nat} (hn : n ≤ s.txlen.toNat * s.cfg.spb) :
    ∃ t, ticks n s = .next t ∧ SessionAfter s n t := by
  induction n with
  | zero => exact ⟨s, rfl, .start h hs hb hc⟩
  | succ n ih =>
    obtain ⟨t, hticks, hafter⟩ := ih (Nat.le_of_succ_le hn)
    obtain ⟨u, he, hnext⟩ := hafter.tick hn
    exact ⟨u, (ticks_succ hticks).trans he, hnext⟩

/-- Settles O44: the session is followed over its TICKs (`SessionAfter`); R46 has it keyed and active, and after the
last sample the move of a TICK is `endSession`. -/
theorem sessionEmitsSpbSamplesPerBitAndEnds : Obligations.SessionEmitsSpbSamplesPerBitAndEnds := by
  intro s h hs hb hc
  refine ⟨fun n hn => ?_, ?_⟩
  · obtain ⟨t, hticks, hafter⟩ := ticks_of_session h hs hb hc hn
    obtain ⟨samples, hlen, htrace⟩ := hafter.samples
    have hsession := hafter.inv.session
    exact ⟨t, samples, hticks, hlen, htrace, (hsession.transmitting hafter.sstate).txEn,
      hsession.active.mpr hafter.sstate, hafter.frameBits⟩
  · obtain ⟨t, hticks, hafter⟩ := ticks_of_session h hs hb hc le_rfl
    obtain ⟨samples, hlen, htrace⟩ := hafter.samples
    obtain ⟨hbudget, hcursor⟩ := hafter.at_end
    refine ⟨t.endSession, samples, (ticks_succ hticks).trans (tick_of_end hafter.sstate hbudget hcursor), hlen, ?_,
      rfl, rfl, rfl, rfl⟩
    rw [State.endSession_trace, htrace]

/-- Settles O45: `SessionAfter` says which bit and sample a TICK has reached (`cursor_budget`) and that the bits up to
it have set the tone, which from Mark is the parity of their zeros (`Tone.afterBits_mark`). -/
theorem toneFollowsTheParityOfZeros : Obligations.ToneFollowsTheParityOfZeros := by
  intro s h hs hb hc hmark i j hi hj
  have hn : i * s.cfg.spb + j + 1 ≤ s.txlen.toNat * s.cfg.spb := by
    have := Nat.mul_le_mul_right s.cfg.spb (Nat.succ_le_of_lt hi)
    rw [Nat.succ_mul] at this
    omega
  obtain ⟨t, hticks, hafter⟩ := ticks_of_session h hs hb hc hn
  obtain ⟨hcursor, hbudget⟩ := hafter.cursor_budget hj
  refine ⟨t, hticks, hcursor, hbudget, ?_⟩
  rw [hafter.tone, hcursor, hmark, Tone.afterBits_mark]

end Sys2Proof.Machine
end
